-- ==== Sys2Proof/Word.lean ====
section
/-! DEFINITION. The word types of OOKGEN: the widths that spec/00_scope.md R7 gives its cells and registers. -/

namespace Sys2Proof

/-- One cell of LUT, SYM, OUT, ALPHA or SEQ, and one command code: SAMPLE_W = SYM_W = 8 bits (R7, R76). -/
abbrev Byte := BitVec 8

/-- FS, FC, SYMBOL_LEN and PAUSE_LEN: FREQ_W = LEN_W = 32 bits, unsigned (R7). -/
abbrev Word := BitVec 32

/-- AMP: SAMPLE_W - 1 = 7 bits, unsigned, so 0 to AMP_MAX = 127 (R24, R28). -/
abbrev Amplitude := BitVec 7

end Sys2Proof
end

