-- ==== Sys2Proof/Config.lean ====
section
/-! DEFINITION. What an implementation of OOKGEN fixes and the spec leaves open (spec/00_scope.md R7). -/

namespace Sys2Proof

/-- HAS_STRICT: whether CTRL.STRICT can be set (R7, R27, U2). The spec's default is false and "a model may take true",
so no value is fixed here and a claim holds for both (log 8). -/
opaque Config.hasStrict : Bool

end Sys2Proof
end

