-- ==== Sys2Proof/Syntax.lean ====
section
/-! DEFINITION. The instructions of OOKGEN: one constructor of `Instr` per row of spec/opcode_table.json, and the two
alphabets its decoders read (symbols of a SYM cell, commands written to CMD). -/

namespace Sys2Proof

/-- The two one-byte formats (30_encoding.md R70, R76): a cell of SYM, or a code written to CMD. -/
inductive Format where
  | sym8
  | cmd8
  deriving DecidableEq, Repr

/-- What a SYM cell decodes to: the four symbol classes of R70. -/
inductive Symbol where
  | active
  | inactive
  | pause
  | malformed (c : Byte)
  deriving DecidableEq, Repr

/-- What a code written to CMD decodes to: the three commands of R76 and the reserved codes of R77. -/
inductive Command where
  | build
  | generate
  | debruijn
  | reserved (c : Byte)
  deriving DecidableEq, Repr

/-- A substitution mapping of ENCODE (R110, R114): a finite partial function from characters to strings, as pairs. -/
abbrev Mapping := List (Byte × List Byte)

/-- The rows of spec/opcode_table.json. -/
inductive Instr where
  /-- ACTIVE, '1': carrier on for one symbol duration (R122). -/
  | active
  /-- INACTIVE, '0': carrier off for one symbol duration (R123). -/
  | inactive
  /-- PAUSE, 'p': carrier off for one pause duration (R124). -/
  | pause
  /-- MALFORMED: any other character `c`; no samples, reported (R125). -/
  | malformed (c : Byte)
  /-- BUILD: fill the carrier table (R90). -/
  | build
  /-- GENERATE: expand SYM into OUT (R120). -/
  | generate
  /-- DEBRUIJN: write the covering sequence to SEQ (R140). -/
  | debruijn
  /-- RESERVED_CMD: a reserved command code `c` (R77). -/
  | reservedCmd (c : Byte)
  /-- ENCODE: the host-side symbol encoder, with no code (R110). -/
  | encode (msg : List Byte) (map : Mapping)
  deriving DecidableEq, Repr

/-- A symbol as an instruction. -/
def Symbol.toInstr : Symbol → Instr
  | .active => .active
  | .inactive => .inactive
  | .pause => .pause
  | .malformed c => .malformed c

/-- A command as an instruction. -/
def Command.toInstr : Command → Instr
  | .build => .build
  | .generate => .generate
  | .debruijn => .debruijn
  | .reserved c => .reservedCmd c

/-- The format an instruction is encoded in; ENCODE has no code (R84). -/
def Instr.format : Instr → Option Format
  | .active => some .sym8
  | .inactive => some .sym8
  | .pause => some .sym8
  | .malformed _ => some .sym8
  | .build => some .cmd8
  | .generate => some .cmd8
  | .debruijn => some .cmd8
  | .reservedCmd _ => some .cmd8
  | .encode _ _ => none

end Sys2Proof
end

