-- ==== Sys2Proof/Machine/State.lean ====
section
/-! DEFINITION. The state of OOKGEN (10_state.md R20 to R42) as plain data, the reasons a step can stop, and the state
after reset. -/

namespace Sys2Proof.Machine

/-- An index space (20_memory.md R50): the cells that hold a value, as (index, value) pairs with strictly rising
indices. An index that is not listed holds no value (R41, R42). -/
abbrev Memory (α : Type) := List (Nat × α)

/-- The canonical form of an index space: indices strictly rising. An unlisted index holds no value, so no entry can
equal what an unlisted index reads as. -/
abbrev Memory.wf {α : Type} (m : Memory α) : Prop := (m.map Prod.fst).Pairwise (· < ·)

/-- The error codes of STATUS.ERR (60_exceptions.md R161). -/
inductive ErrorCode where
  /-- 0: no error. -/
  | none
  /-- 1: InvalidParameter. -/
  | invalidParameter
  /-- 2: MalformedSymbol, strict mode only. -/
  | malformedSymbol
  /-- 3: DeviceError: reserved, "never by OOKGEN". -/
  | deviceError
  deriving DecidableEq, Repr

/-- The fields of STATUS (R25), 7 bits in all and none of them reserved; `Status.toWord` is the register. -/
structure Status where
  done : Bool
  err : ErrorCode
  malformed : Bool
  lutValid : Bool
  outValid : Bool
  seqValid : Bool
  deriving DecidableEq, Repr

/-- An event record (30_encoding.md R80): the position of a malformed symbol in SYM and its character code. -/
structure EventRecord where
  pos : Nat
  symc : Byte
  deriving DecidableEq, Repr

/-- A frame of DEBRUIJN's stack (43_debruijn.md R149): the arguments of one activation of `db` and its next loop value,
`none` before the activation starts. -/
structure Frame where
  t : Nat
  p : Nat
  j : Option Nat
  deriving DecidableEq, Repr

/-- Which command's inner loop the state stands in. MODEL's own field (log 4): between commands it is `idle`. -/
inductive Engine where
  | idle
  | generating
  | covering
  deriving DecidableEq, Repr

/-- The host-visible registers, in the order of their numbers 0 to 14 (R24). -/
inductive Reg where
  | cmd
  | status
  | ctrl
  | fs
  | fc
  | amp
  | symbolLen
  | pauseLen
  | symCount
  | nPairs
  | outLen
  | evtCount
  | dbK
  | dbN
  | seqLen
  deriving DecidableEq, Repr

/-- The index spaces whose cells the host may write (R181). -/
inductive InputSpace where
  | sym
  | alpha
  deriving DecidableEq, Repr

/-- The index spaces whose cells the host may read (R181). -/
inductive OutputSpace where
  | lut
  | out
  | evt
  | seq
  deriving DecidableEq, Repr

/-- What the outside may do between commands (R181, R190, R5). -/
inductive HostAction where
  /-- Write the number `v` to a register; a write of CMD runs a command (R38). -/
  | writeReg (r : Reg) (v : Int)
  /-- Read a register (R24). -/
  | readReg (r : Reg)
  /-- Store the character with code `c` in cell `i` (R32, R35). -/
  | writeCell (sp : InputSpace) (i : Nat) (c : Nat)
  /-- Read cell `i` (R181, R184). -/
  | readCell (sp : OutputSpace) (i : Nat)
  /-- Apply ENCODE to a message and a mapping (R110). -/
  | encode (msg : List Byte) (map : Mapping)
  /-- Reset (R190). -/
  | reset
  deriving DecidableEq, Repr

/-- What a host read gives. -/
inductive HostValue where
  /-- The number a register holds. -/
  | number (n : Nat)
  /-- The byte a LUT, OUT or SEQ cell holds. -/
  | cell (c : Byte)
  /-- An EVT record. -/
  | event (r : EventRecord)
  deriving DecidableEq, Repr

/-- The host's side of the interface. MODEL's own fields (log 6, log 7): none of them is state of OOKGEN. -/
structure HostSide where
  /-- The actions the host has still to take, oldest first: the machine's input. -/
  pending : List HostAction
  /-- What the host's latest read gave it. -/
  lastRead : Option HostValue
  /-- The string the host's latest ENCODE gave it. -/
  encoded : Option (List Byte)
  deriving DecidableEq, Repr

/-- The state. An `Option` register at `none` "holds no value" (R41): the spec's own state, which the commands test
(log 1). -/
structure State where
  /-- CMD (R38): the code of a command written and not yet run; between steps it holds no value. -/
  cmd : Option Byte
  /-- STATUS (R25). -/
  status : Status
  /-- CTRL.STRICT (R27). -/
  strict : Bool
  /-- FS, the sample rate (R28). -/
  fs : Option Word
  /-- FC, the carrier frequency (R28). -/
  fc : Option Word
  /-- AMP, the amplitude (R28). -/
  amp : Option Amplitude
  /-- SYMBOL_LEN, in I/Q pairs (R29). -/
  symbolLen : Option Word
  /-- PAUSE_LEN, in I/Q pairs (R29). -/
  pauseLen : Option Word
  /-- SYM_COUNT (R32). -/
  symCount : Option Nat
  /-- N_PAIRS (R31). -/
  nPairs : Option Nat
  /-- OUT_LEN (R33). -/
  outLen : Nat
  /-- EVT_COUNT (R34). -/
  evtCount : Nat
  /-- DB_K (R35). -/
  dbK : Option Nat
  /-- DB_N (R35). -/
  dbN : Option Nat
  /-- SEQ_LEN (R36). -/
  seqLen : Nat
  /-- LUT, the carrier table (R30). -/
  lut : Memory Byte
  /-- SYM, the symbol sequence (R32). -/
  sym : Memory Byte
  /-- OUT, the sample buffer (R33). -/
  out : Memory Byte
  /-- EVT, the event log (R34). -/
  evt : Memory EventRecord
  /-- ALPHA, the alphabet table (R35). -/
  alpha : Memory Byte
  /-- SEQ, the covering sequence (R36). -/
  seq : Memory Byte
  /-- CTR, the phase accumulator (R21). -/
  ctr : Nat
  /-- SPC, the symbol position counter (R23). -/
  spc : Nat
  /-- The de Bruijn work array `a` (R26). -/
  workArray : List Nat
  /-- DEBRUIJN's recursion stack, top first (R37, R149). -/
  stack : List Frame
  /-- The inner loop the state stands in (log 4). -/
  engine : Engine
  /-- The host's side (log 6, log 7). -/
  host : HostSide
  deriving DecidableEq, Repr

/-- The machine stops with a fault. The spec has no access fault (20_memory.md R66) and every error it names is a next
state, so there is one fault, for states no run reaches. -/
inductive Fault where
  /-- Raised by ACTIVE alone, when LUT has no cell to read at an index `(i + CTR) mod TABLE_LEN`. R59 derives that this
  never happens once GENERATE's preconditions hold. Safe: no reachable state raises it (log 14). -/
  | lutCellHoldsNoValue
  deriving DecidableEq, Repr

/-- No meaning: the cases 93_implementation_defined.md treats as `refuse`. -/
inductive Refusal where
  /-- An instruction that has no meaning yet; no arm of `exec` answers with it. Safe. -/
  | notModelled (mnemonic : String)
  /-- Raised by RESERVED_CMD: a reserved code written to CMD (R77, U10). Safe. -/
  | reservedCommand (c : Byte)
  /-- Raised by a command that reads a SYM or ALPHA cell the host never wrote (R59, U7). Safe. -/
  | cellHoldsNoValue
  /-- Raised by a host read of a register that holds no value, or of CMD, and by no instruction: such a read "has no
  meaning and the model refuses it" (10_state.md R41; U7, D20; for CMD R38). Safe. -/
  | registerHoldsNoValue
  /-- Raised by a host read of a cell at or above the space's length (U7). Safe. -/
  | cellNotReadable
  /-- Raised by a host write of a number outside the register's type (U11). Safe. -/
  | valueOutsideRegister
  /-- Raised by a host write of a character whose code does not fit SYM_W bits (U8). Safe. -/
  | characterTooWide
  /-- Raised by an ENCODE of the host whose mapping gives a key twice, which is no mapping (R114). Safe. -/
  | mappingNotAFunction
  deriving DecidableEq, Repr

/-- STATUS after reset: all fields 0 (R42). -/
def Status.reset : Status :=
  { done := false, err := .none, malformed := false, lutValid := false, outValid := false, seqValid := false }

/-- The machine right after reset (R42, R190), with no host action waiting. CTR, SPC, the work array and the stack are
"not defined between commands"; their values here are DESIGN CHOICES (log 2, log 3). -/
def State.reset : State where
  cmd := none
  status := Status.reset
  strict := false
  fs := none
  fc := none
  amp := none
  symbolLen := none
  pauseLen := none
  symCount := none
  nPairs := none
  outLen := 0
  evtCount := 0
  dbK := none
  dbN := none
  seqLen := 0
  lut := []
  sym := []
  out := []
  evt := []
  alpha := []
  seq := []
  ctr := 0
  spc := 0
  workArray := []
  stack := []
  engine := .idle
  host := { pending := [], lastRead := none, encoded := none }

end Sys2Proof.Machine
end

