-- ==== Sys2Proof/Machine/Flags.lean ====
section
/-! DEFINITION. STATUS (10_state.md R25, R39; 60_exceptions.md R161): the register's word and every update a command
makes of its fields. OOKGEN has no condition codes (R39). -/

namespace Sys2Proof.Machine

/-- The code of an error in STATUS.ERR (R161). -/
def ErrorCode.code : ErrorCode → Nat
  | .none => 0
  | .invalidParameter => 1
  | .malformedSymbol => 2
  | .deviceError => 3

/-- STATUS as the 7-bit register the host reads: bit 0 DONE, bits 2:1 ERR, bit 3 MALFORMED, bit 4 LUT_VALID, bit 5
OUT_VALID, bit 6 SEQ_VALID (R25). -/
def Status.toWord (f : Status) : BitVec 7 :=
  BitVec.ofNat 7 (f.done.toNat + 2 * f.err.code + 8 * f.malformed.toNat + 16 * f.lutValid.toNat
    + 32 * f.outValid.toNat + 64 * f.seqValid.toNat)

/-- `STATUS.DONE <- 1; STATUS.ERR <- 0`: a command ended without a fatal error (R25). -/
def Status.succeed (f : Status) : Status := { f with done := true, err := .none }

/-- `STATUS.DONE <- 0; STATUS.ERR <- e`: a command ended with a fatal error (R25, R161). -/
def Status.fail (f : Status) (e : ErrorCode) : Status := { f with done := false, err := e }

/-- `STATUS.MALFORMED <- b` (R39). -/
def Status.setMalformed (f : Status) (b : Bool) : Status := { f with malformed := b }

/-- `STATUS.LUT_VALID <- 1` (R98). -/
def Status.setLutValid (f : Status) : Status := { f with lutValid := true }

/-- `STATUS.OUT_VALID <- b` (R120, R128). -/
def Status.setOutValid (f : Status) (b : Bool) : Status := { f with outValid := b }

/-- `STATUS.SEQ_VALID <- 1` (R140). -/
def Status.setSeqValid (f : Status) : Status := { f with seqValid := true }

end Sys2Proof.Machine
end

