-- ==== Sys2Proof/Machine/Ops.lean ====
section
/-! DEFINITION. The operations shared by the meanings: reading and writing index spaces (00_scope.md R13), appending to
OUT, EVT and SEQ, the entry of each error (60_exceptions.md R164, R166, R173). There is no return from an error:
"there is no handler, so there is no return from one" (R168). -/

namespace Sys2Proof.Machine

/-- The three outcomes of a step of OOKGEN. -/
abbrev Out := Host.Outcome State Fault Refusal

/-- Go on with `f` where the first part answers a next state. -/
def andThen (o : Out) (f : State → Out) : Out :=
  match o with
  | .next s => f s
  | .fault r => .fault r
  | .refused r => .refused r

/-- The state an outcome goes to, if it goes on. -/
def nextOf (o : Out) : Option State :=
  match o with
  | .next s => some s
  | .fault _ => none
  | .refused _ => none

/-! ### Index spaces -/

/-- The value of cell `i`; `none` where the cell holds no value (R41). -/
def Memory.read {α : Type} : Memory α → Nat → Option α
  | [], _ => none
  | (j, v) :: rest, i => if j = i then some v else Memory.read rest i

/-- The values of the cells at a list of indices, in its order; `none` where one of them holds no value. -/
def Memory.readAll {α : Type} (m : Memory α) : List Nat → Option (List α)
  | [] => some []
  | i :: is =>
    match Memory.read m i, Memory.readAll m is with
    | some v, some vs => some (v :: vs)
    | _, _ => none

/-- The cells below index `n`. -/
def Memory.below {α : Type} (m : Memory α) (n : Nat) : Memory α := m.filter (fun c => decide (c.1 < n))

/-- The cells at or above index `n`. -/
def Memory.from {α : Type} (m : Memory α) (n : Nat) : Memory α := m.filter (fun c => decide (n ≤ c.1))

/-- The cells that hold the sequence `vs` from index `base` on. -/
def Memory.cells {α : Type} : Nat → List α → Memory α
  | _, [] => []
  | base, v :: vs => (base, v) :: Memory.cells (base + 1) vs

/-- `MemWrite(space, base, |vs|, vs)` (R13): the sequence `vs` in the cells from `base` on, every other cell as it was. -/
def Memory.write {α : Type} (m : Memory α) (base : Nat) (vs : List α) : Memory α :=
  m.below base ++ Memory.cells base vs ++ m.from (base + vs.length)

/-! ### Appends -/

/-- `OUT.append(vs)` (R13): written at index OUT_LEN, and OUT_LEN grows by the number of entries. -/
def State.appendOut (s : State) (vs : List Byte) : State :=
  { s with out := s.out.write s.outLen vs, outLen := s.outLen + vs.length }

/-- `SEQ.append(vs)` (R13). -/
def State.appendSeq (s : State) (vs : List Byte) : State :=
  { s with seq := s.seq.write s.seqLen vs, seqLen := s.seqLen + vs.length }

/-- `CTR <- CTR + n; SPC <- SPC + 1`: the end of every symbol (R121). -/
def State.advance (s : State) (n : Nat) : State :=
  { s with ctr := s.ctr + n, spc := s.spc + 1 }

/-! ### Errors and events -/

/-- `raise InvalidParameter` (R164): the command ends at once and nothing changes but `STATUS.DONE <- 0` and
`STATUS.ERR <- 1`; OOKGEN is idle again. -/
def State.raiseInvalidParameter (s : State) : State :=
  { s with status := s.status.fail .invalidParameter, engine := .idle }

/-- `report MalformedSymbol(SPC, c)` (R125, R166): the record (SPC, c) is appended to EVT, EVT_COUNT is incremented and
STATUS.MALFORMED set. Nothing else changes. -/
def State.reportMalformed (s : State) (c : Byte) : State :=
  { s with
    evt := s.evt.write s.evtCount [{ pos := s.spc, symc := c }]
    evtCount := s.evtCount + 1
    status := s.status.setMalformed true }

/-- The strict-mode abort (R128, R173), after the record has been appended: no sample buffer is delivered, and GENERATE
ends with `STATUS.ERR <- 2`. CTR and SPC stay where they are: they are dead (R126; log 2). -/
def State.strictAbort (s : State) : State :=
  { s with
    out := []
    outLen := 0
    status := (s.status.setOutValid false).fail .malformedSymbol
    engine := .idle }

end Sys2Proof.Machine
end

