-- ==== Sys2Proof/Machine/Operands.lean ====
section
/-! DEFINITION. The operands the symbols and commands read implicitly: the doubled lengths (30_encoding.md R75,
00_scope.md R15) and the entries an ACTIVE symbol takes from the carrier table (42_waveform.md R122). -/

namespace Sys2Proof.Machine

/-- SYM_ENTRIES = 2·SYMBOL_LEN, exact (R75); `none` while SYMBOL_LEN holds no value. -/
def State.symEntries (s : State) : Option Nat := s.symbolLen.map (fun w => 2 * w.toNat)

/-- PAUSE_ENTRIES = 2·PAUSE_LEN, exact (R75); `none` while PAUSE_LEN holds no value. -/
def State.pauseEntries (s : State) : Option Nat := s.pauseLen.map (fun w => 2 * w.toNat)

/-- TABLE_LEN = 2·N_PAIRS, the number of cells of LUT (R15, R31); `none` while N_PAIRS holds no value. -/
def State.tableLen (s : State) : Option Nat := s.nPairs.map (fun n => 2 * n)

/-- The LUT indices an ACTIVE symbol reads, in order: `(i + CTR) mod L` for i = 0, ..., SE - 1 (R122). -/
def phaseIndices (ctr se l : Nat) : List Nat := (List.range se).map (fun i => (i + ctr) % l)

/-- The entries an ACTIVE symbol appends: the LUT cells below TABLE_LEN = `l` at its phase indices (R122, R59). -/
def State.activeEntries (s : State) (se l : Nat) : Option (List Byte) :=
  (s.lut.below l).readAll (phaseIndices s.ctr se l)

/-- `rep(0, n)`: n zero entries (R123, R124). -/
def silence (n : Nat) : List Byte := List.replicate n 0#8

end Sys2Proof.Machine
end

