-- ==== Sys2Proof/Machine/Carrier.lean ====
section
/-! DEFINITION. BUILD, the carrier table builder (40_carrier_table.md R90 to R107), with the exact rounding of
`AMP·cos` it needs (R93, 00_scope.md R11).

Angles are held as fractions `u/q` of a quarter turn: the pair (u, q) stands for the angle (π/2)·(u/q). Then the angle
t_i = 2π·i·FC/FS + π/2 of table entry i is u = 4·i·FC + FS over q = FS, exactly.

Whether `cos` of such an angle lies above a rational r is decided in integers by doubling: for two angles in the same
half of [0, π], cos x > r is the same as cos 2x > 2r² - 1 (in the first quadrant) or the opposite of it (in the
second). r is held as an interval of integers over a scale S, rounded outwards, so every decision is right; where the
interval is too wide to decide, the search tries again at twice the precision (log 10). -/

namespace Sys2Proof.Machine

/-- `⌈a / b⌉` for integers, b > 0. -/
def ceilDiv (a b : Int) : Int := -((-a) / b)

/-- Whether cos((π/2)·v/q) is above (`some true`) or below (`some false`) every number of [lo/scale, hi/scale], for
0 ≤ v ≤ 2q; `none` where `fuel` doublings at this scale do not decide. -/
def cosCompare (q : Nat) (scale : Int) : (fuel v : Nat) → (lo hi : Int) → Option Bool
  | 0, _, _, _ => none
  | fuel + 1, v, lo, hi =>
    if v < q then
      if hi ≤ 0 then some true
      else if 0 ≤ lo then
        cosCompare q scale fuel (2 * v) (2 * (lo * lo) / scale - scale) (ceilDiv (2 * (hi * hi)) scale - scale)
      else none
    else if v = q then
      if hi < 0 then some true else if 0 < lo then some false else none
    else
      if 0 ≤ lo then some false
      else if hi ≤ 0 then
        (cosCompare q scale fuel (4 * q - 2 * v) (2 * (hi * hi) / scale - scale)
          (ceilDiv (2 * (lo * lo)) scale - scale)).map (fun b => !b)
      else none

/-- Whether `A·cos((π/2)·u/q)` lies above m + 1/2, at the precisions `bits`, 2·`bits`, ...: at most `levels` of them. -/
def cosSearch (A m u q : Nat) : (levels bits : Nat) → Option Bool
  | 0, _ => none
  | levels + 1, bits =>
    let scale : Int := 2 ^ bits
    match cosCompare q scale bits u ((2 * m + 1) * scale / (2 * A)) (ceilDiv ((2 * m + 1) * scale) (2 * A)) with
    | some b => some b
    | none => cosSearch A m u q levels (2 * bits)

/-- `A·cos((π/2)·u/q) > m + 1/2`. The search decides for every amplitude A ≤ 127, m < A and angle inside the quarter
turn other than π/3 (`Sys2Proof.Laws.cosSearch_decides`), which are the ones it is asked for (log 10). -/
def cosAbove (A m u q : Nat) : Bool := cosSearch A m u q (64 * q + 64) 64 == some true

/-- `round_he(a / b)` of a non-negative rational (00_scope.md R11). -/
def roundHalfEven (a b : Nat) : Nat :=
  if 2 * (a % b) < b then a / b
  else if b < 2 * (a % b) then a / b + 1
  else if a / b % 2 = 0 then a / b
  else a / b + 1

/-- The largest v ≤ `top` with v = 0 or A·cos((π/2)·u/q) > v - 1/2. -/
def cosScan (A u q : Nat) : (top : Nat) → Nat
  | 0 => 0
  | m + 1 => if cosAbove A m u q then m + 1 else cosScan A u q m

/-- `round_he(A·cos((π/2)·u/q))` for 0 ≤ u ≤ q. The cosine is 1 at u = 0, 0 at u = q and 1/2 at 3u = 2q, the only
angle of this range where a tie can occur (R102). -/
def cosRound (A u q : Nat) : Nat :=
  if u = 0 then A
  else if u = q then 0
  else if 3 * u = 2 * q then roundHalfEven A 2
  else cosScan A u q A

/-- `round_he(A·cos((π/2)·u/q))` for every u, by quadrants (round_he is odd, R11). -/
def carrierEntry (A u q : Nat) : Int :=
  let v := u % (4 * q)
  if v ≤ q then cosRound A v q
  else if v ≤ 2 * q then -(cosRound A (2 * q - v) q : Int)
  else if v ≤ 3 * q then -(cosRound A (v - 2 * q) q : Int)
  else cosRound A (4 * q - v) q

/-- I component of pair i: `round_he(AMP·cos(t_i))`, t_i = 2π·i·FC/FS + π/2 (R93). -/
def carrierI (FS FC A i : Nat) : Int := carrierEntry A (4 * (i * FC) + FS) FS

/-- Q component of pair i: `round_he(-AMP·sin(t_i))` = `round_he(AMP·cos(t_i + π/2))` (R93). -/
def carrierQ (FS FC A i : Nat) : Int := carrierEntry A (4 * (i * FC) + 2 * FS) FS

/-- A sample entry as its cell: SAMPLE_W-bit two's complement (R78). -/
def sampleCell (v : Int) : Byte := BitVec.ofInt 8 v

/-- N = round_he(FS / FC) (R92). -/
def pairCount (FS FC : Nat) : Nat := roundHalfEven FS FC

/-- The cells LUT[0], ..., LUT[2·N - 1], I before Q (R93, R52). -/
def carrierTable (FS FC A : Nat) : List Byte :=
  (List.range (pairCount FS FC)).flatMap
    (fun i => [sampleCell (carrierI FS FC A i), sampleCell (carrierQ FS FC A i)])

/-- The results of a successful BUILD (R98): cells at or above 2·N keep what they held. -/
def State.loadTable (s : State) (n : Nat) (table : List Byte) : State :=
  { s with
    lut := s.lut.write 0 table
    nPairs := some n
    status := s.status.setLutValid.succeed }

/-- BUILD (R90, R91): InvalidParameter if FS, FC or AMP holds no value, if FC = 0 or if 2·FC > FS; otherwise the table
of (FS, FC, AMP). -/
def execBuild (s : State) : Out :=
  match s.fs, s.fc, s.amp with
  | some fs, some fc, some amp =>
    if fc.toNat = 0 ∨ fs.toNat < 2 * fc.toNat then .next s.raiseInvalidParameter
    else .next (s.loadTable (pairCount fs.toNat fc.toNat) (carrierTable fs.toNat fc.toNat amp.toNat))
  | _, _, _ => .next s.raiseInvalidParameter

end Sys2Proof.Machine
end

