-- ==== Sys2Proof/Machine/Debruijn.lean ====
section
/-! DEFINITION. DEBRUIJN, the covering-sequence generator (43_debruijn.md R140 to R156): the recursive procedure `db`
(R143, normative) and the step of its stack form (R149). -/

namespace Sys2Proof.Machine

/-- Cell `i` of the work array. Every index used is within the array (R147); the array starts at all 0 (R142). -/
def workCell (a : List Nat) (i : Nat) : Nat := a.getD i 0

/-- The indices `a[1], ..., a[p]` (R143, a closed range). -/
def emission (a : List Nat) (p : Nat) : List Nat := (List.range p).map (fun x => workCell a (x + 1))

/-- What the recursion has done so far: the work array, shared by all activations (R26), and the symbol indices
appended. -/
structure Covering where
  cells : List Nat
  indices : List Nat
  deriving DecidableEq, Repr

/-- `a[t] <- v`. -/
def Covering.set (r : Covering) (t v : Nat) : Covering := { r with cells := r.cells.set t v }

/-- Append `a[1 .. p]` where p divides n (R143, t > n). -/
def Covering.emit (r : Covering) (n p : Nat) : Covering :=
  if n % p = 0 then { r with indices := r.indices ++ emission r.cells p } else r

/-- `db(t, p)` (R143) by recursion on n + 1 - t (R153), which is the first argument after k and n: at 0, t > n. -/
def db (k n : Nat) : (left t p : Nat) → Covering → Covering
  | 0, _, p, r => r.emit n p
  | left + 1, t, p, r =>
    let v := workCell r.cells (t - p)
    (List.range' (v + 1) (k - (v + 1))).foldl
      (fun r j => db k n left (t + 1) t (r.set t j))
      (db k n left (t + 1) p (r.set t v))

/-- `db(1, 1)` on n + 1 zero cells (R140, R142). -/
def coveringRun (k n : Nat) : Covering :=
  db k n n 1 1 { cells := List.replicate (n + 1) 0, indices := [] }

/-- The start of DEBRUIJN after its error tests (R142, R192): work array all 0, SEQ emptied, one frame (1, 1). -/
def State.beginDebruijn (s : State) (n : Nat) : State :=
  { s with
    workArray := List.replicate (n + 1) 0
    stack := [{ t := 1, p := 1, j := none }]
    seq := []
    seqLen := 0
    engine := .covering }

/-- The end of DEBRUIJN (R140): `STATUS.SEQ_VALID <- 1; STATUS.DONE <- 1; STATUS.ERR <- 0`. -/
def State.finishDebruijn (s : State) : State :=
  { s with status := s.status.setSeqValid.succeed, engine := .idle }

/-- The recursion's work done: its work array and an empty stack. -/
def State.withWork (s : State) (a : List Nat) : State := { s with workArray := a, stack := [] }

/-- DEBRUIJN (R140, R141): one atomic transition (R16). InvalidParameter if DB_K or DB_N holds no value or is 0;
otherwise SEQ is the index sequence of `db(1, 1)` mapped through ALPHA (R144). An ALPHA cell below DB_K that holds no
value refuses the command (R59). -/
def execDebruijn (s : State) : Out :=
  match s.dbK, s.dbN with
  | some k, some n =>
    if k < 1 ∨ n < 1 then .next s.raiseInvalidParameter
    else
      match (s.alpha.below k).readAll (coveringRun k n).indices with
      | some vs =>
        .next (((s.beginDebruijn n).withWork (coveringRun k n).cells).appendSeq vs).finishDebruijn
      | none => .refused .cellHoldsNoValue
  | _, _ => .next s.raiseInvalidParameter

/-- The recursion stack replaced, top first. -/
def State.withStack (s : State) (fs : List Frame) : State := { s with stack := fs }

/-- `a[t] <- v` on the machine's work array. -/
def State.setWork (s : State) (t v : Nat) : State := { s with workArray := s.workArray.set t v }

/-- One turn of the loop of R149 with alphabet size k and word length n; the empty stack ends DEBRUIJN. -/
def coveringTurn (k n : Nat) (s : State) : Out :=
  match s.stack with
  | [] => .next s.finishDebruijn
  | f :: rest =>
    if n < f.t then
      if n % f.p = 0 then
        match (s.alpha.below k).readAll (emission s.workArray f.p) with
        | some vs => .next ((s.appendSeq vs).withStack rest)
        | none => .refused .cellHoldsNoValue
      else .next (s.withStack rest)
    else
      match f.j with
      | none =>
        let v := workCell s.workArray (f.t - f.p)
        .next ((s.setWork f.t v).withStack
          ({ t := f.t + 1, p := f.p, j := none } :: { f with j := some (v + 1) } :: rest))
      | some j =>
        if j < k then
          .next ((s.setWork f.t j).withStack
            ({ t := f.t + 1, p := f.t, j := none } :: { f with j := some (j + 1) } :: rest))
        else .next (s.withStack rest)

/-- One inner step of DEBRUIJN (R149) on the machine's state. DB_K and DB_N hold values whenever DEBRUIJN runs (R141);
elsewhere the command fails as R41 says (log 13). -/
def coveringStep (s : State) : Out :=
  match s.dbK, s.dbN with
  | some k, some n => coveringTurn k n s
  | _, _ => .next s.raiseInvalidParameter

end Sys2Proof.Machine
end

