-- ==== Sys2Proof/Machine/Encoder.lean ====
section
/-! DEFINITION. ENCODE, the host-side symbol encoder (41_symbol_encoder.md R110 to R117), and the two instructions with
no effect on OOKGEN's state: ENCODE and a reserved command. -/

namespace Sys2Proof.Machine

/-- What one message character becomes (R110): its mapped string if it is a key, itself otherwise. -/
def encodeChar (map : Mapping) (c : Byte) : List Byte :=
  match map.lookup c with
  | some r => r
  | none => [c]

/-- `ENCODE(msg, map)` (R110): each character on its own, in input order, once. -/
def encodeString (msg : List Byte) (map : Mapping) : List Byte := msg.flatMap (encodeChar map)

/-- ENCODE as an instruction: no state of OOKGEN is read or written (R110); the host has the result (log 7). -/
def execEncode (msg : List Byte) (map : Mapping) (s : State) : Out :=
  .next { s with host := { s.host with encoded := some (encodeString msg map) } }

/-- RESERVED_CMD (R77): "Writing one has no defined meaning; the model refuses it". -/
def execReservedCmd (c : Byte) (_s : State) : Out := .refused (.reservedCommand c)

end Sys2Proof.Machine
end

