-- ==== Sys2Proof/WellFormed.lean ====
section
/-! DEFINITION. Which terms of `Instr` stand for something the spec has: the two complement rows exclude the codes of
their format's other rows (30_encoding.md R73, R77), and a mapping is a function (41_symbol_encoder.md R114). -/

namespace Sys2Proof

/-- No key stands twice: "A key maps to exactly one string (the mapping is a function)" (R114). -/
def Mapping.isFunction (map : Mapping) : Bool :=
  decide (map.map Prod.fst).Nodup

/-- A character code that is none of '0', '1', 'p' (R73). -/
def isMalformedCode (c : Byte) : Bool :=
  c ≠ 0x30#8 && c ≠ 0x31#8 && c ≠ 0x70#8

/-- A command code that is none of BUILD, GENERATE, DEBRUIJN (R77). -/
def isReservedCode (c : Byte) : Bool :=
  c ≠ 0x01#8 && c ≠ 0x02#8 && c ≠ 0x03#8

/-- The well-formed instructions. -/
def Instr.wellFormed : Instr → Bool
  | .active => true
  | .inactive => true
  | .pause => true
  | .malformed c => isMalformedCode c
  | .build => true
  | .generate => true
  | .debruijn => true
  | .reservedCmd c => isReservedCode c
  | .encode _ map => map.isFunction

end Sys2Proof
end

