-- ==== Sys2Proof/Decode.lean ====
section
/-! DEFINITION. Decoding of SYM cells and of command codes (30_encoding.md R70 to R77), and the encoder. Both formats
are one byte, every byte decodes to something in each, and the byte alone does not say which format it is in: the
place it is fetched from does (a SYM cell, or CMD). -/

namespace Sys2Proof

/-- R72: `decode(c) = ACTIVE if c = 0x31; INACTIVE if c = 0x30; PAUSE if c = 0x70; MALFORMED(c) otherwise`. -/
def decodeSymbol (c : Byte) : Symbol :=
  if c = 0x31#8 then .active
  else if c = 0x30#8 then .inactive
  else if c = 0x70#8 then .pause
  else .malformed c

/-- R76, R77: the three command codes; every other code is reserved. -/
def decodeCommand (c : Byte) : Command :=
  if c = 0x01#8 then .build
  else if c = 0x02#8 then .generate
  else if c = 0x03#8 then .debruijn
  else .reserved c

/-- The instruction a byte stands for in a format. -/
def decodeByte : Format → Byte → Instr
  | .sym8, c => (decodeSymbol c).toInstr
  | .cmd8, c => (decodeCommand c).toInstr

/-- The first instruction of a byte string and the rest of the string; every instruction with a code is one byte long
(R74), so only the empty string gives none. -/
def decode (f : Format) : List Byte → Option (Instr × List Byte)
  | [] => none
  | c :: rest => some (decodeByte f c, rest)

/-- The words of an instruction: its one code byte (R70, R76); ENCODE has none (R84). -/
def encode : Instr → List Byte
  | .active => [0x31#8]
  | .inactive => [0x30#8]
  | .pause => [0x70#8]
  | .malformed c => [c]
  | .build => [0x01#8]
  | .generate => [0x02#8]
  | .debruijn => [0x03#8]
  | .reservedCmd c => [c]
  | .encode _ _ => []

/-- The format in which a byte with no place is read: the fixed rows of the opcode table are tested first (R84), so the
three command codes are commands, and every other byte is read as a symbol. DESIGN CHOICE (log 11): the table's two
complement rows MALFORMED and RESERVED_CMD both match such a byte. -/
def tableFormat (c : Byte) : Format :=
  if isReservedCode c then .sym8 else .cmd8

/-- The byte of a table word of `nbits` bits: the table's rows with a code are one byte. -/
def tableByte (nbits w : Nat) : Option Byte :=
  if nbits = 8 ∧ w < 256 then some (BitVec.ofNat 8 w) else none

/-- The instruction the decoder reads from a table word; none where the word is not one byte. -/
def decodeTableWord (nbits w : Nat) : Option Instr :=
  match tableByte nbits w with
  | some c => (decode (tableFormat c) [c]).map Prod.fst
  | none => none

end Sys2Proof
end

