-- ==== Sys2Proof/Machine/Waveform.lean ====
section
/-! DEFINITION. The four symbols and GENERATE (42_waveform.md R120 to R136). -/

namespace Sys2Proof.Machine

/-- ACTIVE (R122): append SE entries of LUT from the running phase, `CTR <- CTR + SE`, `SPC <- SPC + 1`. Outside
GENERATE's preconditions an operand may hold no value; then the command fails as R41 says (log 13). -/
def execActive (s : State) : Out :=
  match s.symEntries, s.tableLen with
  | some se, some l =>
    match s.activeEntries se l with
    | some vs => .next ((s.appendOut vs).advance se)
    | none => .fault .lutCellHoldsNoValue
  | _, _ => .next s.raiseInvalidParameter

/-- INACTIVE (R123): append SE zeros, `CTR <- CTR + SE`, `SPC <- SPC + 1`. -/
def execInactive (s : State) : Out :=
  match s.symEntries with
  | some se => .next ((s.appendOut (silence se)).advance se)
  | none => .next s.raiseInvalidParameter

/-- PAUSE (R124): append PE zeros, `CTR <- CTR + PE`, `SPC <- SPC + 1`. -/
def execPause (s : State) : Out :=
  match s.pauseEntries with
  | some pe => .next ((s.appendOut (silence pe)).advance pe)
  | none => .next s.raiseInvalidParameter

/-- MALFORMED (R125): report (SPC, c), append nothing, leave CTR, `SPC <- SPC + 1`; with CTRL.STRICT = 1 the report ends
GENERATE (R128). -/
def execMalformed (c : Byte) (s : State) : Out :=
  if s.strict then .next (s.reportMalformed c).strictAbort
  else .next ((s.reportMalformed c).advance 0)

/-- The symbol step R121 on a decoded symbol. -/
def symbolStep (x : Symbol) (s : State) : Out :=
  match x with
  | .active => execActive s
  | .inactive => execInactive s
  | .pause => execPause s
  | .malformed c => execMalformed c s

/-- The start of GENERATE after its preconditions (R120, R192): `CTR <- 0; SPC <- 0`, OUT and EVT emptied. -/
def State.beginGenerate (s : State) : State :=
  { s with
    ctr := 0
    spc := 0
    out := []
    outLen := 0
    evt := []
    evtCount := 0
    status := s.status.setMalformed false
    engine := .generating }

/-- The end of GENERATE (R120): `STATUS.OUT_VALID <- 1; STATUS.DONE <- 1; STATUS.ERR <- 0`. -/
def State.finishGenerate (s : State) : State :=
  { s with status := (s.status.setOutValid true).succeed, engine := .idle }

/-- The loop of GENERATE (R120) over the `remaining` symbols from SPC on; a symbol that ends the command ends the loop.
A SYM cell that holds no value refuses the command (R59). -/
def generateLoop : (remaining : Nat) → State → Out
  | 0, s => .next s.finishGenerate
  | remaining + 1, s =>
    match s.sym.read s.spc with
    | none => .refused .cellHoldsNoValue
    | some c =>
      andThen (symbolStep (decodeSymbol c) s)
        (fun s' => if s'.engine = .generating then generateLoop remaining s' else .next s')

/-- GENERATE (R120): one atomic transition (R16). InvalidParameter if LUT_VALID = 0 or if SYMBOL_LEN, PAUSE_LEN or
SYM_COUNT holds no value; otherwise the symbols SYM[0 .. SYM_COUNT) in order. -/
def execGenerate (s : State) : Out :=
  if s.status.lutValid then
    match s.symbolLen, s.pauseLen, s.symCount with
    | some _, some _, some count => generateLoop count s.beginGenerate
    | _, _, _ => .next s.raiseInvalidParameter
  else .next s.raiseInvalidParameter

end Sys2Proof.Machine
end

