-- ==== Sys2Proof/Machine/Dispatch.lean ====
section
/-! DEFINITION. exec: one arm per constructor of Instr, one direct call of its meaning each. -/

namespace Sys2Proof.Machine

def exec (i : Instr) (s : State) : Host.Outcome State Fault Refusal :=
  match i with
  | .active => Sys2Proof.Machine.execActive s
  | .inactive => Sys2Proof.Machine.execInactive s
  | .pause => Sys2Proof.Machine.execPause s
  | .malformed c => Sys2Proof.Machine.execMalformed c s
  | .build => Sys2Proof.Machine.execBuild s
  | .generate => Sys2Proof.Machine.execGenerate s
  | .debruijn => Sys2Proof.Machine.execDebruijn s
  | .reservedCmd c => Sys2Proof.Machine.execReservedCmd c s
  | .encode msg map => Sys2Proof.Machine.execEncode msg map s

end Sys2Proof.Machine
end

