-- ==== Sys2Proof/Machine/HostPort.lean ====
section
/-! DEFINITION. The host's access to registers and cells (10_state.md R24, 60_exceptions.md R181, R184, R190); reads have
no side effect on OOKGEN (20_memory.md R58). -/

namespace Sys2Proof.Machine

/-- A number as the content of an unsigned register of `w` bits; `none` where it does not fit (U11). -/
def asBits (w : Nat) (v : Int) : Option (BitVec w) :=
  if 0 ≤ v ∧ v < 2 ^ w then some (BitVec.ofInt w v) else none

/-- A number as the content of a register that is unbounded in the model; `none` where it is negative (U11). -/
def asCount (v : Int) : Option Nat := if 0 ≤ v then some v.toNat else none

/-- Store what fits, refuse what does not (U11). -/
def storeOr {α : Type} (v : Option α) (store : α → State) : Out :=
  match v with
  | some a => .next (store a)
  | none => .refused .valueOutsideRegister

/-- CTRL.STRICT <- b: writes are ignored when HAS_STRICT = false (R27, U12). -/
def State.writeStrict (s : State) (b : Bool) : State :=
  { s with strict := if Config.hasStrict then b else s.strict }

/-- What a host write of `v` stores in a register (R24): the read-only registers ignore it (U12). A code stored in CMD
then runs (R38, Machine/Fetch.lean). -/
def hostWriteReg (r : Reg) (v : Int) (s : State) : Out :=
  match r with
  | .cmd => storeOr (asBits 8 v) (fun c => { s with cmd := some c })
  | .status => .next s
  | .ctrl => storeOr (asBits 1 v) (fun b => s.writeStrict (b.getLsbD 0))
  | .fs => storeOr (asBits 32 v) (fun w => { s with fs := some w })
  | .fc => storeOr (asBits 32 v) (fun w => { s with fc := some w })
  | .amp => storeOr (asBits 7 v) (fun w => { s with amp := some w })
  | .symbolLen => storeOr (asBits 32 v) (fun w => { s with symbolLen := some w })
  | .pauseLen => storeOr (asBits 32 v) (fun w => { s with pauseLen := some w })
  | .symCount => storeOr (asCount v) (fun n => { s with symCount := some n })
  | .nPairs => .next s
  | .outLen => .next s
  | .evtCount => .next s
  | .dbK => storeOr (asCount v) (fun n => { s with dbK := some n })
  | .dbN => storeOr (asCount v) (fun n => { s with dbN := some n })
  | .seqLen => .next s

/-- The number a host read of a register gives (R24); `none` for CMD and for a register that holds no value (R41). -/
def regValue (r : Reg) (s : State) : Option Nat :=
  match r with
  | .cmd => none
  | .status => some s.status.toWord.toNat
  | .ctrl => some s.strict.toNat
  | .fs => s.fs.map BitVec.toNat
  | .fc => s.fc.map BitVec.toNat
  | .amp => s.amp.map BitVec.toNat
  | .symbolLen => s.symbolLen.map BitVec.toNat
  | .pauseLen => s.pauseLen.map BitVec.toNat
  | .symCount => s.symCount
  | .nPairs => s.nPairs
  | .outLen => some s.outLen
  | .evtCount => some s.evtCount
  | .dbK => s.dbK
  | .dbN => s.dbN
  | .seqLen => some s.seqLen

/-- What a host read of a cell gives: LUT below TABLE_LEN when LUT_VALID = 1, OUT below OUT_LEN, EVT below EVT_COUNT, SEQ
below SEQ_LEN (R181). -/
def cellValue (sp : OutputSpace) (i : Nat) (s : State) : Option HostValue :=
  match sp with
  | .lut =>
    match s.status.lutValid, s.tableLen with
    | true, some l => ((s.lut.below l).read i).map .cell
    | _, _ => none
  | .out => ((s.out.below s.outLen).read i).map .cell
  | .evt => ((s.evt.below s.evtCount).read i).map .event
  | .seq => ((s.seq.below s.seqLen).read i).map .cell

/-- The host has the value it read; nothing of OOKGEN changes (R58). -/
def State.hostHas (s : State) (v : HostValue) : State := { s with host := { s.host with lastRead := some v } }

/-- A host read of a register (R24). Of a register that holds no value, or of CMD, it "has no meaning and the model refuses
it" (R41, U7, D20): the registers at issue are those whose reset value the spec states as none (R42). -/
def hostReadReg (r : Reg) (s : State) : Out :=
  match regValue r s with
  | some n => .next (s.hostHas (.number n))
  | none => .refused .registerHoldsNoValue

/-- A host read of a cell (R181); refused at or above the length register and of LUT without a table (R41, U7). -/
def hostReadCell (sp : OutputSpace) (i : Nat) (s : State) : Out :=
  match cellValue sp i s with
  | some v => .next (s.hostHas v)
  | none => .refused .cellNotReadable

/-- The host stores a character code in a cell of SYM or ALPHA (R32, R35); a code of more than SYM_W bits cannot be
stored (U8). -/
def hostWriteCell (sp : InputSpace) (i c : Nat) (s : State) : Out :=
  if c < 256 then
    match sp with
    | .sym => .next { s with sym := s.sym.write i [BitVec.ofNat 8 c] }
    | .alpha => .next { s with alpha := s.alpha.write i [BitVec.ofNat 8 c] }
  else .refused .characterTooWide

/-- Reset (R190): OOKGEN is in its reset state; the host keeps what is its own (log 20). -/
def State.afterReset (s : State) : State := { State.reset with host := s.host }

end Sys2Proof.Machine
end

