-- ==== Sys2Proof/Machine/Fetch.lean ====
section
/-! DEFINITION. Where the next instruction comes from: a SYM cell at SPC inside GENERATE (42_waveform.md R120), the code
in CMD (10_state.md R38), or the host's next action (60_exceptions.md R181). -/

namespace Sys2Proof.Machine

/-- The instruction of a SYM cell or of a command code. -/
def fetched (f : Format) (c : Byte) : Instr := decodeByte f c

/-- Run the command whose code stands in CMD; CMD "holds no value afterwards" (R38). -/
def runCommand (s : State) : Out :=
  match s.cmd with
  | some c => exec (fetched .cmd8 c) { s with cmd := none }
  | none => .next s

/-- One turn of GENERATE's loop (R120): execute the symbol at SPC, or end the command when SPC = SYM_COUNT. -/
def symbolFetch (s : State) : Out :=
  match s.symCount with
  | some count =>
    if s.spc < count then
      match s.sym.read s.spc with
      | some c => exec (fetched .sym8 c) s
      | none => .refused .cellHoldsNoValue
    else .next s.finishGenerate
  | none => .next s.raiseInvalidParameter

/-- A host write to a register (R24); a write of CMD runs the command to completion in the same transition (R38). -/
def hostWrite (r : Reg) (v : Int) (s : State) : Out :=
  if r = .cmd then andThen (hostWriteReg .cmd v s) runCommand else hostWriteReg r v s

/-- The host applies ENCODE; a list that gives a key twice is no mapping (R114). -/
def hostEncode (msg : List Byte) (map : Mapping) (s : State) : Out :=
  if map.isFunction then exec (.encode msg map) s else .refused .mappingNotAFunction

/-- One action of the host (R181, R190, R5). -/
def hostStep (a : HostAction) (s : State) : Out :=
  match a with
  | .writeReg r v => hostWrite r v s
  | .readReg r => hostReadReg r s
  | .writeCell sp i c => hostWriteCell sp i c s
  | .readCell sp i => hostReadCell sp i s
  | .encode msg map => hostEncode msg map s
  | .reset => .next s.afterReset

/-- The host's oldest action is taken. -/
def State.withPending (s : State) (rest : List HostAction) : State :=
  { s with host := { s.host with pending := rest } }

/-- A step outside every command: a code in CMD runs; else the host's oldest action is taken; else OOKGEN "waits for the
host; it fetches nothing and executes nothing on its own" (70_reset_and_hazards.md R190). -/
def idleStep (s : State) : Out :=
  match s.cmd with
  | some _ => runCommand s
  | none =>
    match s.host.pending with
    | [] => .next s
    | a :: rest => hostStep a (s.withPending rest)

/-- `s` with the byte `c` where the next step fetches: a command code in CMD, a symbol in the SYM cell at SPC inside
GENERATE. -/
def State.withFetchByte (s : State) (f : Format) (c : Byte) : State :=
  match f with
  | .cmd8 => { s with cmd := some c, engine := .idle }
  | .sym8 => { s with sym := s.sym.write s.spc [c], symCount := some (s.spc + 1), engine := .generating }

end Sys2Proof.Machine
end

