-- ==== Sys2Proof/Machine/Step.lean ====
section
/-! DEFINITION. The step of the machine, and the placing of an instruction where the step fetches its next one. -/

namespace Sys2Proof.Machine

/-- One step. Between commands (`idle`) it is one transition of the interface, a whole command being one transition
(00_scope.md R16). In a state inside GENERATE or DEBRUIJN it is one inner step of that command (R17): a symbol (R121), or
a turn of the stack loop (R149). -/
def step (s : State) : Host.Outcome State Fault Refusal :=
  match s.engine with
  | .idle => idleStep s
  | .generating => symbolFetch s
  | .covering => coveringStep s

/-- `s` with a table word where the next step fetches it; unchanged where the word is not one byte. -/
def State.withFetchWord (s : State) (nbits w : Nat) : State :=
  match tableByte nbits w with
  | some c => s.withFetchByte (tableFormat c) c
  | none => s

end Sys2Proof.Machine
end

