-- ==== Sys2Proof/Safety.lean ====
section
/-! DEFINITION. The words the claims are stated in: the invariant of the machine (10_state.md R43 and the rules it
rests on), the real rounding of 00_scope.md R11, and the closed form of a waveform (42_waveform.md R130). No definition
of the machine uses any of them. -/

namespace Sys2Proof.Machine

/-- Every cell below `n` holds a value with property `ok`. -/
def Memory.Filled {α : Type} (m : Memory α) (n : Nat) (ok : α → Prop) : Prop :=
  ∀ i < n, ∃ v, m.read i = some v ∧ ok v

/-- A sample entry in -AMP_MAX to +AMP_MAX (R78): every 8-bit pattern but 0x80. -/
def isSample (c : Byte) : Prop := -127 ≤ c.toInt ∧ c.toInt ≤ 127

/-- The invariant: what holds at reset and after every step, and between the inner steps of a command. -/
structure State.Inv (s : State) : Prop where
  /-- Every index space is in its canonical form. -/
  lut_wf : s.lut.wf
  sym_wf : s.sym.wf
  out_wf : s.out.wf
  evt_wf : s.evt.wf
  alpha_wf : s.alpha.wf
  seq_wf : s.seq.wf
  /-- R43 (a): a valid table has at least two pairs, and all its cells are samples. -/
  table : s.status.lutValid = true → ∃ n, s.nPairs = some n ∧ 2 ≤ n ∧ s.lut.Filled (2 * n) isSample
  /-- R43 (b). -/
  out_even : s.outLen % 2 = 0
  /-- OUT holds OUT_LEN samples (R33). -/
  out_samples : s.out.Filled s.outLen isSample
  /-- R43 (d), R39. -/
  malformed_iff : s.status.malformed = true ↔ 0 < s.evtCount
  /-- EVT holds EVT_COUNT records, each of a malformed code (R34, R163). -/
  evt_records : s.evt.Filled s.evtCount (fun r => isMalformedCode r.symc = true)
  /-- R43 (e): strictly increasing POS. -/
  evt_rising : ∀ e e' r r', e < e' → e' < s.evtCount → s.evt.read e = some r → s.evt.read e' = some r' → r.pos < r'.pos
  /-- SEQ holds SEQ_LEN symbols (R36). -/
  seq_symbols : s.seq.Filled s.seqLen (fun _ => True)
  /-- R25: DONE = 1 implies ERR = 0. -/
  done_err : s.status.done = true → s.status.err = .none
  /-- R161: code 3 is never set by OOKGEN. -/
  no_device_error : s.status.err ≠ .deviceError
  /-- R27: CTRL.STRICT is hardwired 0 when HAS_STRICT = false. -/
  strict_absent : Config.hasStrict = false → s.strict = false
  /-- Inside GENERATE (R120, R127, R23): the preconditions held, CTR = OUT_LEN, and the reports are of symbols before SPC. -/
  generating : s.engine = .generating →
    s.status.lutValid = true ∧ s.symbolLen.isSome ∧ s.pauseLen.isSome ∧ s.symCount.isSome ∧ s.ctr = s.outLen ∧
      ∀ e r, e < s.evtCount → s.evt.read e = some r → r.pos < s.spc
  /-- Inside DEBRUIJN (R141): DB_K and DB_N hold values. -/
  covering : s.engine = .covering → s.dbK.isSome ∧ s.dbN.isSome

/-- `round_he(x)` of a real number (00_scope.md R11): the nearest integer, the even one at a tie. -/
noncomputable def roundHe (x : ℝ) : ℤ :=
  if Int.fract x < 1 / 2 then ⌊x⌋
  else if 1 / 2 < Int.fract x then ⌊x⌋ + 1
  else if Even ⌊x⌋ then ⌊x⌋
  else ⌊x⌋ + 1

/-- The angle t_i = 2π·i·FC/FS + π/2 of table entry i (R93). -/
noncomputable def entryAngle (fs fc i : Nat) : ℝ := 2 * Real.pi * i * fc / fs + Real.pi / 2

/-- Whether the carrier is on, entry by entry, under a string of symbols (R130): SE entries on for '1', SE off for '0',
PE off for 'p', none for any other character. -/
def gate (se pe : Nat) : List Byte → List Bool
  | [] => []
  | c :: cs =>
    (match decodeSymbol c with
      | .active => List.replicate se true
      | .inactive => List.replicate se false
      | .pause => List.replicate pe false
      | .malformed _ => []) ++ gate se pe cs

/-- The reports of a string of symbols whose first one stands at position `pos` (R174): one for each malformed
character, in order of position. -/
def reports : (pos : Nat) → List Byte → List EventRecord
  | _, [] => []
  | pos, c :: cs =>
    match decodeSymbol c with
    | .malformed x => { pos := pos, symc := x } :: reports (pos + 1) cs
    | .active => reports (pos + 1) cs
    | .inactive => reports (pos + 1) cs
    | .pause => reports (pos + 1) cs

/-- SYM[0 .. |cs|) holds the string `cs`. -/
def State.holdsSymbols (s : State) (cs : List Byte) : Prop :=
  s.symCount = some cs.length ∧ ∀ i < cs.length, s.sym.read i = cs[i]?

/-- The operands with which BUILD succeeds (R91): all three hold values, FC ≥ 1 and 2·FC ≤ FS. -/
def State.ReadyToBuild (s : State) (fs fc : Word) (amp : Amplitude) : Prop :=
  s.fs = some fs ∧ s.fc = some fc ∧ s.amp = some amp ∧ 1 ≤ fc.toNat ∧ 2 * fc.toNat ≤ fs.toNat

/-- What GENERATE needs to execute (R120): a valid table of `n` > 0 pairs in LUT, durations `sl` and `pl`, and the string
`cs` in SYM. -/
structure State.ReadyToGenerate (s : State) (n : Nat) (sl pl : Word) (cs : List Byte) : Prop where
  valid : s.status.lutValid = true
  pairs : s.nPairs = some n
  pairs_pos : 0 < n
  table : s.lut.Filled (2 * n) (fun _ => True)
  symbolLen : s.symbolLen = some sl
  pauseLen : s.pauseLen = some pl
  symbols : s.holdsSymbols cs

/-- What DEBRUIJN needs to execute (R140, R141): k ≥ 1 alphabet symbols in ALPHA, word length n ≥ 1. -/
structure State.ReadyToCover (s : State) (k n : Nat) : Prop where
  alphabetSize : s.dbK = some k
  wordLength : s.dbN = some n
  size_pos : 1 ≤ k
  length_pos : 1 ≤ n
  alphabet : s.alpha.Filled k (fun _ => True)

/-- The cyclic window of length `n` that starts at place `x` of a sequence (R146). -/
def cyclicWindow {α : Type} (xs : List α) (n x : Nat) : List (Option α) :=
  (List.range n).map (fun y => xs[(x + y) % xs.length]?)

/-- `n` inner steps of a command (R17): steps of the machine that stop when the command has ended. -/
def innerSteps : Nat → State → Out
  | 0, s => .next s
  | n + 1, s => if s.engine = .idle then .next s else andThen (step s) (innerSteps n)

/-- The host's next action is `a`, with `rest` to come. -/
def State.hostNext (s : State) (a : HostAction) (rest : List HostAction) : Prop :=
  s.engine = .idle ∧ s.cmd = none ∧ s.host.pending = a :: rest

/-- Whether the next step runs the command with code `c`: it stands in CMD, or the host's next action writes it there. -/
def State.runsCommand (s : State) (c : Byte) : Prop :=
  s.engine = .idle ∧
    (s.cmd = some c ∨ (s.cmd = none ∧ ∃ rest, s.host.pending = .writeReg .cmd c.toNat :: rest))

/-- Whether the next step is a reset. -/
def State.isReset (s : State) : Prop :=
  s.engine = .idle ∧ s.cmd = none ∧ ∃ rest, s.host.pending = .reset :: rest

end Sys2Proof.Machine
end

