-- ==== Sys2Proof/Certificates/Slice0/Obligations.lean ====
section
/-! DEFINITION. The statements for the provers. Each docstring names the rule of spec/ it is about; a clause that is the
model's own choice names its log entry. -/

open Sys2Proof Sys2Proof.Machine

/-! ### Reset, step, decoding -/

/-- R42: what reset leaves, and that OOKGEN then does nothing while the host does nothing. (CTR, SPC, the work array and
the stack are not mentioned: the spec gives them no reset value, log 2 and log 3.) -/
def Obligations.ResetLeavesNoOperandAndNoResult : Prop :=
  State.reset.status.toWord = 0#7 ∧ State.reset.strict = false ∧ State.reset.cmd = none ∧
  State.reset.fs = none ∧ State.reset.fc = none ∧ State.reset.amp = none ∧
  State.reset.symbolLen = none ∧ State.reset.pauseLen = none ∧ State.reset.symCount = none ∧
  State.reset.dbK = none ∧ State.reset.dbN = none ∧ State.reset.nPairs = none ∧
  State.reset.outLen = 0 ∧ State.reset.evtCount = 0 ∧ State.reset.seqLen = 0 ∧
  (∀ i, State.reset.lut.read i = none ∧ State.reset.sym.read i = none ∧ State.reset.out.read i = none ∧
    State.reset.evt.read i = none ∧ State.reset.alpha.read i = none ∧ State.reset.seq.read i = none) ∧
  step State.reset = .next State.reset

/-- R43: the invariant holds at reset. -/
def Obligations.ResetMeetsInvariant : Prop := State.reset.Inv

/-- R38, R76: a code in CMD runs as the command it decodes to, and CMD then holds no value. -/
def Obligations.StepRunsCommandInCmd : Prop :=
  ∀ (s : State) (c : Byte), s.engine = .idle → s.cmd = some c →
    step s = exec (decodeByte .cmd8 c) { s with cmd := none }

/-- R38: a host write of a code to CMD runs the command in the same transition. -/
def Obligations.StepRunsCommandTheHostWrites : Prop :=
  ∀ (s : State) (c : Byte) (rest : List HostAction), s.hostNext (.writeReg .cmd c.toNat) rest →
    step s = exec (decodeByte .cmd8 c) (s.withPending rest)

/-- R120: inside GENERATE the step executes the symbol at SPC. -/
def Obligations.StepRunsSymbolAtSpc : Prop :=
  ∀ (s : State) (c : Byte) (count : Nat), s.engine = .generating → s.symCount = some count → s.spc < count →
    s.sym.read s.spc = some c → step s = exec (decodeByte .sym8 c) s

/-- R5, R110: an ENCODE of the host runs as the instruction (the host's actions: log 6). -/
def Obligations.StepRunsEncodeTheHostAsksFor : Prop :=
  ∀ (s : State) (msg : List Byte) (map : Mapping) (rest : List HostAction), s.hostNext (.encode msg map) rest →
    (Instr.encode msg map).wellFormed = true →
    step s = exec (.encode msg map) (s.withPending rest)

/-- The codes of R70 and R76, from the spec's tables. -/
def Obligations.TableCodesDecode : Prop :=
  decodeByte .sym8 0x31#8 = .active ∧ decodeByte .sym8 0x30#8 = .inactive ∧ decodeByte .sym8 0x70#8 = .pause ∧
  decodeByte .sym8 0x50#8 = .malformed 0x50#8 ∧ decodeByte .sym8 0x00#8 = .malformed 0x00#8 ∧
  decodeByte .cmd8 0x01#8 = .build ∧ decodeByte .cmd8 0x02#8 = .generate ∧ decodeByte .cmd8 0x03#8 = .debruijn ∧
  decodeByte .cmd8 0x00#8 = .reservedCmd 0x00#8 ∧ decodeByte .cmd8 0x04#8 = .reservedCmd 0x04#8

/-- R72, on the cell value alone. -/
def Obligations.SymbolDecodeIsTotal : Prop :=
  ∀ c : Byte, decodeSymbol c =
    if c = 0x31#8 then .active else if c = 0x30#8 then .inactive else if c = 0x70#8 then .pause else .malformed c

/-- Decoding the words of a well-formed instruction gives it back, with whatever follows. -/
def Obligations.DecodeOfEncodeIsTheInstruction : Prop :=
  ∀ (i : Instr) (f : Format) (rest : List Byte), i.wellFormed = true → i.format = some f →
    decode f (encode i ++ rest) = some (i, rest)

/-- Every byte of either format is the code of exactly the well-formed instruction it decodes to (R73, R77: no code is
left over, and no complement row takes a fixed row's code). -/
def Obligations.EncodeOfDecodeIsTheByte : Prop :=
  ∀ (f : Format) (c : Byte), (decodeByte f c).wellFormed = true ∧ (decodeByte f c).format = some f ∧
    encode (decodeByte f c) = [c] ∧
    ∀ i : Instr, i.wellFormed = true → i.format = some f → encode i = [c] → i = decodeByte f c

/-- R77: a reserved code is refused, as an instruction and where the host writes it to CMD; and, as CMD is the model's
place for a code to run (log 5), where a step starts with one in CMD. -/
def Obligations.ReservedCommandIsRefused : Prop :=
  (∀ (s : State) (c : Byte), exec (.reservedCmd c) s = .refused (.reservedCommand c)) ∧
  ∀ (s : State) (c : Byte), c = 0x00#8 ∨ 0x04#8 ≤ c →
    (s.engine = .idle → s.cmd = some c → step s = .refused (.reservedCommand c)) ∧
    ∀ rest, s.hostNext (.writeReg .cmd c.toNat) rest → step s = .refused (.reservedCommand c)

/-! ### BUILD -/

/-- R91, R99, R164: a BUILD that fails changes STATUS.DONE and STATUS.ERR, and nothing else. -/
def Obligations.BuildFailureChangesOnlyStatus : Prop :=
  ∀ s : State, s.engine = .idle →
    (s.fs = none ∨ s.fc = none ∨ s.amp = none ∨
      ∃ fs fc, s.fs = some fs ∧ s.fc = some fc ∧ (fc.toNat = 0 ∨ fs.toNat < 2 * fc.toNat)) →
    exec .build s = .next { s with status := { s.status with done := false, err := .invalidParameter } }

/-- R98: a successful BUILD writes 2·N cells, I before Q, N_PAIRS and STATUS, and nothing else; the cells above keep what
they held and the host cannot reach them. -/
def Obligations.BuildWritesTableAndStatus : Prop :=
  ∀ (s : State) (fs fc : Word) (amp : Amplitude), s.ReadyToBuild fs fc amp →
    ∃ t, exec .build s = .next t ∧
      (∀ i < pairCount fs.toNat fc.toNat,
        t.lut.read (2 * i) = some (sampleCell (carrierI fs.toNat fc.toNat amp.toNat i)) ∧
        t.lut.read (2 * i + 1) = some (sampleCell (carrierQ fs.toNat fc.toNat amp.toNat i))) ∧
      (∀ a, 2 * pairCount fs.toNat fc.toNat ≤ a → t.lut.read a = s.lut.read a ∧ cellValue .lut a t = none) ∧
      t = { s with
            lut := t.lut
            nPairs := some (pairCount fs.toNat fc.toNat)
            status := { s.status with lutValid := true, done := true, err := .none } }

/-- R92, R93, R94: the table of a successful BUILD is the exact one: N_PAIRS = round_he(FS/FC), and each cell is round_he
of the real component it stands for. -/
def Obligations.BuildTableIsExact : Prop :=
  ∀ (s : State) (fs fc : Word) (amp : Amplitude), s.ReadyToBuild fs fc amp →
    ∃ t n, exec .build s = .next t ∧ t.nPairs = some n ∧
      (n : ℤ) = roundHe ((fs.toNat : ℝ) / fc.toNat) ∧
      ∀ i < n,
        t.lut.read (2 * i) =
          some (BitVec.ofInt 8 (roundHe (amp.toNat * Real.cos (entryAngle fs.toNat fc.toNat i)))) ∧
        t.lut.read (2 * i + 1) =
          some (BitVec.ofInt 8 (roundHe (-amp.toNat * Real.sin (entryAngle fs.toNat fc.toNat i))))

/-- R97: every cell of the table lies in -AMP to +AMP, and the pattern of -128 never occurs. -/
def Obligations.TableEntriesLieWithinAmplitude : Prop :=
  ∀ (s : State) (fs fc : Word) (amp : Amplitude), s.ReadyToBuild fs fc amp →
    ∃ t n, exec .build s = .next t ∧ t.nPairs = some n ∧
      ∀ a < 2 * n, ∃ c, t.lut.read a = some c ∧ -(amp.toNat : ℤ) ≤ c.toInt ∧ c.toInt ≤ amp.toNat ∧ c ≠ 0x80#8

/-- R95: the first pair is (0, -AMP), whatever FS and FC. -/
def Obligations.TableStartsAtMinusAmplitude : Prop :=
  ∀ (s : State) (fs fc : Word) (amp : Amplitude), s.ReadyToBuild fs fc amp →
    ∃ t, exec .build s = .next t ∧ t.lut.read 0 = some 0#8 ∧
      t.lut.read 1 = some (BitVec.ofInt 8 (-(amp.toNat : ℤ)))

/-- R104: N_PAIRS is at least 2, is 2 exactly up to the ratio 5/2, is at most FS, and is FS at FC = 1. -/
def Obligations.PairCountIsAtLeastTwo : Prop :=
  ∀ (s : State) (fs fc : Word) (amp : Amplitude), s.ReadyToBuild fs fc amp →
    ∃ t n, exec .build s = .next t ∧ t.nPairs = some n ∧ 2 ≤ n ∧ 4 ≤ 2 * n ∧
      (n = 2 ↔ 2 * fs.toNat ≤ 5 * fc.toNat) ∧ n ≤ fs.toNat ∧ (fc.toNat = 1 → n = fs.toNat)

/-- R105 (a): entries half a turn apart are each other's negatives. -/
def Obligations.HalfTurnNegatesEntries : Prop :=
  ∀ FS FC A i j : Nat, 0 < FS → (2 * (j * FC)) % (2 * FS) = FS →
    carrierI FS FC A (i + j) = -carrierI FS FC A i ∧ carrierQ FS FC A (i + j) = -carrierQ FS FC A i

/-! ### The symbols -/

/-- R122: what ACTIVE appends, where, and what it leaves; its code. -/
def Obligations.ActiveAppendsCarrier : Prop :=
  decodeByte .sym8 0x31#8 = .active ∧
  ∀ (s : State) (sl : Word) (n : Nat), s.symbolLen = some sl → s.nPairs = some n → 0 < n →
    s.lut.Filled (2 * n) (fun _ => True) →
    ∃ t, exec .active s = .next t ∧
      (∀ i < 2 * sl.toNat, t.out.read (s.outLen + i) = s.lut.read ((i + s.ctr) % (2 * n))) ∧
      (∀ a, a < s.outLen ∨ s.outLen + 2 * sl.toNat ≤ a → t.out.read a = s.out.read a) ∧
      t = { s with
            out := t.out
            outLen := s.outLen + 2 * sl.toNat
            ctr := s.ctr + 2 * sl.toNat
            spc := s.spc + 1 }

/-- R123: what INACTIVE appends, where, and what it leaves; its code. -/
def Obligations.InactiveAppendsSilence : Prop :=
  decodeByte .sym8 0x30#8 = .inactive ∧
  ∀ (s : State) (sl : Word), s.symbolLen = some sl →
    ∃ t, exec .inactive s = .next t ∧
      (∀ i < 2 * sl.toNat, t.out.read (s.outLen + i) = some 0#8) ∧
      (∀ a, a < s.outLen ∨ s.outLen + 2 * sl.toNat ≤ a → t.out.read a = s.out.read a) ∧
      t = { s with
            out := t.out
            outLen := s.outLen + 2 * sl.toNat
            ctr := s.ctr + 2 * sl.toNat
            spc := s.spc + 1 }

/-- R124: what PAUSE appends, where, and what it leaves; its code. -/
def Obligations.PauseAppendsSilence : Prop :=
  decodeByte .sym8 0x70#8 = .pause ∧
  ∀ (s : State) (pl : Word), s.pauseLen = some pl →
    ∃ t, exec .pause s = .next t ∧
      (∀ i < 2 * pl.toNat, t.out.read (s.outLen + i) = some 0#8) ∧
      (∀ a, a < s.outLen ∨ s.outLen + 2 * pl.toNat ≤ a → t.out.read a = s.out.read a) ∧
      t = { s with
            out := t.out
            outLen := s.outLen + 2 * pl.toNat
            ctr := s.ctr + 2 * pl.toNat
            spc := s.spc + 1 }

/-- R125, R166: in permissive mode MALFORMED is reported, appends nothing and leaves CTR. -/
def Obligations.MalformedIsReported : Prop :=
  ∀ (s : State) (c : Byte), s.strict = false →
    ∃ t, exec (.malformed c) s = .next t ∧
      t.evt.read s.evtCount = some { pos := s.spc, symc := c } ∧
      (∀ a, a ≠ s.evtCount → t.evt.read a = s.evt.read a) ∧
      t = { s with
            evt := t.evt
            evtCount := s.evtCount + 1
            status := { s.status with malformed := true }
            spc := s.spc + 1 }

/-- R128, R173: with CTRL.STRICT = 1 the report ends GENERATE with no sample buffer. (That CTR and SPC stay where they
are, dead, is log 2.) -/
def Obligations.MalformedAbortsInStrictMode : Prop :=
  ∀ (s : State) (c : Byte), s.strict = true →
    ∃ t, exec (.malformed c) s = .next t ∧
      t.evt.read s.evtCount = some { pos := s.spc, symc := c } ∧
      (∀ a, a ≠ s.evtCount → t.evt.read a = s.evt.read a) ∧
      (∀ a, t.out.read a = none) ∧
      t = { s with
            evt := t.evt
            evtCount := s.evtCount + 1
            out := t.out
            outLen := 0
            status :=
              { s.status with malformed := true, outValid := false, done := false, err := .malformedSymbol }
            engine := .idle }

/-- R132: of CTR only CTR mod TABLE_LEN matters to an ACTIVE symbol. -/
def Obligations.ActiveReadsPhaseModuloTable : Prop :=
  ∀ (s : State) (se l i : Nat), (i + s.ctr) % l = (i + s.ctr % l) % l ∧
    s.activeEntries se l = { s with ctr := s.ctr % l }.activeEntries se l

/-! ### GENERATE -/

/-- R120, R162, R164: a GENERATE that fails its preconditions changes STATUS.DONE and STATUS.ERR, and nothing else. -/
def Obligations.GenerateFailureChangesOnlyStatus : Prop :=
  ∀ s : State, s.engine = .idle →
    (s.status.lutValid = false ∨ s.symbolLen = none ∨ s.pauseLen = none ∨ s.symCount = none) →
    exec .generate s = .next { s with status := { s.status with done := false, err := .invalidParameter } }

/-- R120 to R126, R130, R174: GENERATE on a ready state, in permissive mode or on a string with nothing to report. OUT is
the endlessly repeated table, gated by the symbols; EVT is the list of malformed symbols; nothing else changes but
STATUS, CTR and SPC. (That CTR and SPC, dead by then, keep the values of the last symbol is log 2.) -/
def Obligations.GenerateGatesTheRepeatedTable : Prop :=
  ∀ (s : State) (n : Nat) (sl pl : Word) (cs : List Byte), s.ReadyToGenerate n sl pl cs →
    (s.strict = false ∨ reports 0 cs = []) →
    ∃ t, exec .generate s = .next t ∧
      (∀ e, t.out.read e =
        match (gate (2 * sl.toNat) (2 * pl.toNat) cs)[e]? with
        | some true => s.lut.read (e % (2 * n))
        | some false => some 0#8
        | none => none) ∧
      (∀ e, t.evt.read e = (reports 0 cs)[e]?) ∧
      t = { s with
            out := t.out
            outLen := (gate (2 * sl.toNat) (2 * pl.toNat) cs).length
            evt := t.evt
            evtCount := (reports 0 cs).length
            status :=
              { s.status with
                malformed := decide (0 < (reports 0 cs).length)
                outValid := true
                done := true
                err := .none }
            ctr := (gate (2 * sl.toNat) (2 * pl.toNat) cs).length
            spc := cs.length
            engine := .idle }

/-- R128, R173: in strict mode the first malformed symbol ends GENERATE: one record, no samples, ERR = 2. -/
def Obligations.GenerateStopsAtFirstMalformedInStrictMode : Prop :=
  ∀ (s : State) (n : Nat) (sl pl : Word) (before after : List Byte) (c : Byte),
    s.ReadyToGenerate n sl pl (before ++ c :: after) → s.strict = true → reports 0 before = [] →
    isMalformedCode c = true →
    ∃ t, exec .generate s = .next t ∧
      (∀ e, t.out.read e = none) ∧
      t.evt.read 0 = some { pos := before.length, symc := c } ∧ (∀ e, 0 < e → t.evt.read e = none) ∧
      t = { s with
            out := t.out
            outLen := 0
            evt := t.evt
            evtCount := 1
            status :=
              { s.status with malformed := true, outValid := false, done := false, err := .malformedSymbol }
            ctr := t.ctr
            spc := t.spc
            engine := .idle }

/-- R134: the output length, counted by symbol class. -/
def Obligations.GenerateOutputLengthCountsSymbols : Prop :=
  ∀ (s : State) (n : Nat) (sl pl : Word) (cs : List Byte), s.ReadyToGenerate n sl pl cs →
    (s.strict = false ∨ reports 0 cs = []) →
    ∃ t, exec .generate s = .next t ∧
      t.outLen = 2 * sl.toNat * (cs.count 0x31#8 + cs.count 0x30#8) + 2 * pl.toNat * cs.count 0x70#8

/-- R135: the results of GENERATE are a function of SYM, SYMBOL_LEN, PAUSE_LEN, LUT, N_PAIRS and CTRL.STRICT: two ready
states that agree on these get the same OUT, EVT and STATUS results, whatever else they hold. -/
def Obligations.GenerateForgetsEarlierResults : Prop :=
  ∀ (s s' : State) (n : Nat) (sl pl : Word) (cs : List Byte), s.ReadyToGenerate n sl pl cs →
    s'.ReadyToGenerate n sl pl cs → s.strict = s'.strict → (∀ i < 2 * n, s.lut.read i = s'.lut.read i) →
    ∃ t t', exec .generate s = .next t ∧ exec .generate s' = .next t' ∧
      t.outLen = t'.outLen ∧ (∀ e, t.out.read e = t'.out.read e) ∧
      t.evtCount = t'.evtCount ∧ (∀ e, t.evt.read e = t'.evt.read e) ∧
      t.status.done = t'.status.done ∧ t.status.err = t'.status.err ∧
      t.status.malformed = t'.status.malformed ∧ t.status.outValid = t'.status.outValid

/-- R16, R17, R121: GENERATE as one transition is the run of its inner steps, whatever its outcome: one symbol per step,
and one step for the end. (That the inner steps are steps of the machine, from states whose engine field is not idle, is
log 4.) -/
def Obligations.GenerateIsTheRunOfItsSymbols : Prop :=
  ∀ (s : State) (sl pl : Word) (count : Nat), s.status.lutValid = true → s.symbolLen = some sl →
    s.pauseLen = some pl → s.symCount = some count →
    innerSteps (count + 1) s.beginGenerate = exec .generate s

/-- R54, R55, R129: in a state with the invariant inside GENERATE, a symbol starts at an even index of LUT and of OUT. -/
def Obligations.SymbolsStartOnPairs : Prop :=
  ∀ s : State, s.Inv → s.engine = .generating →
    ∃ n, s.nPairs = some n ∧ s.ctr % 2 = 0 ∧ s.outLen % 2 = 0 ∧ (s.ctr % (2 * n)) % 2 = 0

/-! ### DEBRUIJN -/

/-- R141, R155, R164: a DEBRUIJN that fails changes STATUS.DONE and STATUS.ERR, and nothing else. -/
def Obligations.DebruijnFailureChangesOnlyStatus : Prop :=
  ∀ s : State, s.engine = .idle → (s.dbK = none ∨ s.dbN = none ∨ s.dbK = some 0 ∨ s.dbN = some 0) →
    exec .debruijn s = .next { s with status := { s.status with done := false, err := .invalidParameter } }

/-- R140, R143, R144: DEBRUIJN on a ready state writes the index sequence of `db(1, 1)`, mapped through ALPHA, to SEQ,
and changes nothing else but STATUS and its work array (whose final content is dead, log 3). -/
def Obligations.DebruijnWritesMappedIndices : Prop :=
  ∀ (s : State) (k n : Nat), s.ReadyToCover k n →
    ∃ t, exec .debruijn s = .next t ∧
      (∀ x i, (coveringRun k n).indices[x]? = some i → i < k ∧ t.seq.read x = s.alpha.read i) ∧
      (∀ x, (coveringRun k n).indices.length ≤ x → t.seq.read x = none) ∧
      t = { s with
            seq := t.seq
            seqLen := (coveringRun k n).indices.length
            status := { s.status with seqValid := true, done := true, err := .none }
            workArray := t.workArray
            stack := []
            engine := .idle }

/-- R149: the stack form makes the same appends in the same order: run to its end, it leaves the same state. (That
the turns of its loop are steps of the machine is log 4; that the work array and the empty stack stay is log 3.) -/
def Obligations.DebruijnStackFormAgrees : Prop :=
  ∀ (s : State) (k n : Nat), s.ReadyToCover k n → ∃ m, innerSteps m (s.beginDebruijn n) = exec .debruijn s

/-- R37, R149: the stack never holds more than n + 1 frames. -/
def Obligations.DebruijnStackIsBounded : Prop :=
  ∀ (s t : State) (k n m : Nat), s.ReadyToCover k n → innerSteps m (s.beginDebruijn n) = .next t →
    t.stack.length ≤ n + 1

/-- R146 (a): the covering sequence has length k^n. -/
def Obligations.CoveringSequenceHasLengthKToN : Prop :=
  ∀ (s : State) (k n : Nat), s.ReadyToCover k n → ∃ t, exec .debruijn s = .next t ∧ t.seqLen = k ^ n

/-- R146 (b), (c): the cyclic windows of length n of the index sequence are pairwise distinct; and where the k symbols of
ALPHA are distinct, every word of length n over them stands exactly once among the cyclic windows of SEQ. -/
def Obligations.CoveringSequenceHoldsEveryWordOnce : Prop :=
  ∀ (s : State) (k n : Nat), s.ReadyToCover k n →
    (∀ x < (coveringRun k n).indices.length, ∀ y < (coveringRun k n).indices.length,
      cyclicWindow (coveringRun k n).indices n x = cyclicWindow (coveringRun k n).indices n y → x = y) ∧
    ((∀ i < k, ∀ j < k, s.alpha.read i = s.alpha.read j → i = j) →
      ∃ t, exec .debruijn s = .next t ∧
        ∀ w : List Byte, w.length = n → (∀ c ∈ w, ∃ i < k, s.alpha.read i = some c) →
          ∃! x, x < t.seqLen ∧ ∀ y < n, t.seq.read ((x + y) % t.seqLen) = w[y]?)

/-- R26, R142: at every inner step of DEBRUIJN, and at its end, the work array has n + 1 cells, each an index below k, and
a[0] is 0. -/
def Obligations.WorkArrayStaysInRange : Prop :=
  ∀ (s t : State) (k n m : Nat), s.ReadyToCover k n → innerSteps m (s.beginDebruijn n) = .next t →
    t.workArray.length = n + 1 ∧ workCell t.workArray 0 = 0 ∧ ∀ i ≤ n, workCell t.workArray i < k

/-- R151: over one symbol the sequence is that symbol, for every word length; for words of length 1 it is the alphabet in
order. -/
def Obligations.CoveringSequenceCornerCases : Prop :=
  (∀ (s : State) (n : Nat), s.ReadyToCover 1 n →
    ∃ t, exec .debruijn s = .next t ∧ t.seqLen = 1 ∧ t.seq.read 0 = s.alpha.read 0) ∧
  ∀ (s : State) (k : Nat), s.ReadyToCover k 1 →
    ∃ t, exec .debruijn s = .next t ∧ t.seqLen = k ∧ ∀ i < k, t.seq.read i = s.alpha.read i

/-- R59, U7: a GENERATE that comes to a SYM cell the host never wrote, and a DEBRUIJN over an alphabet with such an ALPHA
cell, are refused (log 16). -/
def Obligations.CommandsRefuseUnwrittenCells : Prop :=
  (∀ (s : State) (n count p : Nat), s.status.lutValid = true → s.nPairs = some n → 0 < n →
    s.lut.Filled (2 * n) (fun _ => True) → s.symbolLen.isSome → s.pauseLen.isSome → s.symCount = some count →
    p < count → s.sym.read p = none → s.sym.Filled p (fun c => s.strict = false ∨ isMalformedCode c = false) →
    exec .generate s = .refused .cellHoldsNoValue) ∧
  ∀ (s : State) (k n x : Nat), s.dbK = some k → s.dbN = some n → 1 ≤ n → x < k → s.alpha.read x = none →
    exec .debruijn s = .refused .cellHoldsNoValue

/-! ### ENCODE -/

/-- R110, R112: ENCODE gives the host the replacement of each character, in order, and changes no state of OOKGEN. (The
place where the host has the result is the model's, log 7.) -/
def Obligations.EncodeReplacesEachCharacter : Prop :=
  (∀ (s : State) (msg : List Byte) (map : Mapping),
    exec (.encode msg map) s =
      .next { s with host := { s.host with encoded := some (encodeString msg map) } }) ∧
  ∀ (map : Mapping), encodeString [] map = [] ∧
    ∀ (c : Byte) (msg : List Byte),
      (∀ r, map.lookup c = some r → encodeString (c :: msg) map = r ++ encodeString msg map) ∧
      (map.lookup c = none → encodeString (c :: msg) map = c :: encodeString msg map)

/-- R111: no lookahead, no escaping, no rescan; R115: so the length of the result is the sum over the characters. -/
def Obligations.EncodeDistributesOverConcatenation : Prop :=
  ∀ (map : Mapping) (m₁ m₂ : List Byte), encodeString [] map = [] ∧
    encodeString (m₁ ++ m₂) map = encodeString m₁ map ++ encodeString m₂ map ∧
    (encodeString m₁ map).length =
      (m₁.map (fun c => match map.lookup c with | some r => r.length | none => 1)).sum

/-! ### The host's access -/

/-- R24, R28, R29: a host write of a number that fits stores it in the register, and changes nothing else. -/
def Obligations.HostWritesStoreOperands : Prop :=
  ∀ (s : State) (rest : List HostAction),
    (∀ w : Word, s.hostNext (.writeReg .fs w.toNat) rest → step s = .next { s.withPending rest with fs := some w }) ∧
    (∀ w : Word, s.hostNext (.writeReg .fc w.toNat) rest → step s = .next { s.withPending rest with fc := some w }) ∧
    (∀ w : Amplitude, s.hostNext (.writeReg .amp w.toNat) rest →
      step s = .next { s.withPending rest with amp := some w }) ∧
    (∀ w : Word, s.hostNext (.writeReg .symbolLen w.toNat) rest →
      step s = .next { s.withPending rest with symbolLen := some w }) ∧
    (∀ w : Word, s.hostNext (.writeReg .pauseLen w.toNat) rest →
      step s = .next { s.withPending rest with pauseLen := some w }) ∧
    (∀ n : Nat, s.hostNext (.writeReg .symCount n) rest → step s = .next { s.withPending rest with symCount := some n }) ∧
    (∀ n : Nat, s.hostNext (.writeReg .dbK n) rest → step s = .next { s.withPending rest with dbK := some n }) ∧
    (∀ n : Nat, s.hostNext (.writeReg .dbN n) rest → step s = .next { s.withPending rest with dbN := some n })

/-- R28, U11: a number outside the register's type is not stored: the write is refused. (CTRL is left out: whether the
range or the hardwiring is looked at first is the model's choice, log 17.) -/
def Obligations.HostWritesOutsideTheTypeAreRefused : Prop :=
  ∀ (s : State) (r : Reg) (v : ℤ) (rest : List HostAction), s.hostNext (.writeReg r v) rest →
    ((r = .fs ∨ r = .fc ∨ r = .symbolLen ∨ r = .pauseLen) ∧ (v < 0 ∨ 2 ^ 32 ≤ v) ∨
      r = .amp ∧ (v < 0 ∨ 128 ≤ v) ∨ r = .cmd ∧ (v < 0 ∨ 256 ≤ v) ∨ (r = .symCount ∨ r = .dbK ∨ r = .dbN) ∧ v < 0) →
    step s = .refused .valueOutsideRegister

/-- R24, U12: the read-only registers ignore writes. -/
def Obligations.ReadOnlyRegistersIgnoreWrites : Prop :=
  ∀ (s : State) (r : Reg) (v : ℤ) (rest : List HostAction), s.hostNext (.writeReg r v) rest →
    (r = .status ∨ r = .nPairs ∨ r = .outLen ∨ r = .evtCount ∨ r = .seqLen) → step s = .next (s.withPending rest)

/-- R27: CTRL.STRICT takes the bit written where strict mode exists, and ignores the write where it does not. -/
def Obligations.StrictBitIsHardwiredWithoutStrictMode : Prop :=
  ∀ (s : State) (b : Bool) (rest : List HostAction), s.hostNext (.writeReg .ctrl b.toNat) rest →
    step s = .next { s.withPending rest with strict := if Config.hasStrict then b else s.strict }

/-- R32, R35, R71: the host stores an 8-bit character code in one cell of SYM or ALPHA; a wider code is refused. -/
def Obligations.HostStoresCharactersInOneCell : Prop :=
  ∀ (s : State) (i : Nat) (rest : List HostAction),
    (∀ c : Byte, s.hostNext (.writeCell .sym i c.toNat) rest →
      ∃ t, step s = .next t ∧ t.sym.read i = some c ∧ (∀ a, a ≠ i → t.sym.read a = s.sym.read a) ∧
        t = { s.withPending rest with sym := t.sym }) ∧
    (∀ c : Byte, s.hostNext (.writeCell .alpha i c.toNat) rest →
      ∃ t, step s = .next t ∧ t.alpha.read i = some c ∧ (∀ a, a ≠ i → t.alpha.read a = s.alpha.read a) ∧
        t = { s.withPending rest with alpha := t.alpha }) ∧
    ∀ (sp : InputSpace) (c : Nat), 256 ≤ c → s.hostNext (.writeCell sp i c) rest →
      step s = .refused .characterTooWide

/-- R25: the word a host read of STATUS gives, bit by bit. -/
def Obligations.StatusReadGivesItsFields : Prop :=
  ∀ (s : State) (rest : List HostAction), s.hostNext (.readReg .status) rest →
    ∃ n, step s = .next ((s.withPending rest).hostHas (.number n)) ∧ n < 128 ∧
      n.testBit 0 = s.status.done ∧ n / 2 % 4 = s.status.err.code ∧ n.testBit 3 = s.status.malformed ∧
      n.testBit 4 = s.status.lutValid ∧ n.testBit 5 = s.status.outValid ∧ n.testBit 6 = s.status.seqValid

/-- R24, R41, U7: a host read of a register gives its number (log 7), and is refused where it holds none; CMD is never
read. -/
def Obligations.RegisterReadsGiveTheirValues : Prop :=
  ∀ (s : State) (r : Reg) (rest : List HostAction), s.hostNext (.readReg r) rest →
    (∀ v : Option Nat,
      (r = .cmd ∧ v = none ∨ r = .ctrl ∧ v = some s.strict.toNat ∨
        r = .fs ∧ v = s.fs.map BitVec.toNat ∨ r = .fc ∧ v = s.fc.map BitVec.toNat ∨
        r = .amp ∧ v = s.amp.map BitVec.toNat ∨ r = .symbolLen ∧ v = s.symbolLen.map BitVec.toNat ∨
        r = .pauseLen ∧ v = s.pauseLen.map BitVec.toNat ∨ r = .symCount ∧ v = s.symCount ∨
        r = .nPairs ∧ v = s.nPairs ∨ r = .outLen ∧ v = some s.outLen ∨ r = .evtCount ∧ v = some s.evtCount ∨
        r = .dbK ∧ v = s.dbK ∨ r = .dbN ∧ v = s.dbN ∨ r = .seqLen ∧ v = some s.seqLen) →
      (∀ n, v = some n → step s = .next ((s.withPending rest).hostHas (.number n))) ∧
      (v = none → step s = .refused .registerHoldsNoValue))

/-- R58, R181: a host read, of whatever register or cell, changes nothing but what the host has read (log 7). -/
def Obligations.ReadsLeaveOokgenAsItWas : Prop :=
  ∀ (s t : State) (a : HostAction) (rest : List HostAction), s.hostNext a rest →
    ((∃ r, a = .readReg r) ∨ ∃ sp i, a = .readCell sp i) → step s = .next t →
    t = { s with host := { s.host with pending := rest, lastRead := t.host.lastRead } }

/-- R181, R184, U7: in a state with the invariant a host read of a cell gives what stands in the cell of that space: LUT
below TABLE_LEN (with LUT_VALID = 1), OUT below OUT_LEN, EVT below EVT_COUNT, SEQ below SEQ_LEN; in every state a read at
or above the length, and of LUT with LUT_VALID = 0, is refused. (Where the host has the value is the model's, log 7.) -/
def Obligations.ResultsBelowTheirLengthsAreReadable : Prop :=
  ∀ (s : State) (i : Nat) (sp : OutputSpace) (rest : List HostAction), s.hostNext (.readCell sp i) rest →
    (s.Inv →
      (sp = .lut → s.status.lutValid = true → (∃ n, s.nPairs = some n ∧ i < 2 * n) →
        ∃ c, s.lut.read i = some c ∧ step s = .next ((s.withPending rest).hostHas (.cell c))) ∧
      (sp = .out → i < s.outLen →
        ∃ c, s.out.read i = some c ∧ step s = .next ((s.withPending rest).hostHas (.cell c))) ∧
      (sp = .evt → i < s.evtCount →
        ∃ r, s.evt.read i = some r ∧ step s = .next ((s.withPending rest).hostHas (.event r))) ∧
      (sp = .seq → i < s.seqLen →
        ∃ c, s.seq.read i = some c ∧ step s = .next ((s.withPending rest).hostHas (.cell c)))) ∧
    (sp = .lut ∧ (s.status.lutValid = false ∨ ∃ n, s.nPairs = some n ∧ 2 * n ≤ i) ∨ sp = .out ∧ s.outLen ≤ i ∨
        sp = .evt ∧ s.evtCount ≤ i ∨ sp = .seq ∧ s.seqLen ≤ i →
      step s = .refused .cellNotReadable)

/-- R190: reset gives the reset state; what the host holds is its own (log 20). -/
def Obligations.ResetActionResets : Prop :=
  ∀ (s : State) (rest : List HostAction), s.hostNext .reset rest →
    step s = .next { State.reset with host := { s.host with pending := rest } }

/-! ### The whole machine -/

/-- R43 and the rules it rests on: every step keeps the invariant, from every state that has it. -/
def Obligations.StepKeepsInvariant : Prop :=
  ∀ s t : State, s.Inv → step s = .next t → t.Inv

/-- R59, R66, R160: no step from a state with the invariant faults. -/
def Obligations.NoStepFaultsUnderInvariant : Prop :=
  ∀ (s : State) (r : Fault), s.Inv → step s ≠ .fault r

/-- R16, R38: outside a command every step is a whole transition: it ends idle, with no value in CMD. -/
def Obligations.CommandsRunToCompletion : Prop :=
  ∀ s t : State, s.engine = .idle → step s = .next t → t.engine = .idle ∧ t.cmd = none

/-- R100, R65, R191: LUT and N_PAIRS change only by BUILD and by reset; OUT and EVT only by GENERATE and by reset; SEQ
only by DEBRUIJN and by reset. (From a state between commands; log 4.) -/
def Obligations.ResultsChangeOnlyByTheirCommandOrReset : Prop :=
  ∀ s t : State, s.engine = .idle → step s = .next t → ¬s.isReset →
    (¬s.runsCommand 0x01#8 → t.lut = s.lut ∧ t.nPairs = s.nPairs) ∧
    (¬s.runsCommand 0x02#8 → t.out = s.out ∧ t.outLen = s.outLen ∧ t.evt = s.evt ∧ t.evtCount = s.evtCount) ∧
    (¬s.runsCommand 0x03#8 → t.seq = s.seq ∧ t.seqLen = s.seqLen)

/-- R191: only reset takes LUT_VALID or SEQ_VALID back to 0, and OUT_VALID only reset or the strict-mode abort. -/
def Obligations.ValidFlagsAreClearedOnlyByReset : Prop :=
  ∀ s t : State, step s = .next t → ¬s.isReset →
    (s.status.lutValid = true → t.status.lutValid = true) ∧ (s.status.seqValid = true → t.status.seqValid = true) ∧
    (s.status.outValid = true → t.status.outValid = true ∨ s.strict = true ∧ t.status.err = .malformedSymbol)

/-- R28, R32, R35, R27: no instruction changes an operand register, SYM, ALPHA or CTRL. -/
def Obligations.InstructionsKeepHostOperands : Prop :=
  ∀ (i : Instr) (s t : State), exec i s = .next t →
    t.fs = s.fs ∧ t.fc = s.fc ∧ t.amp = s.amp ∧ t.symbolLen = s.symbolLen ∧ t.pauseLen = s.pauseLen ∧
    t.symCount = s.symCount ∧ t.dbK = s.dbK ∧ t.dbN = s.dbN ∧ t.strict = s.strict ∧ t.sym = s.sym ∧ t.alpha = s.alpha

/-- R50, R191: LUT has one writer, BUILD; SEQ one, DEBRUIJN; OUT and EVT are GENERATE's and its symbols'. -/
def Obligations.EachResultHasOneWriter : Prop :=
  ∀ (i : Instr) (s t : State), exec i s = .next t →
    (i ≠ .build → t.lut = s.lut ∧ t.nPairs = s.nPairs ∧ t.status.lutValid = s.status.lutValid) ∧
    (i ≠ .debruijn → t.seq = s.seq ∧ t.seqLen = s.seqLen ∧ t.status.seqValid = s.status.seqValid) ∧
    (i = .build ∨ i = .debruijn ∨ i.format = none →
      t.out = s.out ∧ t.outLen = s.outLen ∧ t.evt = s.evt ∧ t.evtCount = s.evtCount ∧
      t.status.outValid = s.status.outValid ∧ t.status.malformed = s.status.malformed ∧ t.ctr = s.ctr ∧ t.spc = s.spc)

/-- R25, R38: a command ends with DONE = 1 and ERR = 0, or with DONE = 0 and a code in ERR. -/
def Obligations.CommandsSettleDoneAndErr : Prop :=
  ∀ (i : Instr) (s t : State), i = .build ∨ i = .generate ∨ i = .debruijn → exec i s = .next t →
    (t.status.done = true ∧ t.status.err = .none) ∨ (t.status.done = false ∧ t.status.err ≠ .none)
end

