-- ==== Sys2Proof/Laws/Carrier.lean ====
section
/-! SUPPORT. The integer comparison of Machine/Carrier.lean against the real cosine: every decision is right
(`cosSearch_sound`), and every comparison BUILD asks for is decided (`cosSearch_decides`). -/

namespace Sys2Proof.Laws
open Sys2Proof.Machine

/-- The angle `(π/2)·(v/q)`. -/
noncomputable def angle (v q : Nat) : ℝ := Real.pi / 2 * ((v : ℝ) / (q : ℝ))

theorem ceilDiv_ge {a b : Int} (hb : 0 < b) : (a : ℝ) / b ≤ (ceilDiv a b : ℤ) := by
  have hb' : (0 : ℝ) < b := by exact_mod_cast hb
  have h : ((-a) / b : ℤ) * b ≤ -a := Int.ediv_mul_le _ hb.ne'
  have h' : (((-a) / b : ℤ) : ℝ) * b ≤ -a := by exact_mod_cast h
  rw [div_le_iff₀ hb']
  unfold ceilDiv
  push_cast at h' ⊢
  linarith

theorem floorDiv_le {a b : Int} (hb : 0 < b) : ((a / b : ℤ) : ℝ) ≤ (a : ℝ) / b := by
  have hb' : (0 : ℝ) < b := by exact_mod_cast hb
  rw [le_div_iff₀ hb']
  exact_mod_cast Int.ediv_mul_le a hb.ne'

theorem lt_div_add_one {a b : Int} (hb : 0 < b) : (a : ℝ) / b < ((a / b : ℤ) : ℝ) + 1 := by
  have hb' : (0 : ℝ) < b := by exact_mod_cast hb
  rw [div_lt_iff₀ hb']
  exact_mod_cast Int.lt_ediv_add_one_mul_self a hb

theorem ceilDiv_lt {a b : Int} (hb : 0 < b) : ((ceilDiv a b : ℤ) : ℝ) < (a : ℝ) / b + 1 := by
  have h := lt_div_add_one (a := -a) hb
  unfold ceilDiv
  push_cast at h ⊢
  rw [neg_div] at h
  linarith

theorem cos_angle_double {v q : Nat} :
    Real.cos (angle (2 * v) q) = 2 * Real.cos (angle v q) ^ 2 - 1 := by
  rw [← Real.cos_two_mul]; congr 1; unfold angle; push_cast; ring

theorem cos_angle_fold {v q : Nat} (hq : 0 < q) (hv : v ≤ 2 * q) :
    Real.cos (angle (4 * q - 2 * v) q) = 2 * Real.cos (angle v q) ^ 2 - 1 := by
  have hq' : (q : ℝ) ≠ 0 := by positivity
  rw [← Real.cos_two_mul, ← Real.cos_two_pi_sub]; congr 1; unfold angle
  rw [Nat.cast_sub (by omega)]; push_cast; field_simp; ring

theorem cos_angle_pos {v q : Nat} (hv : v < q) : 0 < Real.cos (angle v q) := by
  have hq : (0 : ℝ) < q := by exact_mod_cast (by omega : 0 < q)
  have h1 : (v : ℝ) / q < 1 := by rw [div_lt_one hq]; exact_mod_cast hv
  have h0 : (0 : ℝ) ≤ v / q := by positivity
  have hp := Real.pi_pos
  apply Real.cos_pos_of_mem_Ioo
  unfold angle
  constructor <;> nlinarith

theorem cos_angle_quarter {q : Nat} (hq : 0 < q) : Real.cos (angle q q) = 0 := by
  have : (q : ℝ) ≠ 0 := by positivity
  unfold angle; rw [div_self this, mul_one, Real.cos_pi_div_two]

theorem cos_angle_neg {v q : Nat} (hq : q < v) (hv : v ≤ 2 * q) : Real.cos (angle v q) < 0 := by
  have hq0 : (0 : ℝ) < q := by exact_mod_cast (by omega : 0 < q)
  have h1 : 1 < (v : ℝ) / q := by rw [one_lt_div hq0]; exact_mod_cast hq
  have h2 : (v : ℝ) / q ≤ 2 := by rw [div_le_iff₀ hq0]; exact_mod_cast hv
  have hp := Real.pi_pos
  apply Real.cos_neg_of_pi_div_two_lt_of_lt <;> unfold angle <;> nlinarith

/-- One doubling of a lower bound. -/
theorem double_lower {S x : Int} {r : ℝ} (hS : 0 < S) (h : (x : ℝ) ^ 2 ≤ ((S : ℝ) * r) ^ 2) :
    ((2 * (x * x) / S - S : ℤ) : ℝ) ≤ (S : ℝ) * (2 * r ^ 2 - 1) := by
  have hS' : (0 : ℝ) < S := by exact_mod_cast hS
  have h1 := floorDiv_le (a := 2 * (x * x)) hS
  have h2 : ((2 * (x * x) : ℤ) : ℝ) / S ≤ 2 * S * r ^ 2 := by
    rw [div_le_iff₀ hS']; push_cast; nlinarith
  push_cast at *; linarith

/-- One doubling of an upper bound. -/
theorem double_upper {S x : Int} {r : ℝ} (hS : 0 < S) (h : ((S : ℝ) * r) ^ 2 ≤ (x : ℝ) ^ 2) :
    (S : ℝ) * (2 * r ^ 2 - 1) ≤ ((ceilDiv (2 * (x * x)) S - S : ℤ) : ℝ) := by
  have hS' : (0 : ℝ) < S := by exact_mod_cast hS
  have h1 := ceilDiv_ge (a := 2 * (x * x)) hS
  have h2 : 2 * S * r ^ 2 ≤ ((2 * (x * x) : ℤ) : ℝ) / S := by
    rw [le_div_iff₀ hS']; push_cast; nlinarith
  push_cast at *; linarith

/-- Every decision of the comparison is right. -/
theorem cosCompare_sound {q : Nat} {S : Int} (hq : 0 < q) (hS : 0 < S) (fuel : Nat) :
    ∀ (v : Nat) (lo hi : Int) (r : ℝ) (b : Bool), v ≤ 2 * q → (lo : ℝ) ≤ S * r → (S : ℝ) * r ≤ hi →
      cosCompare q S fuel v lo hi = some b →
      (b = true → r < Real.cos (angle v q)) ∧ (b = false → Real.cos (angle v q) < r) := by
  have hS' : (0 : ℝ) < S := by exact_mod_cast hS
  induction fuel with
  | zero => intro v lo hi r b _ _ _ h; simp [cosCompare] at h
  | succ fuel ih =>
    intro v lo hi r b hv hlo hhi h
    have nonpos : hi ≤ 0 → r ≤ 0 := fun h0 => by
      have : (hi : ℝ) ≤ 0 := by exact_mod_cast h0
      by_contra hr; push Not at hr; nlinarith [mul_pos hS' hr]
    have nonneg : 0 ≤ lo → 0 ≤ r := fun h0 => by
      have : (0 : ℝ) ≤ lo := by exact_mod_cast h0
      by_contra hr; push Not at hr; nlinarith [mul_neg_of_pos_of_neg hS' hr]
    unfold cosCompare at h
    split_ifs at h with hvq h1 h2 hveq h3 h4 h5 h6
    · cases h
      exact ⟨fun _ => (nonpos h1).trans_lt (cos_angle_pos hvq), fun h => by cases h⟩
    · have hr := nonneg h2
      have hlo' : (0 : ℝ) ≤ lo := by exact_mod_cast h2
      have key := ih _ _ _ (2 * r ^ 2 - 1) b (by omega)
        (double_lower hS (by gcongr)) (double_upper hS (by gcongr)) h
      rw [cos_angle_double] at key
      have hc := cos_angle_pos hvq
      exact ⟨fun hb => by nlinarith [key.1 hb], fun hb => by nlinarith [key.2 hb]⟩
    · cases h
      subst hveq
      rw [cos_angle_quarter hq]
      have : (hi : ℝ) < 0 := by exact_mod_cast h3
      exact ⟨fun _ => by by_contra hr; push Not at hr; nlinarith [mul_nonneg hS'.le hr], fun h => by cases h⟩
    · cases h
      subst hveq
      rw [cos_angle_quarter hq]
      have : (0 : ℝ) < lo := by exact_mod_cast h4
      exact ⟨fun h => (by cases h), fun _ => by by_contra hr; push Not at hr; nlinarith [mul_nonneg hS'.le (neg_nonneg.2 hr)]⟩
    · cases h
      exact ⟨fun h => (by cases h), fun _ => (cos_angle_neg (by omega) hv).trans_le (nonneg h5)⟩
    · have hr := nonpos h6
      have hhi' : (hi : ℝ) ≤ 0 := by exact_mod_cast h6
      obtain ⟨b', hb', rfl⟩ := Option.map_eq_some_iff.1 h
      have key := ih _ _ _ (2 * r ^ 2 - 1) b' (by omega)
        (double_lower hS (by nlinarith)) (double_upper hS (by nlinarith)) hb'
      rw [cos_angle_fold hq hv] at key
      have hc := cos_angle_neg (by omega) hv
      refine ⟨fun hb => ?_, fun hb => ?_⟩
      · have := key.2 (by simpa using hb); nlinarith
      · have := key.1 (by simpa using hb); nlinarith


/-- `b^n·cos(n·x)` is an integer where `b·cos x` is one. -/
theorem int_cos_multiple {b a : ℤ} {x : ℝ} (h : (b : ℝ) * Real.cos x = a) (n : Nat) :
    (∃ z : ℤ, (b : ℝ) ^ n * Real.cos (n * x) = z) ∧
      ∃ z : ℤ, (b : ℝ) ^ (n + 1) * Real.cos ((n + 1 : ℕ) * x) = z := by
  induction n with
  | zero => exact ⟨⟨1, by simp⟩, ⟨a, by simpa using h⟩⟩
  | succ n ih =>
    obtain ⟨⟨z, hz⟩, ⟨y, hy⟩⟩ := ih
    refine ⟨⟨y, hy⟩, ⟨2 * a * y - b ^ 2 * z, ?_⟩⟩
    have e : Real.cos (((n + 1 + 1 : ℕ) : ℝ) * x) =
        2 * Real.cos x * Real.cos (((n + 1 : ℕ) : ℝ) * x) - Real.cos ((n : ℝ) * x) := by
      have h1 := Real.cos_add (((n + 1 : ℕ) : ℝ) * x) x
      have h2 := Real.cos_sub (((n + 1 : ℕ) : ℝ) * x) x
      have e1 : ((n + 1 : ℕ) : ℝ) * x + x = ((n + 1 + 1 : ℕ) : ℝ) * x := by push_cast; ring
      have e2 : ((n + 1 : ℕ) : ℝ) * x - x = (n : ℝ) * x := by push_cast; ring
      rw [e1] at h1; rw [e2] at h2
      linarith
    rw [e]
    push_cast
    rw [← hy, ← hz, ← h]
    push_cast
    ring

/-- Where `b·cos x` is a positive integer below b (b even is not needed), no cos(2^k·x) is 0: the square root of 2 is
irrational. -/
theorem cos_pow_two_ne_zero {b a : ℤ} {x : ℝ} (hb : 0 < b) (ha : 0 < a) (h : (b : ℝ) * Real.cos x = a) (k : Nat) :
    Real.cos ((2 ^ k : ℕ) * x) ≠ 0 := by
  have hb' : (b : ℝ) ≠ 0 := by exact_mod_cast hb.ne'
  cases k with
  | zero =>
    intro h0
    simp only [pow_zero, Nat.cast_one, one_mul] at h0
    rw [h0, mul_zero] at h
    exact ha.ne (by exact_mod_cast h)
  | succ k =>
    intro h0
    obtain ⟨⟨z, hz⟩, -⟩ := int_cos_multiple h (2 ^ k)
    have e : (((2 ^ (k + 1) : ℕ) : ℝ) * x) = 2 * (((2 ^ k : ℕ) : ℝ) * x) := by push_cast; ring
    rw [e, Real.cos_two_mul] at h0
    have hsq : (2 : ℝ) * (z : ℝ) ^ 2 = ((b : ℝ) ^ (2 ^ k)) ^ 2 := by
      rw [← hz, mul_pow]
      linear_combination ((b : ℝ) ^ (2 ^ k)) ^ 2 * h0
    have hz0 : (z : ℝ) ≠ 0 := by
      intro hz0
      rw [hz0] at hsq
      have : ((b : ℝ) ^ (2 ^ k)) ^ 2 ≠ 0 := by positivity
      exact this (by rw [← hsq]; ring)
    apply irrational_sqrt_two
    refine ⟨|((b : ℚ) ^ (2 ^ k) / z)|, ?_⟩
    rw [eq_comm, Real.sqrt_eq_iff_mul_self_eq (by norm_num) (by positivity)]
    push_cast
    rw [← pow_two, sq_abs, div_pow, ← hsq]
    field_simp

/-- A lower bound of |cos(2^k·x)|. -/
theorem cos_pow_two_ge {b a : ℤ} {x : ℝ} (hb : 0 < b) (ha : 0 < a) (h : (b : ℝ) * Real.cos x = a) (k : Nat) :
    1 ≤ (b : ℝ) ^ (2 ^ k) * |Real.cos ((2 ^ k : ℕ) * x)| := by
  have hb' : (0 : ℝ) < b := by exact_mod_cast hb
  obtain ⟨⟨z, hz⟩, -⟩ := int_cos_multiple h (2 ^ k)
  have hne := cos_pow_two_ne_zero hb ha h k
  have hz0 : z ≠ 0 := by
    rintro rfl
    have : (b : ℝ) ^ (2 ^ k) ≠ 0 := by positivity
    simp_all
  have : (b : ℝ) ^ (2 ^ k) * |Real.cos ((2 ^ k : ℕ) * x)| = ((|z| : ℤ) : ℝ) := by
    rw [Int.cast_abs, ← hz, abs_mul, abs_of_pos (by positivity : (0 : ℝ) < (b : ℝ) ^ (2 ^ k))]
  rw [this]
  exact_mod_cast Int.one_le_abs hz0

theorem abs_cos_sub_cos_le (x y : ℝ) : |Real.cos x - Real.cos y| ≤ |x - y| := by
  rw [Real.cos_sub_cos, abs_mul, abs_mul, abs_neg, abs_two]
  have h1 := Real.abs_sin_le_one ((x + y) / 2)
  have h2 := Real.abs_sin_le_abs (x := (x - y) / 2)
  rw [abs_div, abs_two] at h2
  nlinarith [abs_nonneg (Real.sin ((x + y) / 2)), abs_nonneg (Real.sin ((x - y) / 2))]

theorem cos_full_turns (u q : Nat) (hq : 0 < q) : Real.cos (((4 * q : ℕ) : ℝ) * angle u q) = 1 := by
  have hq' : (q : ℝ) ≠ 0 := by positivity
  have : ((4 * q : ℕ) : ℝ) * angle u q = (u : ℝ) * (2 * Real.pi) := by
    unfold angle; push_cast; field_simp; ring
  rw [this, Real.cos_nat_mul_two_pi]

/-- The distance of the angle from the threshold's: the cosine of the angle is a root of a polynomial with integer
coefficients (that of cos(4q·x) - 1), and the threshold is rational. -/
theorem angle_gap {b a : ℤ} {u q : Nat} {y : ℝ} (hq : 0 < q) (h3 : 3 * u ≠ 2 * q) (hb : 0 < b) (ha : 0 < a) (hab : a < b)
    (hy0 : 0 ≤ y) (hy1 : y ≤ Real.pi) (h : (b : ℝ) * Real.cos y = a) :
    1 ≤ (4 * q) * (b : ℝ) ^ (4 * q) * |angle u q - y| := by
  have hb' : (0 : ℝ) < b := by exact_mod_cast hb
  have hb1 : (1 : ℝ) ≤ b := by exact_mod_cast hb
  have hq' : (0 : ℝ) < q := by exact_mod_cast hq
  have hpow : (1 : ℝ) ≤ (b : ℝ) ^ (4 * q) := one_le_pow₀ hb1
  by_cases hone : Real.cos (((4 * q : ℕ) : ℝ) * y) = 1
  · -- the threshold is 1/2
    have hrat : ∃ r : ℚ, y = r * Real.pi := by
      obtain ⟨n, hn⟩ := (Real.cos_eq_one_iff _).1 hone
      refine ⟨(n : ℚ) / (2 * q), ?_⟩
      push_cast at hn ⊢
      field_simp
      linarith
    have hc : Real.cos y = (a : ℝ) / b := by field_simp; linarith
    have hniv := niven hrat ⟨(a : ℚ) / b, by rw [hc]; push_cast; ring⟩
    have ha' : (0 : ℝ) < a := by exact_mod_cast ha
    have hpos : 0 < Real.cos y := by rw [hc]; positivity
    have hlt : Real.cos y < 1 := by rw [hc, div_lt_one hb']; exact_mod_cast hab
    have hhalf : Real.cos y = Real.cos (Real.pi / 3) := by
      rw [Real.cos_pi_div_three]
      simp only [Set.mem_insert_iff, Set.mem_singleton_iff] at hniv
      rcases hniv with h | h | h | h | h <;> linarith
    have hy : y = Real.pi / 3 :=
      Real.injOn_cos ⟨hy0, hy1⟩ ⟨by positivity, by linarith [Real.pi_pos]⟩ hhalf
    have hd : angle u q - y = Real.pi * ((3 * (u : ℤ) - 2 * (q : ℤ) : ℤ) : ℝ) / (6 * q) := by
      rw [hy]; unfold angle; push_cast; field_simp; ring
    have hne : (3 * (u : ℤ) - 2 * (q : ℤ)) ≠ 0 := by omega
    have h1 : (1 : ℝ) ≤ |((3 * (u : ℤ) - 2 * (q : ℤ) : ℤ) : ℝ)| := by
      rw [← Int.cast_abs]; exact_mod_cast Int.one_le_abs hne
    rw [hd, abs_div, abs_mul, abs_of_pos Real.pi_pos, abs_of_pos (by positivity : (0 : ℝ) < 6 * q)]
    have hpi := Real.pi_gt_three
    have h2 : (3 : ℝ) ≤ Real.pi * |((3 * (u : ℤ) - 2 * (q : ℤ) : ℤ) : ℝ)| := by nlinarith
    rw [← mul_div_assoc, le_div_iff₀ (by positivity)]
    nlinarith [mul_le_mul hpow h2 (by norm_num) (by positivity)]
  · obtain ⟨⟨z, hz⟩, -⟩ := int_cos_multiple h (4 * q)
    have hne : b ^ (4 * q) - z ≠ 0 := by
      intro h0
      have h0' : ((b ^ (4 * q) - z : ℤ) : ℝ) = 0 := by rw [h0]; simp
      push_cast at h0'
      apply hone
      have : (b : ℝ) ^ (4 * q) ≠ 0 := by positivity
      have h4 : (b : ℝ) ^ (4 * q) * Real.cos (((4 * q : ℕ) : ℝ) * y) = (b : ℝ) ^ (4 * q) * 1 := by linarith
      exact mul_left_cancel₀ this h4
    have h1 : (1 : ℝ) ≤ |((b ^ (4 * q) - z : ℤ) : ℝ)| := by
      rw [← Int.cast_abs]; exact_mod_cast Int.one_le_abs hne
    have h2 := abs_cos_sub_cos_le (((4 * q : ℕ) : ℝ) * angle u q) (((4 * q : ℕ) : ℝ) * y)
    rw [cos_full_turns u q hq, ← mul_sub, abs_mul, Nat.abs_cast] at h2
    have h3' : |((b ^ (4 * q) - z : ℤ) : ℝ)| =
        (b : ℝ) ^ (4 * q) * |1 - Real.cos (((4 * q : ℕ) : ℝ) * y)| := by
      have e : ((b ^ (4 * q) - z : ℤ) : ℝ) = (b : ℝ) ^ (4 * q) * (1 - Real.cos (((4 * q : ℕ) : ℝ) * y)) := by
        rw [Int.cast_sub, Int.cast_pow, ← hz]; ring
      rw [e, abs_mul, abs_of_pos (by positivity : (0 : ℝ) < (b : ℝ) ^ (4 * q))]
    rw [h3'] at h1
    push_cast at h2
    calc (1 : ℝ) ≤ _ := h1
      _ ≤ (b : ℝ) ^ (4 * q) * (4 * q * |angle u q - y|) := by gcongr; push_cast; exact h2
      _ = _ := by ring

/-- One doubling widens the lower side of the interval at most fourfold, and by one. X and R are |x| and |S·r|. -/
theorem double_lower_width {S x : Int} {r w X R : ℝ} (hS : 0 < S) (hX : X ^ 2 = (x : ℝ) ^ 2) (hR : R ^ 2 = (S * r) ^ 2)
    (h0 : 0 ≤ X) (h1 : X ≤ R) (h2 : R ≤ S) (hw : R - X ≤ w) :
    S * (2 * r ^ 2 - 1) - ((2 * (x * x) / S - S : ℤ) : ℝ) ≤ 4 * w + 1 := by
  have hS' : (0 : ℝ) < S := by exact_mod_cast hS
  have l1 := lt_div_add_one (a := 2 * (x * x)) hS
  have e : R ^ 2 - X ^ 2 ≤ 2 * S * w := by
    calc R ^ 2 - X ^ 2 = (R - X) * (R + X) := by ring
      _ ≤ w * (2 * S) := mul_le_mul hw (by linarith) (by linarith) (by linarith)
      _ = _ := by ring
  have b1 : 2 * (S * r ^ 2) - ((2 * (x * x) : ℤ) : ℝ) / S ≤ 4 * w := by
    rw [sub_le_iff_le_add', ← sub_le_iff_le_add, le_div_iff₀ hS']
    push_cast
    have : (S * r) ^ 2 = S * r ^ 2 * S := by ring
    nlinarith
  push_cast at l1 b1 ⊢
  linarith

/-- The same of the upper side. -/
theorem double_upper_width {S x : Int} {r w X R : ℝ} (hS : 0 < S) (hX : X ^ 2 = (x : ℝ) ^ 2) (hR : R ^ 2 = (S * r) ^ 2)
    (h0 : 0 ≤ R) (h1 : R ≤ X) (h2 : X ≤ S) (hw : X - R ≤ w) :
    ((ceilDiv (2 * (x * x)) S - S : ℤ) : ℝ) - S * (2 * r ^ 2 - 1) ≤ 4 * w + 1 := by
  have hS' : (0 : ℝ) < S := by exact_mod_cast hS
  have l2 := ceilDiv_lt (a := 2 * (x * x)) hS
  have e : X ^ 2 - R ^ 2 ≤ 2 * S * w := by
    calc X ^ 2 - R ^ 2 = (X - R) * (X + R) := by ring
      _ ≤ w * (2 * S) := mul_le_mul hw (by linarith) (by linarith) (by linarith)
      _ = _ := by ring
  have b2 : ((2 * (x * x) : ℤ) : ℝ) / S - 2 * (S * r ^ 2) ≤ 4 * w := by
    rw [sub_le_iff_le_add, div_le_iff₀ hS']
    push_cast
    have : (S * r) ^ 2 = S * r ^ 2 * S := by ring
    nlinarith
  push_cast at l2 b2 ⊢
  linarith

theorem double_lower_bound {S x : Int} (hS : 0 < S) : -S ≤ 2 * (x * x) / S - S := by
  have : 0 ≤ 2 * (x * x) / S := Int.ediv_nonneg (by nlinarith [mul_self_nonneg x]) hS.le
  omega

theorem double_upper_bound {S x : Int} (hS : 0 < S) (h1 : -S ≤ x) (h2 : x ≤ S) :
    ceilDiv (2 * (x * x)) S - S ≤ S := by
  have : -(2 * S) ≤ -(2 * (x * x)) / S := by
    rw [Int.le_ediv_iff_mul_le hS]
    nlinarith [mul_nonneg (by linarith : 0 ≤ S + x) (by linarith : 0 ≤ S - x)]
  unfold ceilDiv
  omega

theorem angle_nonneg (v q : Nat) : 0 ≤ angle v q := by
  unfold angle; positivity

theorem angle_le_pi {v q : Nat} (hq : 0 < q) (hv : v ≤ 2 * q) : angle v q ≤ Real.pi := by
  have hq' : (0 : ℝ) < q := by exact_mod_cast hq
  have : (v : ℝ) / q ≤ 2 := by rw [div_le_iff₀ hq']; exact_mod_cast hv
  unfold angle; nlinarith [Real.pi_pos]

theorem angle_lt_right {v q : Nat} (hv : v < q) : angle v q < Real.pi / 2 := by
  have hq' : (0 : ℝ) < q := by exact_mod_cast (by omega : 0 < q)
  have : (v : ℝ) / q < 1 := by rw [div_lt_one hq']; exact_mod_cast hv
  unfold angle; nlinarith [Real.pi_pos]

theorem right_lt_angle {v q : Nat} (hq : 0 < q) (hv : q < v) : Real.pi / 2 < angle v q := by
  have hq' : (0 : ℝ) < q := by exact_mod_cast hq
  have : 1 < (v : ℝ) / q := by rw [one_lt_div hq']; exact_mod_cast hv
  unfold angle; nlinarith [Real.pi_pos]

theorem angle_right {q : Nat} (hq : 0 < q) : angle q q = Real.pi / 2 := by
  have hq' : (q : ℝ) ≠ 0 := by positivity
  unfold angle; rw [div_self hq', mul_one]

/-- What an interval says whose number is far enough from 0. -/
theorem interval_sign {S lo hi : Int} {c w ε : ℝ} (hS : 0 < S) (hwl : S * c - lo ≤ w) (hwh : hi - S * c ≤ w)
    (hw0 : 0 ≤ w) (hwε : w < S * ε) (hε : ε ≤ |c|) : (0 < c ∧ 0 < lo) ∨ (c < 0 ∧ hi < 0) := by
  have hS' : (0 : ℝ) < S := by exact_mod_cast hS
  have hsε : (S : ℝ) * ε ≤ S * |c| := by gcongr
  rcases lt_trichotomy c 0 with hc | hc | hc
  · right
    rw [abs_of_neg hc] at hsε
    have : (hi : ℝ) < 0 := by linarith [mul_neg (S : ℝ) c]
    exact ⟨hc, by exact_mod_cast this⟩
  · exfalso
    subst hc
    simp only [abs_zero, mul_zero] at hsε
    linarith
  · left
    rw [abs_of_pos hc] at hsε
    have : (0 : ℝ) < lo := by linarith
    exact ⟨hc, by exact_mod_cast this⟩

/-- The comparison decides where the angles differ by more than a right angle over 2^K, no cos(2^k·y) is small for
k ≤ K, and the interval is narrow enough to survive K doublings. -/
theorem cosCompare_decides {q : Nat} {S : Int} (hq : 0 < q) (hS : 0 < S) {ε : ℝ} (K : Nat) :
    ∀ (fuel v : Nat) (lo hi : Int) (y w : ℝ), K < fuel → v ≤ 2 * q → 0 ≤ y → y ≤ Real.pi →
      (lo : ℝ) ≤ S * Real.cos y → (S : ℝ) * Real.cos y ≤ hi → -S ≤ lo → hi ≤ S → 
      S * Real.cos y - lo ≤ w → hi - S * Real.cos y ≤ w → 0 ≤ w → 4 ^ K * (w + 1) ≤ S * ε →
      (∀ k ≤ K, ε ≤ |Real.cos ((2 ^ k : ℕ) * y)|) → Real.pi / 2 < 2 ^ K * |angle v q - y| →
      cosCompare q S fuel v lo hi ≠ none := by
  have hS' : (0 : ℝ) < S := by exact_mod_cast hS
  induction K with
  | zero =>
    intro fuel v lo hi y w hfuel hv hy0 hy1 hlo hhi _ _ hwl hwh hw0 hw hε hgap
    obtain ⟨fuel, rfl⟩ : ∃ n, fuel = n + 1 := ⟨fuel - 1, by omega⟩
    have hε0 : ε ≤ |Real.cos y| := by simpa using hε 0 le_rfl
    simp only [pow_zero, one_mul] at hw hgap
    have hsign := interval_sign hS hwl hwh hw0 (by linarith) hε0
    have hα0 := angle_nonneg v q
    have hα1 := angle_le_pi hq hv
    unfold cosCompare
    rcases lt_trichotomy v q with hvq | hvq | hvq
    · have hα := angle_lt_right hvq
      have hy : Real.pi / 2 < y := by
        by_contra h; push Not at h
        exact absurd (abs_le.2 ⟨by linarith, by linarith⟩) (not_le.2 hgap)
      have hc : Real.cos y < 0 := Real.cos_neg_of_pi_div_two_lt_of_lt hy (by linarith)
      rcases hsign with h | h
      · linarith [h.1]
      · simp [hvq, h.2.le]
    · exfalso
      subst hvq
      rw [angle_right hq] at hgap
      exact absurd (abs_le.2 ⟨by linarith, by linarith⟩) (not_le.2 hgap)
    · have hα := right_lt_angle hq hvq
      have hy : y < Real.pi / 2 := by
        by_contra h; push Not at h
        exact absurd (abs_le.2 ⟨by linarith, by linarith⟩) (not_le.2 hgap)
      have hc : 0 < Real.cos y := Real.cos_pos_of_mem_Ioo ⟨by linarith [Real.pi_pos], hy⟩
      rcases hsign with h | h
      · simp [hvq.not_gt, hvq.ne', h.2.le]
      · linarith [h.1]
  | succ K ih =>
    intro fuel v lo hi y w hfuel hv hy0 hy1 hlo hhi hlS hhS hwl hwh hw0 hw hε hgap
    obtain ⟨fuel, rfl⟩ : ∃ n, fuel = n + 1 := ⟨fuel - 1, by omega⟩
    have hlS' : -(S : ℝ) ≤ lo := by exact_mod_cast hlS
    have hhS' : (hi : ℝ) ≤ S := by exact_mod_cast hhS
    have hε0 : ε ≤ |Real.cos y| := by simpa using hε 0 (Nat.zero_le _)
    have h41 : (1 : ℝ) ≤ 4 ^ K := one_le_pow₀ (by norm_num)
    have h4 : (4 : ℝ) ^ (K + 1) * (w + 1) = 4 ^ K * (4 * w + 1 + 1) + 2 * 4 ^ K := by ring
    have hw' : (4 : ℝ) ^ K * (4 * w + 1 + 1) ≤ S * ε := by linarith
    have hwε : w < S * ε := by nlinarith
    have hsign := interval_sign hS hwl hwh hw0 hwε hε0
    have hSc : (S : ℝ) * Real.cos y ≤ S := by nlinarith [Real.cos_le_one y]
    have hSc' : -(S : ℝ) ≤ S * Real.cos y := by nlinarith [Real.neg_one_le_cos y]
    unfold cosCompare
    rcases lt_trichotomy v q with hvq | hvq | hvq
    · rw [if_pos hvq]
      rcases hsign with ⟨hc, hlo0⟩ | ⟨-, hhi0⟩
      · have hlo0' : (0 : ℝ) < lo := by exact_mod_cast hlo0
        have hhi0 : ¬hi ≤ 0 := by
          intro h
          have : (hi : ℝ) ≤ 0 := by exact_mod_cast h
          linarith
        rw [if_neg hhi0, if_pos hlo0.le]
        have hy2 : y < Real.pi / 2 := by
          by_contra h; push Not at h
          exact absurd (Real.cos_nonpos_of_pi_div_two_le_of_le h (by linarith)) (not_le.2 hc)
        have ecos : Real.cos (2 * y) = 2 * Real.cos y ^ 2 - 1 := Real.cos_two_mul y
        refine ih fuel (2 * v) _ _ (2 * y) (4 * w + 1) (by omega) (by omega) (by linarith) (by linarith)
          (ecos ▸ double_lower hS (by gcongr)) (ecos ▸ double_upper hS (by gcongr)) (double_lower_bound hS)
          (double_upper_bound hS (by omega) hhS)
          (ecos ▸ double_lower_width hS rfl rfl hlo0'.le hlo hSc hwl)
          (ecos ▸ double_upper_width hS rfl rfl (by linarith) hhi hhS' hwh) (by linarith) hw' ?_ ?_
        · intro k hk
          have := hε (k + 1) (by omega)
          have e : ((2 ^ (k + 1) : ℕ) : ℝ) * y = ((2 ^ k : ℕ) : ℝ) * (2 * y) := by push_cast; ring
          rwa [e] at this
        · have e : angle (2 * v) q - 2 * y = 2 * (angle v q - y) := by unfold angle; push_cast; ring
          rw [e, abs_mul, abs_two, ← mul_assoc, ← pow_succ]
          exact hgap
      · simp [hhi0.le]
    · rcases hsign with ⟨-, h⟩ | ⟨-, h⟩
      · by_cases hh : hi < 0 <;> simp [hvq, h, hh]
      · simp [hvq, h]
    · rw [if_neg hvq.not_gt, if_neg hvq.ne']
      rcases hsign with ⟨-, hlo0⟩ | ⟨hc, hhi0⟩
      · simp [hlo0.le]
      · have hhi0' : (hi : ℝ) < 0 := by exact_mod_cast hhi0
        have hlo0 : ¬0 ≤ lo := by
          intro h
          have : (0 : ℝ) ≤ lo := by exact_mod_cast h
          linarith
        rw [if_neg hlo0, if_pos hhi0.le]
        have hy2 : Real.pi / 2 < y := by
          by_contra h; push Not at h
          exact absurd (Real.cos_nonneg_of_mem_Icc ⟨by linarith [Real.pi_pos], h⟩) (not_le.2 hc)
        have ecos : Real.cos (2 * Real.pi - 2 * y) = 2 * Real.cos y ^ 2 - 1 := by
          rw [Real.cos_two_pi_sub, Real.cos_two_mul]
        intro hmap
        rw [Option.map_eq_none_iff] at hmap
        refine ih fuel (4 * q - 2 * v) _ _ (2 * Real.pi - 2 * y) (4 * w + 1) (by omega) (by omega) (by linarith)
          (by linarith) (ecos ▸ double_lower hS (by nlinarith)) (ecos ▸ double_upper hS (by nlinarith))
          (double_lower_bound hS) (double_upper_bound hS hlS (by omega))
          (ecos ▸ double_lower_width (X := -hi) (R := -(S * Real.cos y)) hS (by ring) (by ring) (by linarith)
            (by linarith) (by linarith) (by linarith))
          (ecos ▸ double_upper_width (X := -lo) (R := -(S * Real.cos y)) hS (by ring) (by ring) (by linarith)
            (by linarith) (by linarith) (by linarith)) (by linarith) hw' ?_ ?_ hmap
        · intro k hk
          have := hε (k + 1) (by omega)
          have e : ((2 ^ k : ℕ) : ℝ) * (2 * Real.pi - 2 * y)
              = ((2 ^ k : ℕ) : ℝ) * (2 * Real.pi) - ((2 ^ (k + 1) : ℕ) : ℝ) * y := by
            push_cast; ring
          rw [e, Real.cos_nat_mul_two_pi_sub]
          exact this
        · have hq' : (q : ℝ) ≠ 0 := by positivity
          have e : angle (4 * q - 2 * v) q - (2 * Real.pi - 2 * y) = -(2 * (angle v q - y)) := by
            unfold angle; rw [Nat.cast_sub (by omega)]; push_cast; field_simp; ring
          rw [e, abs_neg, abs_mul, abs_two, ← mul_assoc, ← pow_succ]
          exact hgap

/-- A search that does not decide has tried every level. -/
theorem cosSearch_none {A m u q : Nat} (levels : Nat) :
    ∀ bits, cosSearch A m u q levels bits = none → ∀ j < levels,
      cosCompare q (2 ^ (2 ^ j * bits)) (2 ^ j * bits) u ((2 * m + 1) * 2 ^ (2 ^ j * bits) / (2 * A))
        (ceilDiv ((2 * m + 1) * 2 ^ (2 ^ j * bits)) (2 * A)) = none := by
  induction levels with
  | zero => intro _ _ j hj; omega
  | succ levels ih =>
    intro bits h j hj
    unfold cosSearch at h
    simp only at h
    split at h
    · cases h
    · rename_i h0
      cases j with
      | zero => simpa using h0
      | succ j =>
        have := ih _ h j (by omega)
        rwa [← mul_assoc, ← pow_succ] at this

/-- A search that decides has decided at some level. -/
theorem cosSearch_some {A m u q : Nat} {b : Bool} (levels : Nat) :
    ∀ bits, cosSearch A m u q levels bits = some b → ∃ P,
      cosCompare q (2 ^ P) P u ((2 * m + 1) * 2 ^ P / (2 * A)) (ceilDiv ((2 * m + 1) * 2 ^ P) (2 * A)) = some b := by
  induction levels with
  | zero => intro _ h; simp [cosSearch] at h
  | succ levels ih =>
    intro bits h
    unfold cosSearch at h
    simp only at h
    split at h
    · rename_i b' h0
      cases h
      exact ⟨bits, h0⟩
    · exact ih _ h

/-- Every decision of the search is right. -/
theorem cosSearch_sound {A m u q levels bits : Nat} {b : Bool} (hA : 0 < A) (hq : 0 < q) (hu : u ≤ q)
    (h : cosSearch A m u q levels bits = some b) :
    (b = true → (m : ℝ) + 1 / 2 < A * Real.cos (angle u q)) ∧
      (b = false → A * Real.cos (angle u q) < (m : ℝ) + 1 / 2) := by
  obtain ⟨P, hP⟩ := cosSearch_some _ _ h
  have hA' : (0 : ℝ) < A := by exact_mod_cast hA
  have h2A : (0 : Int) < 2 * A := by positivity
  have e : ((2 ^ P : ℤ) : ℝ) * ((2 * m + 1) / (2 * A)) = (((2 * m + 1) * 2 ^ P : ℤ) : ℝ) / ((2 * A : ℤ) : ℝ) := by
    push_cast; ring
  have key := cosCompare_sound hq (by positivity) P u _ _ ((2 * m + 1) / (2 * A)) b (by omega)
    (e ▸ floorDiv_le h2A) (e ▸ ceilDiv_ge h2A) hP
  constructor
  · intro hb
    have := key.1 hb
    rw [div_lt_iff₀ (by positivity)] at this
    linarith
  · intro hb
    have := key.2 hb
    rw [lt_div_iff₀ (by positivity)] at this
    linarith

/-- The numbers of the last level of the search: its precision suffices for K doublings, and 2^K outgrows the gap. -/
theorem precision_suffices (q : Nat) (hq : 0 < q) :
    ∃ K : Nat, 2 * K + 1 + 8 * 2 ^ K ≤ 2 ^ (64 * q + 63) * 64 ∧ (4 : ℝ) * 2 ^ (32 * q) * (q * 2) ≤ 2 ^ K := by
  refine ⟨36 * q + 2, ?_, ?_⟩
  · have e1 : 2 ^ (64 * q + 63) * 64 = 2 ^ (28 * q + 63) * (16 * 2 ^ (36 * q + 2)) := by ring
    have e2 : 36 * q + 2 ≤ 2 ^ (36 * q + 2) := Nat.lt_two_pow_self.le
    have e3 : 1 * (16 * 2 ^ (36 * q + 2)) ≤ 2 ^ (28 * q + 63) * (16 * 2 ^ (36 * q + 2)) :=
      Nat.mul_le_mul_right _ Nat.one_le_two_pow
    have e4 : 1 ≤ 2 ^ (36 * q + 2) := Nat.one_le_two_pow
    rw [e1]
    omega
  · have h4 : q < 2 ^ q := Nat.lt_two_pow_self
    have h5 : q * 2 ≤ 16 ^ q := by
      calc q * 2 ≤ 2 ^ q * 2 := by omega
        _ ≤ 2 ^ q * 8 ^ q := by
          gcongr
          calc 2 ≤ 8 ^ 1 := by norm_num
            _ ≤ 8 ^ q := Nat.pow_le_pow_right (by norm_num) hq
        _ = 16 ^ q := by rw [← mul_pow]; norm_num
    have h3 : (q : ℝ) * 2 ≤ 16 ^ q := by exact_mod_cast h5
    have h6 : (2 : ℝ) ^ (36 * q + 2) = 4 * 2 ^ (32 * q) * 16 ^ q := by
      rw [show (16 : ℝ) = 2 ^ 4 by norm_num, ← pow_mul]; ring
    rw [h6]
    gcongr

/-- The comparison with m + 1/2 decides at a precision P that suffices for K doublings. -/
theorem threshold_decides {A m u q K P : Nat} (hA : A ≤ 127) (hm : m < A) (hu : u < q) (h3 : 3 * u ≠ 2 * q)
    (hPK : 2 * K + 1 + 8 * 2 ^ K ≤ P) (hK : (4 : ℝ) * 2 ^ (32 * q) * (q * 2) ≤ 2 ^ K) :
    cosCompare q (2 ^ P) P u ((2 * m + 1) * 2 ^ P / (2 * A)) (ceilDiv ((2 * m + 1) * 2 ^ P) (2 * A)) ≠ none := by
  have hq : 0 < q := by omega
  have hA' : (0 : ℝ) < A := by exact_mod_cast (by omega : 0 < A)
  have hmA : ((m : ℝ) + 1 / 2) < A := by
    have : (m : ℝ) + 1 ≤ A := by exact_mod_cast hm
    linarith
  obtain ⟨r, hr⟩ : ∃ r : ℝ, r = (2 * m + 1) / (2 * A) := ⟨_, rfl⟩
  have hr0 : 0 < r := by rw [hr]; positivity
  have hr1 : r < 1 := by rw [hr, div_lt_one (by positivity)]; linarith
  have hcos : Real.cos (Real.arccos r) = r := Real.cos_arccos (by linarith) hr1.le
  have hba : ((2 * A : ℤ) : ℝ) * Real.cos (Real.arccos r) = ((2 * m + 1 : ℤ) : ℝ) := by
    rw [hcos, hr]; push_cast; field_simp
  have hb : (0 : ℤ) < 2 * A := by omega
  have hb8 : ((2 * A : ℤ) : ℝ) ≤ 2 ^ 8 := by
    have : (2 * A : ℤ) ≤ 2 ^ 8 := by omega
    exact_mod_cast this
  have hb0 : (0 : ℝ) < ((2 * A : ℤ) : ℝ) := by exact_mod_cast hb
  have hS : (0 : ℤ) < 2 ^ P := by positivity
  have eS : ((2 ^ P : ℤ) : ℝ) * Real.cos (Real.arccos r) = (((2 * m + 1) * 2 ^ P : ℤ) : ℝ) / ((2 * A : ℤ) : ℝ) := by
    rw [hcos, hr]; push_cast; ring
  have hgap := angle_gap hq h3 hb (by positivity) (by omega) (Real.arccos_nonneg r) (Real.arccos_le_pi r) hba
  have hlast : Real.pi / 2 < 2 ^ K * |angle u q - Real.arccos r| := by
    have h1 : ((2 * A : ℤ) : ℝ) ^ (4 * q) ≤ 2 ^ (32 * q) := by
      calc ((2 * A : ℤ) : ℝ) ^ (4 * q) ≤ (2 ^ 8) ^ (4 * q) := by gcongr
        _ = 2 ^ (32 * q) := by rw [← pow_mul]; congr 1; ring
    have h2 : (1 : ℝ) ≤ 4 * q * 2 ^ (32 * q) * |angle u q - Real.arccos r| := hgap.trans (by gcongr)
    have hpi := Real.pi_lt_four
    calc Real.pi / 2 < 2 * 1 := by linarith
      _ ≤ 2 * (4 * q * 2 ^ (32 * q) * |angle u q - Real.arccos r|) := by gcongr
      _ = 4 * 2 ^ (32 * q) * (q * 2) * |angle u q - Real.arccos r| := by ring
      _ ≤ 2 ^ K * |angle u q - Real.arccos r| := by gcongr
  have hsmall : ∀ k ≤ K, (1 / 2 : ℝ) ^ (8 * 2 ^ K) ≤ |Real.cos ((2 ^ k : ℕ) * Real.arccos r)| := by
    intro k hk
    have h1 := cos_pow_two_ge hb (by positivity) hba k
    have h2 : ((2 * A : ℤ) : ℝ) ^ (2 ^ k) ≤ 2 ^ (8 * 2 ^ K) := by
      rw [pow_mul]
      calc ((2 * A : ℤ) : ℝ) ^ (2 ^ k) ≤ (2 ^ 8) ^ (2 ^ k) := by gcongr
        _ ≤ (2 ^ 8) ^ (2 ^ K) := pow_le_pow_right₀ (by norm_num) (Nat.pow_le_pow_right (by norm_num) hk)
    rw [one_div, inv_pow, inv_le_iff_one_le_mul₀ (by positivity)]
    calc (1 : ℝ) ≤ _ := h1
      _ ≤ 2 ^ (8 * 2 ^ K) * |Real.cos ((2 ^ k : ℕ) * Real.arccos r)| := by gcongr
      _ = _ := mul_comm _ _
  have hwide : (4 : ℝ) ^ K * (1 + 1) ≤ ((2 ^ P : ℤ) : ℝ) * (1 / 2) ^ (8 * 2 ^ K) := by
    have e5 : (4 : ℝ) ^ K * (1 + 1) = 2 ^ (2 * K + 1) := by
      rw [pow_succ, pow_mul]; norm_num
    have e6 : ((2 ^ P : ℤ) : ℝ) * (1 / 2) ^ (8 * 2 ^ K) = 2 ^ (P - 8 * 2 ^ K) := by
      rw [pow_sub₀ _ (by norm_num) (by omega)]
      push_cast
      rw [one_div, inv_pow]
    rw [e5, e6]
    exact pow_le_pow_right₀ (by norm_num) (by omega)
  have hlow : -(2 ^ P : ℤ) ≤ (2 * (m : ℤ) + 1) * 2 ^ P / (2 * A) := by
    have : 0 ≤ (2 * (m : ℤ) + 1) * 2 ^ P / (2 * A) := Int.ediv_nonneg (by positivity) hb.le
    omega
  have hhigh : ceilDiv ((2 * (m : ℤ) + 1) * 2 ^ P) (2 * A) ≤ 2 ^ P := by
    have : -(2 ^ P : ℤ) ≤ -((2 * (m : ℤ) + 1) * 2 ^ P) / (2 * A) := by
      rw [Int.le_ediv_iff_mul_le hb]
      have h1 : (2 * (m : ℤ) + 1) ≤ 2 * A := by omega
      nlinarith
    unfold ceilDiv
    omega
  have l1 := lt_div_add_one (a := (2 * (m : ℤ) + 1) * 2 ^ P) hb
  have l2 := ceilDiv_lt (a := (2 * (m : ℤ) + 1) * 2 ^ P) hb
  have hKP : K < P := by
    have : 1 ≤ 2 ^ K := Nat.one_le_two_pow
    omega
  exact cosCompare_decides hq hS K P u _ _ (Real.arccos r) 1 hKP (by omega) (Real.arccos_nonneg r)
    (Real.arccos_le_pi r) (by rw [eS]; exact floorDiv_le hb) (by rw [eS]; exact ceilDiv_ge hb) hlow hhigh
    (by rw [eS]; linarith) (by rw [eS]; linarith) zero_le_one hwide hsmall hlast

/-- The search decides every comparison that BUILD asks of it: amplitudes up to AMP_MAX, thresholds below the amplitude,
angles inside the quarter turn other than π/3. -/
theorem cosSearch_decides {A m u q : Nat} (hA : A ≤ 127) (hm : m < A) (hu : u < q) (h3 : 3 * u ≠ 2 * q) :
    cosSearch A m u q (64 * q + 64) 64 ≠ none := by
  intro hnone
  obtain ⟨K, hPK, hK⟩ := precision_suffices q (by omega)
  exact threshold_decides hA hm hu h3 hPK hK (cosSearch_none _ _ hnone (64 * q + 63) (by omega))

/-- What the comparison says of the exact real (40_carrier_table.md R93). -/
theorem cosAbove_iff {A m u q : Nat} (hA : A ≤ 127) (hm : m < A) (hu : u < q) (h3 : 3 * u ≠ 2 * q) :
    cosAbove A m u q = true ↔ (m : ℝ) + 1 / 2 < A * Real.cos (angle u q) := by
  have hd := cosSearch_decides hA hm hu h3
  obtain ⟨b, hb⟩ := Option.ne_none_iff_exists'.1 hd
  have hs := cosSearch_sound (by omega) (by omega) hu.le hb
  unfold cosAbove
  rw [hb]
  cases b with
  | true => simpa using hs.1 rfl
  | false => simpa using (hs.2 rfl).le

/-- A comparison that is not above is strictly below: no tie is left over. -/
theorem cosAbove_eq_false_iff {A m u q : Nat} (hA : A ≤ 127) (hm : m < A) (hu : u < q) (h3 : 3 * u ≠ 2 * q) :
    cosAbove A m u q = false ↔ A * Real.cos (angle u q) < (m : ℝ) + 1 / 2 := by
  have hd := cosSearch_decides hA hm hu h3
  obtain ⟨b, hb⟩ := Option.ne_none_iff_exists'.1 hd
  have hs := cosSearch_sound (by omega) (by omega) hu.le hb
  unfold cosAbove
  rw [hb]
  cases b with
  | true => simpa using (hs.1 rfl).le
  | false => simpa using hs.2 rfl

end Sys2Proof.Laws
end

