-- ==== Sys2Proof/Laws/Memory.lean ====
section
/-! SUPPORT. What the operations over index spaces do: a write is read back, every other cell reads as before, and every
operation keeps the canonical form. -/

namespace Sys2Proof.Machine

variable {α : Type}

@[simp] theorem Memory.read_nil (i : Nat) : Memory.read ([] : Memory α) i = none := rfl

theorem Memory.read_cons (j : Nat) (v : α) (m : Memory α) (i : Nat) :
    Memory.read ((j, v) :: m) i = if j = i then some v else m.read i := rfl

theorem Memory.read_append (m m' : Memory α) (i : Nat) :
    Memory.read (m ++ m') i = match m.read i with | some v => some v | none => m'.read i := by
  induction m with
  | nil => rfl
  | cons c m ih =>
    obtain ⟨j, v⟩ := c
    rw [List.cons_append, Memory.read_cons, Memory.read_cons, ih]
    split <;> rfl

theorem Memory.read_filter (m : Memory α) (f : Nat → Bool) (i : Nat) :
    Memory.read (m.filter (fun c => f c.1)) i = if f i then m.read i else none := by
  induction m with
  | nil => simp
  | cons c m ih =>
    obtain ⟨j, v⟩ := c
    rw [List.filter_cons, Memory.read_cons]
    by_cases hj : f j = true
    · rw [if_pos hj, Memory.read_cons, ih]
      split
      · subst_vars; rw [if_pos hj]
      · rfl
    · rw [if_neg hj, ih]
      by_cases hi : f i = true
      · have hji : ¬j = i := fun h => hj (by rw [h]; exact hi)
        rw [if_pos hi, if_pos hi, if_neg hji]
      · rw [if_neg hi, if_neg hi]

@[simp] theorem Memory.read_below (m : Memory α) (n i : Nat) :
    (m.below n).read i = if i < n then m.read i else none := by
  have := Memory.read_filter m (fun j => decide (j < n)) i
  simpa [Memory.below] using this

@[simp] theorem Memory.read_from (m : Memory α) (n i : Nat) :
    (m.from n).read i = if n ≤ i then m.read i else none := by
  have := Memory.read_filter m (fun j => decide (n ≤ j)) i
  simpa [Memory.from] using this

theorem Memory.read_cells (base : Nat) (vs : List α) (i : Nat) :
    (Memory.cells base vs).read i = if base ≤ i then vs[i - base]? else none := by
  induction vs generalizing base with
  | nil => simp [Memory.cells]
  | cons v vs ih =>
    rw [Memory.cells, Memory.read_cons, ih]
    rcases lt_trichotomy base i with h | h | h
    · rw [if_neg h.ne, if_pos (by omega), if_pos h.le, show i - base = (i - (base + 1)) + 1 by omega]
      simp
    · subst h; simp
    · rw [if_neg h.ne', if_neg (by omega), if_neg (by omega)]

/-- What a cell reads as after a write (00_scope.md R13). -/
theorem Memory.read_write (m : Memory α) (base : Nat) (vs : List α) (i : Nat) :
    (m.write base vs).read i =
      if base ≤ i ∧ i < base + vs.length then vs[i - base]? else m.read i := by
  rw [Memory.write, Memory.read_append, Memory.read_append, Memory.read_below, Memory.read_cells, Memory.read_from]
  rcases lt_or_ge i base with h | h
  · rw [if_pos h, if_neg (by omega), if_neg (by omega), if_neg (by omega)]
    cases m.read i <;> rfl
  · rw [if_neg (by omega), if_pos h]
    by_cases h2 : i < base + vs.length
    · rw [List.getElem?_eq_getElem (by omega)]
      simp [h, h2]
    · rw [List.getElem?_eq_none (by omega)]
      simp [h2, Nat.not_lt.1 h2]

/-- A write leaves every cell outside it as it was. -/
theorem Memory.read_write_other (m : Memory α) {base i : Nat} {vs : List α} (h : i < base ∨ base + vs.length ≤ i) :
    (m.write base vs).read i = m.read i := by
  rw [Memory.read_write, if_neg (by omega)]

/-- A write is read back. -/
theorem Memory.read_write_same (m : Memory α) {base i : Nat} {vs : List α} (h : i < vs.length) :
    (m.write base vs).read (base + i) = vs[i]? := by
  rw [Memory.read_write, if_pos (by omega), Nat.add_sub_cancel_left]

theorem Memory.cells_indices (base : Nat) (vs : List α) :
    (Memory.cells base vs).map Prod.fst = List.range' base vs.length := by
  induction vs generalizing base with
  | nil => rfl
  | cons v vs ih => rw [Memory.cells, List.map_cons, ih, List.length_cons, List.range'_succ]

theorem Memory.wf_nil : Memory.wf ([] : Memory α) := List.Pairwise.nil

theorem Memory.below_wf {m : Memory α} (h : m.wf) (n : Nat) : (m.below n).wf :=
  List.Pairwise.sublist (List.Sublist.map _ List.filter_sublist) h

theorem Memory.from_wf {m : Memory α} (h : m.wf) (n : Nat) : (m.from n).wf :=
  List.Pairwise.sublist (List.Sublist.map _ List.filter_sublist) h

/-- A write keeps the canonical form. -/
theorem Memory.write_wf {m : Memory α} (h : m.wf) (base : Nat) (vs : List α) : (m.write base vs).wf := by
  unfold Memory.wf Memory.write
  rw [List.map_append, List.map_append, Memory.cells_indices, List.pairwise_append, List.pairwise_append]
  have hb : ∀ x ∈ (m.below base).map Prod.fst, x < base := by
    intro x hx
    obtain ⟨c, hc, rfl⟩ := List.mem_map.1 hx
    simpa using (List.mem_filter.1 hc).2
  have hf : ∀ x ∈ (m.from (base + vs.length)).map Prod.fst, base + vs.length ≤ x := by
    intro x hx
    obtain ⟨c, hc, rfl⟩ := List.mem_map.1 hx
    simpa using (List.mem_filter.1 hc).2
  refine ⟨⟨Memory.below_wf h base, List.pairwise_lt_range', ?_⟩, Memory.from_wf h _, ?_⟩
  · intro a ha b hb'
    have := hb a ha
    have := (List.mem_range'_1.1 hb').1
    omega
  · intro a ha b hb'
    have h2 := hf b hb'
    rcases List.mem_append.1 ha with h1 | h1
    · have := hb a h1
      omega
    · have := (List.mem_range'_1.1 h1).2
      omega

/-- Two successive writes that meet are one write of the joined sequences, where nothing stands above. -/
theorem Memory.cells_append (base : Nat) (vs ws : List α) :
    Memory.cells base (vs ++ ws) = Memory.cells base vs ++ Memory.cells (base + vs.length) ws := by
  induction vs generalizing base with
  | nil => simp [Memory.cells]
  | cons v vs ih =>
    rw [List.cons_append, Memory.cells, Memory.cells, ih, List.length_cons, List.cons_append]
    congr 3
    omega

/-- What a successful read of several cells gives. -/
theorem Memory.readAll_some {m : Memory α} {is : List Nat} {vs : List α} :
    m.readAll is = some vs ↔ is.map m.read = vs.map some := by
  induction is generalizing vs with
  | nil => cases vs <;> simp [Memory.readAll]
  | cons i is ih =>
    unfold Memory.readAll
    cases hv : m.read i with
    | none => cases vs <;> simp [hv]
    | some v =>
      cases hvs : m.readAll is with
      | none =>
        cases vs with
        | nil => simp
        | cons w ws =>
          simp only [List.map_cons, hv, reduceCtorEq, List.cons.injEq, Option.some.injEq, false_iff, not_and]
          intro _ h
          rw [ih.2 h] at hvs
          cases hvs
      | some ws' =>
        cases vs with
        | nil => simp
        | cons w ws =>
          have := ih (vs := ws)
          rw [hvs] at this
          simp [hv, ← this]

/-- A read of several cells succeeds where each of them holds a value. -/
theorem Memory.readAll_isSome {m : Memory α} {is : List Nat} (h : ∀ i ∈ is, (m.read i).isSome) :
    ∃ vs, m.readAll is = some vs := by
  induction is with
  | nil => exact ⟨[], rfl⟩
  | cons i is ih =>
    obtain ⟨v, hv⟩ := Option.isSome_iff_exists.1 (h i (by simp))
    obtain ⟨vs, hvs⟩ := ih (fun j hj => h j (by simp [hj]))
    exact ⟨v :: vs, by rw [Memory.readAll, hv, hvs]⟩

theorem Memory.readAll_length {m : Memory α} {is : List Nat} {vs : List α} (h : m.readAll is = some vs) :
    vs.length = is.length := by
  have := congrArg List.length (Memory.readAll_some.1 h)
  simpa using this.symm

end Sys2Proof.Machine
end

