-- ==== Sys2Proof/Laws/State.lean ====
section
/-! SUPPORT. One lemma per field per named update of STATUS and of the state, true by rfl, so that no proof unfolds a
record update. -/

namespace Sys2Proof.Machine

/-! ### Status.succeed -/

@[simp] theorem Status.succeed_done (f : Status) : (f.succeed).done = true := rfl
@[simp] theorem Status.succeed_err (f : Status) : (f.succeed).err = .none := rfl
@[simp] theorem Status.succeed_malformed (f : Status) : (f.succeed).malformed = f.malformed := rfl
@[simp] theorem Status.succeed_lutValid (f : Status) : (f.succeed).lutValid = f.lutValid := rfl
@[simp] theorem Status.succeed_outValid (f : Status) : (f.succeed).outValid = f.outValid := rfl
@[simp] theorem Status.succeed_seqValid (f : Status) : (f.succeed).seqValid = f.seqValid := rfl

/-! ### Status.fail -/

@[simp] theorem Status.fail_done (f : Status) (e : ErrorCode) : (f.fail e).done = false := rfl
@[simp] theorem Status.fail_err (f : Status) (e : ErrorCode) : (f.fail e).err = e := rfl
@[simp] theorem Status.fail_malformed (f : Status) (e : ErrorCode) : (f.fail e).malformed = f.malformed := rfl
@[simp] theorem Status.fail_lutValid (f : Status) (e : ErrorCode) : (f.fail e).lutValid = f.lutValid := rfl
@[simp] theorem Status.fail_outValid (f : Status) (e : ErrorCode) : (f.fail e).outValid = f.outValid := rfl
@[simp] theorem Status.fail_seqValid (f : Status) (e : ErrorCode) : (f.fail e).seqValid = f.seqValid := rfl

/-! ### Status.setMalformed -/

@[simp] theorem Status.setMalformed_done (f : Status) (b : Bool) : (f.setMalformed b).done = f.done := rfl
@[simp] theorem Status.setMalformed_err (f : Status) (b : Bool) : (f.setMalformed b).err = f.err := rfl
@[simp] theorem Status.setMalformed_malformed (f : Status) (b : Bool) : (f.setMalformed b).malformed = b := rfl
@[simp] theorem Status.setMalformed_lutValid (f : Status) (b : Bool) : (f.setMalformed b).lutValid = f.lutValid := rfl
@[simp] theorem Status.setMalformed_outValid (f : Status) (b : Bool) : (f.setMalformed b).outValid = f.outValid := rfl
@[simp] theorem Status.setMalformed_seqValid (f : Status) (b : Bool) : (f.setMalformed b).seqValid = f.seqValid := rfl

/-! ### Status.setLutValid -/

@[simp] theorem Status.setLutValid_done (f : Status) : (f.setLutValid).done = f.done := rfl
@[simp] theorem Status.setLutValid_err (f : Status) : (f.setLutValid).err = f.err := rfl
@[simp] theorem Status.setLutValid_malformed (f : Status) : (f.setLutValid).malformed = f.malformed := rfl
@[simp] theorem Status.setLutValid_lutValid (f : Status) : (f.setLutValid).lutValid = true := rfl
@[simp] theorem Status.setLutValid_outValid (f : Status) : (f.setLutValid).outValid = f.outValid := rfl
@[simp] theorem Status.setLutValid_seqValid (f : Status) : (f.setLutValid).seqValid = f.seqValid := rfl

/-! ### Status.setOutValid -/

@[simp] theorem Status.setOutValid_done (f : Status) (b : Bool) : (f.setOutValid b).done = f.done := rfl
@[simp] theorem Status.setOutValid_err (f : Status) (b : Bool) : (f.setOutValid b).err = f.err := rfl
@[simp] theorem Status.setOutValid_malformed (f : Status) (b : Bool) : (f.setOutValid b).malformed = f.malformed := rfl
@[simp] theorem Status.setOutValid_lutValid (f : Status) (b : Bool) : (f.setOutValid b).lutValid = f.lutValid := rfl
@[simp] theorem Status.setOutValid_outValid (f : Status) (b : Bool) : (f.setOutValid b).outValid = b := rfl
@[simp] theorem Status.setOutValid_seqValid (f : Status) (b : Bool) : (f.setOutValid b).seqValid = f.seqValid := rfl

/-! ### Status.setSeqValid -/

@[simp] theorem Status.setSeqValid_done (f : Status) : (f.setSeqValid).done = f.done := rfl
@[simp] theorem Status.setSeqValid_err (f : Status) : (f.setSeqValid).err = f.err := rfl
@[simp] theorem Status.setSeqValid_malformed (f : Status) : (f.setSeqValid).malformed = f.malformed := rfl
@[simp] theorem Status.setSeqValid_lutValid (f : Status) : (f.setSeqValid).lutValid = f.lutValid := rfl
@[simp] theorem Status.setSeqValid_outValid (f : Status) : (f.setSeqValid).outValid = f.outValid := rfl
@[simp] theorem Status.setSeqValid_seqValid (f : Status) : (f.setSeqValid).seqValid = true := rfl

/-! ### State.appendOut -/

@[simp] theorem State.appendOut_cmd (s : State) (vs : List Byte) : (s.appendOut vs).cmd = s.cmd := rfl
@[simp] theorem State.appendOut_status (s : State) (vs : List Byte) : (s.appendOut vs).status = s.status := rfl
@[simp] theorem State.appendOut_strict (s : State) (vs : List Byte) : (s.appendOut vs).strict = s.strict := rfl
@[simp] theorem State.appendOut_fs (s : State) (vs : List Byte) : (s.appendOut vs).fs = s.fs := rfl
@[simp] theorem State.appendOut_fc (s : State) (vs : List Byte) : (s.appendOut vs).fc = s.fc := rfl
@[simp] theorem State.appendOut_amp (s : State) (vs : List Byte) : (s.appendOut vs).amp = s.amp := rfl
@[simp] theorem State.appendOut_symbolLen (s : State) (vs : List Byte) : (s.appendOut vs).symbolLen = s.symbolLen := rfl
@[simp] theorem State.appendOut_pauseLen (s : State) (vs : List Byte) : (s.appendOut vs).pauseLen = s.pauseLen := rfl
@[simp] theorem State.appendOut_symCount (s : State) (vs : List Byte) : (s.appendOut vs).symCount = s.symCount := rfl
@[simp] theorem State.appendOut_nPairs (s : State) (vs : List Byte) : (s.appendOut vs).nPairs = s.nPairs := rfl
@[simp] theorem State.appendOut_outLen (s : State) (vs : List Byte) : (s.appendOut vs).outLen = s.outLen + vs.length := rfl
@[simp] theorem State.appendOut_evtCount (s : State) (vs : List Byte) : (s.appendOut vs).evtCount = s.evtCount := rfl
@[simp] theorem State.appendOut_dbK (s : State) (vs : List Byte) : (s.appendOut vs).dbK = s.dbK := rfl
@[simp] theorem State.appendOut_dbN (s : State) (vs : List Byte) : (s.appendOut vs).dbN = s.dbN := rfl
@[simp] theorem State.appendOut_seqLen (s : State) (vs : List Byte) : (s.appendOut vs).seqLen = s.seqLen := rfl
@[simp] theorem State.appendOut_lut (s : State) (vs : List Byte) : (s.appendOut vs).lut = s.lut := rfl
@[simp] theorem State.appendOut_sym (s : State) (vs : List Byte) : (s.appendOut vs).sym = s.sym := rfl
@[simp] theorem State.appendOut_out (s : State) (vs : List Byte) : (s.appendOut vs).out = s.out.write s.outLen vs := rfl
@[simp] theorem State.appendOut_evt (s : State) (vs : List Byte) : (s.appendOut vs).evt = s.evt := rfl
@[simp] theorem State.appendOut_alpha (s : State) (vs : List Byte) : (s.appendOut vs).alpha = s.alpha := rfl
@[simp] theorem State.appendOut_seq (s : State) (vs : List Byte) : (s.appendOut vs).seq = s.seq := rfl
@[simp] theorem State.appendOut_ctr (s : State) (vs : List Byte) : (s.appendOut vs).ctr = s.ctr := rfl
@[simp] theorem State.appendOut_spc (s : State) (vs : List Byte) : (s.appendOut vs).spc = s.spc := rfl
@[simp] theorem State.appendOut_workArray (s : State) (vs : List Byte) : (s.appendOut vs).workArray = s.workArray := rfl
@[simp] theorem State.appendOut_stack (s : State) (vs : List Byte) : (s.appendOut vs).stack = s.stack := rfl
@[simp] theorem State.appendOut_engine (s : State) (vs : List Byte) : (s.appendOut vs).engine = s.engine := rfl
@[simp] theorem State.appendOut_host (s : State) (vs : List Byte) : (s.appendOut vs).host = s.host := rfl

/-! ### State.appendSeq -/

@[simp] theorem State.appendSeq_cmd (s : State) (vs : List Byte) : (s.appendSeq vs).cmd = s.cmd := rfl
@[simp] theorem State.appendSeq_status (s : State) (vs : List Byte) : (s.appendSeq vs).status = s.status := rfl
@[simp] theorem State.appendSeq_strict (s : State) (vs : List Byte) : (s.appendSeq vs).strict = s.strict := rfl
@[simp] theorem State.appendSeq_fs (s : State) (vs : List Byte) : (s.appendSeq vs).fs = s.fs := rfl
@[simp] theorem State.appendSeq_fc (s : State) (vs : List Byte) : (s.appendSeq vs).fc = s.fc := rfl
@[simp] theorem State.appendSeq_amp (s : State) (vs : List Byte) : (s.appendSeq vs).amp = s.amp := rfl
@[simp] theorem State.appendSeq_symbolLen (s : State) (vs : List Byte) : (s.appendSeq vs).symbolLen = s.symbolLen := rfl
@[simp] theorem State.appendSeq_pauseLen (s : State) (vs : List Byte) : (s.appendSeq vs).pauseLen = s.pauseLen := rfl
@[simp] theorem State.appendSeq_symCount (s : State) (vs : List Byte) : (s.appendSeq vs).symCount = s.symCount := rfl
@[simp] theorem State.appendSeq_nPairs (s : State) (vs : List Byte) : (s.appendSeq vs).nPairs = s.nPairs := rfl
@[simp] theorem State.appendSeq_outLen (s : State) (vs : List Byte) : (s.appendSeq vs).outLen = s.outLen := rfl
@[simp] theorem State.appendSeq_evtCount (s : State) (vs : List Byte) : (s.appendSeq vs).evtCount = s.evtCount := rfl
@[simp] theorem State.appendSeq_dbK (s : State) (vs : List Byte) : (s.appendSeq vs).dbK = s.dbK := rfl
@[simp] theorem State.appendSeq_dbN (s : State) (vs : List Byte) : (s.appendSeq vs).dbN = s.dbN := rfl
@[simp] theorem State.appendSeq_seqLen (s : State) (vs : List Byte) : (s.appendSeq vs).seqLen = s.seqLen + vs.length := rfl
@[simp] theorem State.appendSeq_lut (s : State) (vs : List Byte) : (s.appendSeq vs).lut = s.lut := rfl
@[simp] theorem State.appendSeq_sym (s : State) (vs : List Byte) : (s.appendSeq vs).sym = s.sym := rfl
@[simp] theorem State.appendSeq_out (s : State) (vs : List Byte) : (s.appendSeq vs).out = s.out := rfl
@[simp] theorem State.appendSeq_evt (s : State) (vs : List Byte) : (s.appendSeq vs).evt = s.evt := rfl
@[simp] theorem State.appendSeq_alpha (s : State) (vs : List Byte) : (s.appendSeq vs).alpha = s.alpha := rfl
@[simp] theorem State.appendSeq_seq (s : State) (vs : List Byte) : (s.appendSeq vs).seq = s.seq.write s.seqLen vs := rfl
@[simp] theorem State.appendSeq_ctr (s : State) (vs : List Byte) : (s.appendSeq vs).ctr = s.ctr := rfl
@[simp] theorem State.appendSeq_spc (s : State) (vs : List Byte) : (s.appendSeq vs).spc = s.spc := rfl
@[simp] theorem State.appendSeq_workArray (s : State) (vs : List Byte) : (s.appendSeq vs).workArray = s.workArray := rfl
@[simp] theorem State.appendSeq_stack (s : State) (vs : List Byte) : (s.appendSeq vs).stack = s.stack := rfl
@[simp] theorem State.appendSeq_engine (s : State) (vs : List Byte) : (s.appendSeq vs).engine = s.engine := rfl
@[simp] theorem State.appendSeq_host (s : State) (vs : List Byte) : (s.appendSeq vs).host = s.host := rfl

/-! ### State.advance -/

@[simp] theorem State.advance_cmd (s : State) (n : Nat) : (s.advance n).cmd = s.cmd := rfl
@[simp] theorem State.advance_status (s : State) (n : Nat) : (s.advance n).status = s.status := rfl
@[simp] theorem State.advance_strict (s : State) (n : Nat) : (s.advance n).strict = s.strict := rfl
@[simp] theorem State.advance_fs (s : State) (n : Nat) : (s.advance n).fs = s.fs := rfl
@[simp] theorem State.advance_fc (s : State) (n : Nat) : (s.advance n).fc = s.fc := rfl
@[simp] theorem State.advance_amp (s : State) (n : Nat) : (s.advance n).amp = s.amp := rfl
@[simp] theorem State.advance_symbolLen (s : State) (n : Nat) : (s.advance n).symbolLen = s.symbolLen := rfl
@[simp] theorem State.advance_pauseLen (s : State) (n : Nat) : (s.advance n).pauseLen = s.pauseLen := rfl
@[simp] theorem State.advance_symCount (s : State) (n : Nat) : (s.advance n).symCount = s.symCount := rfl
@[simp] theorem State.advance_nPairs (s : State) (n : Nat) : (s.advance n).nPairs = s.nPairs := rfl
@[simp] theorem State.advance_outLen (s : State) (n : Nat) : (s.advance n).outLen = s.outLen := rfl
@[simp] theorem State.advance_evtCount (s : State) (n : Nat) : (s.advance n).evtCount = s.evtCount := rfl
@[simp] theorem State.advance_dbK (s : State) (n : Nat) : (s.advance n).dbK = s.dbK := rfl
@[simp] theorem State.advance_dbN (s : State) (n : Nat) : (s.advance n).dbN = s.dbN := rfl
@[simp] theorem State.advance_seqLen (s : State) (n : Nat) : (s.advance n).seqLen = s.seqLen := rfl
@[simp] theorem State.advance_lut (s : State) (n : Nat) : (s.advance n).lut = s.lut := rfl
@[simp] theorem State.advance_sym (s : State) (n : Nat) : (s.advance n).sym = s.sym := rfl
@[simp] theorem State.advance_out (s : State) (n : Nat) : (s.advance n).out = s.out := rfl
@[simp] theorem State.advance_evt (s : State) (n : Nat) : (s.advance n).evt = s.evt := rfl
@[simp] theorem State.advance_alpha (s : State) (n : Nat) : (s.advance n).alpha = s.alpha := rfl
@[simp] theorem State.advance_seq (s : State) (n : Nat) : (s.advance n).seq = s.seq := rfl
@[simp] theorem State.advance_ctr (s : State) (n : Nat) : (s.advance n).ctr = s.ctr + n := rfl
@[simp] theorem State.advance_spc (s : State) (n : Nat) : (s.advance n).spc = s.spc + 1 := rfl
@[simp] theorem State.advance_workArray (s : State) (n : Nat) : (s.advance n).workArray = s.workArray := rfl
@[simp] theorem State.advance_stack (s : State) (n : Nat) : (s.advance n).stack = s.stack := rfl
@[simp] theorem State.advance_engine (s : State) (n : Nat) : (s.advance n).engine = s.engine := rfl
@[simp] theorem State.advance_host (s : State) (n : Nat) : (s.advance n).host = s.host := rfl

/-! ### State.raiseInvalidParameter -/

@[simp] theorem State.raiseInvalidParameter_cmd (s : State) : (s.raiseInvalidParameter).cmd = s.cmd := rfl
@[simp] theorem State.raiseInvalidParameter_status (s : State) : (s.raiseInvalidParameter).status = s.status.fail .invalidParameter := rfl
@[simp] theorem State.raiseInvalidParameter_strict (s : State) : (s.raiseInvalidParameter).strict = s.strict := rfl
@[simp] theorem State.raiseInvalidParameter_fs (s : State) : (s.raiseInvalidParameter).fs = s.fs := rfl
@[simp] theorem State.raiseInvalidParameter_fc (s : State) : (s.raiseInvalidParameter).fc = s.fc := rfl
@[simp] theorem State.raiseInvalidParameter_amp (s : State) : (s.raiseInvalidParameter).amp = s.amp := rfl
@[simp] theorem State.raiseInvalidParameter_symbolLen (s : State) : (s.raiseInvalidParameter).symbolLen = s.symbolLen := rfl
@[simp] theorem State.raiseInvalidParameter_pauseLen (s : State) : (s.raiseInvalidParameter).pauseLen = s.pauseLen := rfl
@[simp] theorem State.raiseInvalidParameter_symCount (s : State) : (s.raiseInvalidParameter).symCount = s.symCount := rfl
@[simp] theorem State.raiseInvalidParameter_nPairs (s : State) : (s.raiseInvalidParameter).nPairs = s.nPairs := rfl
@[simp] theorem State.raiseInvalidParameter_outLen (s : State) : (s.raiseInvalidParameter).outLen = s.outLen := rfl
@[simp] theorem State.raiseInvalidParameter_evtCount (s : State) : (s.raiseInvalidParameter).evtCount = s.evtCount := rfl
@[simp] theorem State.raiseInvalidParameter_dbK (s : State) : (s.raiseInvalidParameter).dbK = s.dbK := rfl
@[simp] theorem State.raiseInvalidParameter_dbN (s : State) : (s.raiseInvalidParameter).dbN = s.dbN := rfl
@[simp] theorem State.raiseInvalidParameter_seqLen (s : State) : (s.raiseInvalidParameter).seqLen = s.seqLen := rfl
@[simp] theorem State.raiseInvalidParameter_lut (s : State) : (s.raiseInvalidParameter).lut = s.lut := rfl
@[simp] theorem State.raiseInvalidParameter_sym (s : State) : (s.raiseInvalidParameter).sym = s.sym := rfl
@[simp] theorem State.raiseInvalidParameter_out (s : State) : (s.raiseInvalidParameter).out = s.out := rfl
@[simp] theorem State.raiseInvalidParameter_evt (s : State) : (s.raiseInvalidParameter).evt = s.evt := rfl
@[simp] theorem State.raiseInvalidParameter_alpha (s : State) : (s.raiseInvalidParameter).alpha = s.alpha := rfl
@[simp] theorem State.raiseInvalidParameter_seq (s : State) : (s.raiseInvalidParameter).seq = s.seq := rfl
@[simp] theorem State.raiseInvalidParameter_ctr (s : State) : (s.raiseInvalidParameter).ctr = s.ctr := rfl
@[simp] theorem State.raiseInvalidParameter_spc (s : State) : (s.raiseInvalidParameter).spc = s.spc := rfl
@[simp] theorem State.raiseInvalidParameter_workArray (s : State) : (s.raiseInvalidParameter).workArray = s.workArray := rfl
@[simp] theorem State.raiseInvalidParameter_stack (s : State) : (s.raiseInvalidParameter).stack = s.stack := rfl
@[simp] theorem State.raiseInvalidParameter_engine (s : State) : (s.raiseInvalidParameter).engine = .idle := rfl
@[simp] theorem State.raiseInvalidParameter_host (s : State) : (s.raiseInvalidParameter).host = s.host := rfl

/-! ### State.reportMalformed -/

@[simp] theorem State.reportMalformed_cmd (s : State) (c : Byte) : (s.reportMalformed c).cmd = s.cmd := rfl
@[simp] theorem State.reportMalformed_status (s : State) (c : Byte) : (s.reportMalformed c).status = s.status.setMalformed true := rfl
@[simp] theorem State.reportMalformed_strict (s : State) (c : Byte) : (s.reportMalformed c).strict = s.strict := rfl
@[simp] theorem State.reportMalformed_fs (s : State) (c : Byte) : (s.reportMalformed c).fs = s.fs := rfl
@[simp] theorem State.reportMalformed_fc (s : State) (c : Byte) : (s.reportMalformed c).fc = s.fc := rfl
@[simp] theorem State.reportMalformed_amp (s : State) (c : Byte) : (s.reportMalformed c).amp = s.amp := rfl
@[simp] theorem State.reportMalformed_symbolLen (s : State) (c : Byte) : (s.reportMalformed c).symbolLen = s.symbolLen := rfl
@[simp] theorem State.reportMalformed_pauseLen (s : State) (c : Byte) : (s.reportMalformed c).pauseLen = s.pauseLen := rfl
@[simp] theorem State.reportMalformed_symCount (s : State) (c : Byte) : (s.reportMalformed c).symCount = s.symCount := rfl
@[simp] theorem State.reportMalformed_nPairs (s : State) (c : Byte) : (s.reportMalformed c).nPairs = s.nPairs := rfl
@[simp] theorem State.reportMalformed_outLen (s : State) (c : Byte) : (s.reportMalformed c).outLen = s.outLen := rfl
@[simp] theorem State.reportMalformed_evtCount (s : State) (c : Byte) : (s.reportMalformed c).evtCount = s.evtCount + 1 := rfl
@[simp] theorem State.reportMalformed_dbK (s : State) (c : Byte) : (s.reportMalformed c).dbK = s.dbK := rfl
@[simp] theorem State.reportMalformed_dbN (s : State) (c : Byte) : (s.reportMalformed c).dbN = s.dbN := rfl
@[simp] theorem State.reportMalformed_seqLen (s : State) (c : Byte) : (s.reportMalformed c).seqLen = s.seqLen := rfl
@[simp] theorem State.reportMalformed_lut (s : State) (c : Byte) : (s.reportMalformed c).lut = s.lut := rfl
@[simp] theorem State.reportMalformed_sym (s : State) (c : Byte) : (s.reportMalformed c).sym = s.sym := rfl
@[simp] theorem State.reportMalformed_out (s : State) (c : Byte) : (s.reportMalformed c).out = s.out := rfl
@[simp] theorem State.reportMalformed_evt (s : State) (c : Byte) : (s.reportMalformed c).evt = s.evt.write s.evtCount [{ pos := s.spc, symc := c }] := rfl
@[simp] theorem State.reportMalformed_alpha (s : State) (c : Byte) : (s.reportMalformed c).alpha = s.alpha := rfl
@[simp] theorem State.reportMalformed_seq (s : State) (c : Byte) : (s.reportMalformed c).seq = s.seq := rfl
@[simp] theorem State.reportMalformed_ctr (s : State) (c : Byte) : (s.reportMalformed c).ctr = s.ctr := rfl
@[simp] theorem State.reportMalformed_spc (s : State) (c : Byte) : (s.reportMalformed c).spc = s.spc := rfl
@[simp] theorem State.reportMalformed_workArray (s : State) (c : Byte) : (s.reportMalformed c).workArray = s.workArray := rfl
@[simp] theorem State.reportMalformed_stack (s : State) (c : Byte) : (s.reportMalformed c).stack = s.stack := rfl
@[simp] theorem State.reportMalformed_engine (s : State) (c : Byte) : (s.reportMalformed c).engine = s.engine := rfl
@[simp] theorem State.reportMalformed_host (s : State) (c : Byte) : (s.reportMalformed c).host = s.host := rfl

/-! ### State.strictAbort -/

@[simp] theorem State.strictAbort_cmd (s : State) : (s.strictAbort).cmd = s.cmd := rfl
@[simp] theorem State.strictAbort_status (s : State) : (s.strictAbort).status = (s.status.setOutValid false).fail .malformedSymbol := rfl
@[simp] theorem State.strictAbort_strict (s : State) : (s.strictAbort).strict = s.strict := rfl
@[simp] theorem State.strictAbort_fs (s : State) : (s.strictAbort).fs = s.fs := rfl
@[simp] theorem State.strictAbort_fc (s : State) : (s.strictAbort).fc = s.fc := rfl
@[simp] theorem State.strictAbort_amp (s : State) : (s.strictAbort).amp = s.amp := rfl
@[simp] theorem State.strictAbort_symbolLen (s : State) : (s.strictAbort).symbolLen = s.symbolLen := rfl
@[simp] theorem State.strictAbort_pauseLen (s : State) : (s.strictAbort).pauseLen = s.pauseLen := rfl
@[simp] theorem State.strictAbort_symCount (s : State) : (s.strictAbort).symCount = s.symCount := rfl
@[simp] theorem State.strictAbort_nPairs (s : State) : (s.strictAbort).nPairs = s.nPairs := rfl
@[simp] theorem State.strictAbort_outLen (s : State) : (s.strictAbort).outLen = 0 := rfl
@[simp] theorem State.strictAbort_evtCount (s : State) : (s.strictAbort).evtCount = s.evtCount := rfl
@[simp] theorem State.strictAbort_dbK (s : State) : (s.strictAbort).dbK = s.dbK := rfl
@[simp] theorem State.strictAbort_dbN (s : State) : (s.strictAbort).dbN = s.dbN := rfl
@[simp] theorem State.strictAbort_seqLen (s : State) : (s.strictAbort).seqLen = s.seqLen := rfl
@[simp] theorem State.strictAbort_lut (s : State) : (s.strictAbort).lut = s.lut := rfl
@[simp] theorem State.strictAbort_sym (s : State) : (s.strictAbort).sym = s.sym := rfl
@[simp] theorem State.strictAbort_out (s : State) : (s.strictAbort).out = [] := rfl
@[simp] theorem State.strictAbort_evt (s : State) : (s.strictAbort).evt = s.evt := rfl
@[simp] theorem State.strictAbort_alpha (s : State) : (s.strictAbort).alpha = s.alpha := rfl
@[simp] theorem State.strictAbort_seq (s : State) : (s.strictAbort).seq = s.seq := rfl
@[simp] theorem State.strictAbort_ctr (s : State) : (s.strictAbort).ctr = s.ctr := rfl
@[simp] theorem State.strictAbort_spc (s : State) : (s.strictAbort).spc = s.spc := rfl
@[simp] theorem State.strictAbort_workArray (s : State) : (s.strictAbort).workArray = s.workArray := rfl
@[simp] theorem State.strictAbort_stack (s : State) : (s.strictAbort).stack = s.stack := rfl
@[simp] theorem State.strictAbort_engine (s : State) : (s.strictAbort).engine = .idle := rfl
@[simp] theorem State.strictAbort_host (s : State) : (s.strictAbort).host = s.host := rfl

/-! ### State.loadTable -/

@[simp] theorem State.loadTable_cmd (s : State) (n : Nat) (table : List Byte) : (s.loadTable n table).cmd = s.cmd := rfl
@[simp] theorem State.loadTable_status (s : State) (n : Nat) (table : List Byte) : (s.loadTable n table).status = s.status.setLutValid.succeed := rfl
@[simp] theorem State.loadTable_strict (s : State) (n : Nat) (table : List Byte) : (s.loadTable n table).strict = s.strict := rfl
@[simp] theorem State.loadTable_fs (s : State) (n : Nat) (table : List Byte) : (s.loadTable n table).fs = s.fs := rfl
@[simp] theorem State.loadTable_fc (s : State) (n : Nat) (table : List Byte) : (s.loadTable n table).fc = s.fc := rfl
@[simp] theorem State.loadTable_amp (s : State) (n : Nat) (table : List Byte) : (s.loadTable n table).amp = s.amp := rfl
@[simp] theorem State.loadTable_symbolLen (s : State) (n : Nat) (table : List Byte) : (s.loadTable n table).symbolLen = s.symbolLen := rfl
@[simp] theorem State.loadTable_pauseLen (s : State) (n : Nat) (table : List Byte) : (s.loadTable n table).pauseLen = s.pauseLen := rfl
@[simp] theorem State.loadTable_symCount (s : State) (n : Nat) (table : List Byte) : (s.loadTable n table).symCount = s.symCount := rfl
@[simp] theorem State.loadTable_nPairs (s : State) (n : Nat) (table : List Byte) : (s.loadTable n table).nPairs = some n := rfl
@[simp] theorem State.loadTable_outLen (s : State) (n : Nat) (table : List Byte) : (s.loadTable n table).outLen = s.outLen := rfl
@[simp] theorem State.loadTable_evtCount (s : State) (n : Nat) (table : List Byte) : (s.loadTable n table).evtCount = s.evtCount := rfl
@[simp] theorem State.loadTable_dbK (s : State) (n : Nat) (table : List Byte) : (s.loadTable n table).dbK = s.dbK := rfl
@[simp] theorem State.loadTable_dbN (s : State) (n : Nat) (table : List Byte) : (s.loadTable n table).dbN = s.dbN := rfl
@[simp] theorem State.loadTable_seqLen (s : State) (n : Nat) (table : List Byte) : (s.loadTable n table).seqLen = s.seqLen := rfl
@[simp] theorem State.loadTable_lut (s : State) (n : Nat) (table : List Byte) : (s.loadTable n table).lut = s.lut.write 0 table := rfl
@[simp] theorem State.loadTable_sym (s : State) (n : Nat) (table : List Byte) : (s.loadTable n table).sym = s.sym := rfl
@[simp] theorem State.loadTable_out (s : State) (n : Nat) (table : List Byte) : (s.loadTable n table).out = s.out := rfl
@[simp] theorem State.loadTable_evt (s : State) (n : Nat) (table : List Byte) : (s.loadTable n table).evt = s.evt := rfl
@[simp] theorem State.loadTable_alpha (s : State) (n : Nat) (table : List Byte) : (s.loadTable n table).alpha = s.alpha := rfl
@[simp] theorem State.loadTable_seq (s : State) (n : Nat) (table : List Byte) : (s.loadTable n table).seq = s.seq := rfl
@[simp] theorem State.loadTable_ctr (s : State) (n : Nat) (table : List Byte) : (s.loadTable n table).ctr = s.ctr := rfl
@[simp] theorem State.loadTable_spc (s : State) (n : Nat) (table : List Byte) : (s.loadTable n table).spc = s.spc := rfl
@[simp] theorem State.loadTable_workArray (s : State) (n : Nat) (table : List Byte) : (s.loadTable n table).workArray = s.workArray := rfl
@[simp] theorem State.loadTable_stack (s : State) (n : Nat) (table : List Byte) : (s.loadTable n table).stack = s.stack := rfl
@[simp] theorem State.loadTable_engine (s : State) (n : Nat) (table : List Byte) : (s.loadTable n table).engine = s.engine := rfl
@[simp] theorem State.loadTable_host (s : State) (n : Nat) (table : List Byte) : (s.loadTable n table).host = s.host := rfl

/-! ### State.beginGenerate -/

@[simp] theorem State.beginGenerate_cmd (s : State) : (s.beginGenerate).cmd = s.cmd := rfl
@[simp] theorem State.beginGenerate_status (s : State) : (s.beginGenerate).status = s.status.setMalformed false := rfl
@[simp] theorem State.beginGenerate_strict (s : State) : (s.beginGenerate).strict = s.strict := rfl
@[simp] theorem State.beginGenerate_fs (s : State) : (s.beginGenerate).fs = s.fs := rfl
@[simp] theorem State.beginGenerate_fc (s : State) : (s.beginGenerate).fc = s.fc := rfl
@[simp] theorem State.beginGenerate_amp (s : State) : (s.beginGenerate).amp = s.amp := rfl
@[simp] theorem State.beginGenerate_symbolLen (s : State) : (s.beginGenerate).symbolLen = s.symbolLen := rfl
@[simp] theorem State.beginGenerate_pauseLen (s : State) : (s.beginGenerate).pauseLen = s.pauseLen := rfl
@[simp] theorem State.beginGenerate_symCount (s : State) : (s.beginGenerate).symCount = s.symCount := rfl
@[simp] theorem State.beginGenerate_nPairs (s : State) : (s.beginGenerate).nPairs = s.nPairs := rfl
@[simp] theorem State.beginGenerate_outLen (s : State) : (s.beginGenerate).outLen = 0 := rfl
@[simp] theorem State.beginGenerate_evtCount (s : State) : (s.beginGenerate).evtCount = 0 := rfl
@[simp] theorem State.beginGenerate_dbK (s : State) : (s.beginGenerate).dbK = s.dbK := rfl
@[simp] theorem State.beginGenerate_dbN (s : State) : (s.beginGenerate).dbN = s.dbN := rfl
@[simp] theorem State.beginGenerate_seqLen (s : State) : (s.beginGenerate).seqLen = s.seqLen := rfl
@[simp] theorem State.beginGenerate_lut (s : State) : (s.beginGenerate).lut = s.lut := rfl
@[simp] theorem State.beginGenerate_sym (s : State) : (s.beginGenerate).sym = s.sym := rfl
@[simp] theorem State.beginGenerate_out (s : State) : (s.beginGenerate).out = [] := rfl
@[simp] theorem State.beginGenerate_evt (s : State) : (s.beginGenerate).evt = [] := rfl
@[simp] theorem State.beginGenerate_alpha (s : State) : (s.beginGenerate).alpha = s.alpha := rfl
@[simp] theorem State.beginGenerate_seq (s : State) : (s.beginGenerate).seq = s.seq := rfl
@[simp] theorem State.beginGenerate_ctr (s : State) : (s.beginGenerate).ctr = 0 := rfl
@[simp] theorem State.beginGenerate_spc (s : State) : (s.beginGenerate).spc = 0 := rfl
@[simp] theorem State.beginGenerate_workArray (s : State) : (s.beginGenerate).workArray = s.workArray := rfl
@[simp] theorem State.beginGenerate_stack (s : State) : (s.beginGenerate).stack = s.stack := rfl
@[simp] theorem State.beginGenerate_engine (s : State) : (s.beginGenerate).engine = .generating := rfl
@[simp] theorem State.beginGenerate_host (s : State) : (s.beginGenerate).host = s.host := rfl

/-! ### State.finishGenerate -/

@[simp] theorem State.finishGenerate_cmd (s : State) : (s.finishGenerate).cmd = s.cmd := rfl
@[simp] theorem State.finishGenerate_status (s : State) : (s.finishGenerate).status = (s.status.setOutValid true).succeed := rfl
@[simp] theorem State.finishGenerate_strict (s : State) : (s.finishGenerate).strict = s.strict := rfl
@[simp] theorem State.finishGenerate_fs (s : State) : (s.finishGenerate).fs = s.fs := rfl
@[simp] theorem State.finishGenerate_fc (s : State) : (s.finishGenerate).fc = s.fc := rfl
@[simp] theorem State.finishGenerate_amp (s : State) : (s.finishGenerate).amp = s.amp := rfl
@[simp] theorem State.finishGenerate_symbolLen (s : State) : (s.finishGenerate).symbolLen = s.symbolLen := rfl
@[simp] theorem State.finishGenerate_pauseLen (s : State) : (s.finishGenerate).pauseLen = s.pauseLen := rfl
@[simp] theorem State.finishGenerate_symCount (s : State) : (s.finishGenerate).symCount = s.symCount := rfl
@[simp] theorem State.finishGenerate_nPairs (s : State) : (s.finishGenerate).nPairs = s.nPairs := rfl
@[simp] theorem State.finishGenerate_outLen (s : State) : (s.finishGenerate).outLen = s.outLen := rfl
@[simp] theorem State.finishGenerate_evtCount (s : State) : (s.finishGenerate).evtCount = s.evtCount := rfl
@[simp] theorem State.finishGenerate_dbK (s : State) : (s.finishGenerate).dbK = s.dbK := rfl
@[simp] theorem State.finishGenerate_dbN (s : State) : (s.finishGenerate).dbN = s.dbN := rfl
@[simp] theorem State.finishGenerate_seqLen (s : State) : (s.finishGenerate).seqLen = s.seqLen := rfl
@[simp] theorem State.finishGenerate_lut (s : State) : (s.finishGenerate).lut = s.lut := rfl
@[simp] theorem State.finishGenerate_sym (s : State) : (s.finishGenerate).sym = s.sym := rfl
@[simp] theorem State.finishGenerate_out (s : State) : (s.finishGenerate).out = s.out := rfl
@[simp] theorem State.finishGenerate_evt (s : State) : (s.finishGenerate).evt = s.evt := rfl
@[simp] theorem State.finishGenerate_alpha (s : State) : (s.finishGenerate).alpha = s.alpha := rfl
@[simp] theorem State.finishGenerate_seq (s : State) : (s.finishGenerate).seq = s.seq := rfl
@[simp] theorem State.finishGenerate_ctr (s : State) : (s.finishGenerate).ctr = s.ctr := rfl
@[simp] theorem State.finishGenerate_spc (s : State) : (s.finishGenerate).spc = s.spc := rfl
@[simp] theorem State.finishGenerate_workArray (s : State) : (s.finishGenerate).workArray = s.workArray := rfl
@[simp] theorem State.finishGenerate_stack (s : State) : (s.finishGenerate).stack = s.stack := rfl
@[simp] theorem State.finishGenerate_engine (s : State) : (s.finishGenerate).engine = .idle := rfl
@[simp] theorem State.finishGenerate_host (s : State) : (s.finishGenerate).host = s.host := rfl

/-! ### State.beginDebruijn -/

@[simp] theorem State.beginDebruijn_cmd (s : State) (n : Nat) : (s.beginDebruijn n).cmd = s.cmd := rfl
@[simp] theorem State.beginDebruijn_status (s : State) (n : Nat) : (s.beginDebruijn n).status = s.status := rfl
@[simp] theorem State.beginDebruijn_strict (s : State) (n : Nat) : (s.beginDebruijn n).strict = s.strict := rfl
@[simp] theorem State.beginDebruijn_fs (s : State) (n : Nat) : (s.beginDebruijn n).fs = s.fs := rfl
@[simp] theorem State.beginDebruijn_fc (s : State) (n : Nat) : (s.beginDebruijn n).fc = s.fc := rfl
@[simp] theorem State.beginDebruijn_amp (s : State) (n : Nat) : (s.beginDebruijn n).amp = s.amp := rfl
@[simp] theorem State.beginDebruijn_symbolLen (s : State) (n : Nat) : (s.beginDebruijn n).symbolLen = s.symbolLen := rfl
@[simp] theorem State.beginDebruijn_pauseLen (s : State) (n : Nat) : (s.beginDebruijn n).pauseLen = s.pauseLen := rfl
@[simp] theorem State.beginDebruijn_symCount (s : State) (n : Nat) : (s.beginDebruijn n).symCount = s.symCount := rfl
@[simp] theorem State.beginDebruijn_nPairs (s : State) (n : Nat) : (s.beginDebruijn n).nPairs = s.nPairs := rfl
@[simp] theorem State.beginDebruijn_outLen (s : State) (n : Nat) : (s.beginDebruijn n).outLen = s.outLen := rfl
@[simp] theorem State.beginDebruijn_evtCount (s : State) (n : Nat) : (s.beginDebruijn n).evtCount = s.evtCount := rfl
@[simp] theorem State.beginDebruijn_dbK (s : State) (n : Nat) : (s.beginDebruijn n).dbK = s.dbK := rfl
@[simp] theorem State.beginDebruijn_dbN (s : State) (n : Nat) : (s.beginDebruijn n).dbN = s.dbN := rfl
@[simp] theorem State.beginDebruijn_seqLen (s : State) (n : Nat) : (s.beginDebruijn n).seqLen = 0 := rfl
@[simp] theorem State.beginDebruijn_lut (s : State) (n : Nat) : (s.beginDebruijn n).lut = s.lut := rfl
@[simp] theorem State.beginDebruijn_sym (s : State) (n : Nat) : (s.beginDebruijn n).sym = s.sym := rfl
@[simp] theorem State.beginDebruijn_out (s : State) (n : Nat) : (s.beginDebruijn n).out = s.out := rfl
@[simp] theorem State.beginDebruijn_evt (s : State) (n : Nat) : (s.beginDebruijn n).evt = s.evt := rfl
@[simp] theorem State.beginDebruijn_alpha (s : State) (n : Nat) : (s.beginDebruijn n).alpha = s.alpha := rfl
@[simp] theorem State.beginDebruijn_seq (s : State) (n : Nat) : (s.beginDebruijn n).seq = [] := rfl
@[simp] theorem State.beginDebruijn_ctr (s : State) (n : Nat) : (s.beginDebruijn n).ctr = s.ctr := rfl
@[simp] theorem State.beginDebruijn_spc (s : State) (n : Nat) : (s.beginDebruijn n).spc = s.spc := rfl
@[simp] theorem State.beginDebruijn_workArray (s : State) (n : Nat) : (s.beginDebruijn n).workArray = List.replicate (n + 1) 0 := rfl
@[simp] theorem State.beginDebruijn_stack (s : State) (n : Nat) : (s.beginDebruijn n).stack = [{ t := 1, p := 1, j := none }] := rfl
@[simp] theorem State.beginDebruijn_engine (s : State) (n : Nat) : (s.beginDebruijn n).engine = .covering := rfl
@[simp] theorem State.beginDebruijn_host (s : State) (n : Nat) : (s.beginDebruijn n).host = s.host := rfl

/-! ### State.finishDebruijn -/

@[simp] theorem State.finishDebruijn_cmd (s : State) : (s.finishDebruijn).cmd = s.cmd := rfl
@[simp] theorem State.finishDebruijn_status (s : State) : (s.finishDebruijn).status = s.status.setSeqValid.succeed := rfl
@[simp] theorem State.finishDebruijn_strict (s : State) : (s.finishDebruijn).strict = s.strict := rfl
@[simp] theorem State.finishDebruijn_fs (s : State) : (s.finishDebruijn).fs = s.fs := rfl
@[simp] theorem State.finishDebruijn_fc (s : State) : (s.finishDebruijn).fc = s.fc := rfl
@[simp] theorem State.finishDebruijn_amp (s : State) : (s.finishDebruijn).amp = s.amp := rfl
@[simp] theorem State.finishDebruijn_symbolLen (s : State) : (s.finishDebruijn).symbolLen = s.symbolLen := rfl
@[simp] theorem State.finishDebruijn_pauseLen (s : State) : (s.finishDebruijn).pauseLen = s.pauseLen := rfl
@[simp] theorem State.finishDebruijn_symCount (s : State) : (s.finishDebruijn).symCount = s.symCount := rfl
@[simp] theorem State.finishDebruijn_nPairs (s : State) : (s.finishDebruijn).nPairs = s.nPairs := rfl
@[simp] theorem State.finishDebruijn_outLen (s : State) : (s.finishDebruijn).outLen = s.outLen := rfl
@[simp] theorem State.finishDebruijn_evtCount (s : State) : (s.finishDebruijn).evtCount = s.evtCount := rfl
@[simp] theorem State.finishDebruijn_dbK (s : State) : (s.finishDebruijn).dbK = s.dbK := rfl
@[simp] theorem State.finishDebruijn_dbN (s : State) : (s.finishDebruijn).dbN = s.dbN := rfl
@[simp] theorem State.finishDebruijn_seqLen (s : State) : (s.finishDebruijn).seqLen = s.seqLen := rfl
@[simp] theorem State.finishDebruijn_lut (s : State) : (s.finishDebruijn).lut = s.lut := rfl
@[simp] theorem State.finishDebruijn_sym (s : State) : (s.finishDebruijn).sym = s.sym := rfl
@[simp] theorem State.finishDebruijn_out (s : State) : (s.finishDebruijn).out = s.out := rfl
@[simp] theorem State.finishDebruijn_evt (s : State) : (s.finishDebruijn).evt = s.evt := rfl
@[simp] theorem State.finishDebruijn_alpha (s : State) : (s.finishDebruijn).alpha = s.alpha := rfl
@[simp] theorem State.finishDebruijn_seq (s : State) : (s.finishDebruijn).seq = s.seq := rfl
@[simp] theorem State.finishDebruijn_ctr (s : State) : (s.finishDebruijn).ctr = s.ctr := rfl
@[simp] theorem State.finishDebruijn_spc (s : State) : (s.finishDebruijn).spc = s.spc := rfl
@[simp] theorem State.finishDebruijn_workArray (s : State) : (s.finishDebruijn).workArray = s.workArray := rfl
@[simp] theorem State.finishDebruijn_stack (s : State) : (s.finishDebruijn).stack = s.stack := rfl
@[simp] theorem State.finishDebruijn_engine (s : State) : (s.finishDebruijn).engine = .idle := rfl
@[simp] theorem State.finishDebruijn_host (s : State) : (s.finishDebruijn).host = s.host := rfl

/-! ### State.withWork -/

@[simp] theorem State.withWork_cmd (s : State) (a : List Nat) : (s.withWork a).cmd = s.cmd := rfl
@[simp] theorem State.withWork_status (s : State) (a : List Nat) : (s.withWork a).status = s.status := rfl
@[simp] theorem State.withWork_strict (s : State) (a : List Nat) : (s.withWork a).strict = s.strict := rfl
@[simp] theorem State.withWork_fs (s : State) (a : List Nat) : (s.withWork a).fs = s.fs := rfl
@[simp] theorem State.withWork_fc (s : State) (a : List Nat) : (s.withWork a).fc = s.fc := rfl
@[simp] theorem State.withWork_amp (s : State) (a : List Nat) : (s.withWork a).amp = s.amp := rfl
@[simp] theorem State.withWork_symbolLen (s : State) (a : List Nat) : (s.withWork a).symbolLen = s.symbolLen := rfl
@[simp] theorem State.withWork_pauseLen (s : State) (a : List Nat) : (s.withWork a).pauseLen = s.pauseLen := rfl
@[simp] theorem State.withWork_symCount (s : State) (a : List Nat) : (s.withWork a).symCount = s.symCount := rfl
@[simp] theorem State.withWork_nPairs (s : State) (a : List Nat) : (s.withWork a).nPairs = s.nPairs := rfl
@[simp] theorem State.withWork_outLen (s : State) (a : List Nat) : (s.withWork a).outLen = s.outLen := rfl
@[simp] theorem State.withWork_evtCount (s : State) (a : List Nat) : (s.withWork a).evtCount = s.evtCount := rfl
@[simp] theorem State.withWork_dbK (s : State) (a : List Nat) : (s.withWork a).dbK = s.dbK := rfl
@[simp] theorem State.withWork_dbN (s : State) (a : List Nat) : (s.withWork a).dbN = s.dbN := rfl
@[simp] theorem State.withWork_seqLen (s : State) (a : List Nat) : (s.withWork a).seqLen = s.seqLen := rfl
@[simp] theorem State.withWork_lut (s : State) (a : List Nat) : (s.withWork a).lut = s.lut := rfl
@[simp] theorem State.withWork_sym (s : State) (a : List Nat) : (s.withWork a).sym = s.sym := rfl
@[simp] theorem State.withWork_out (s : State) (a : List Nat) : (s.withWork a).out = s.out := rfl
@[simp] theorem State.withWork_evt (s : State) (a : List Nat) : (s.withWork a).evt = s.evt := rfl
@[simp] theorem State.withWork_alpha (s : State) (a : List Nat) : (s.withWork a).alpha = s.alpha := rfl
@[simp] theorem State.withWork_seq (s : State) (a : List Nat) : (s.withWork a).seq = s.seq := rfl
@[simp] theorem State.withWork_ctr (s : State) (a : List Nat) : (s.withWork a).ctr = s.ctr := rfl
@[simp] theorem State.withWork_spc (s : State) (a : List Nat) : (s.withWork a).spc = s.spc := rfl
@[simp] theorem State.withWork_workArray (s : State) (a : List Nat) : (s.withWork a).workArray = a := rfl
@[simp] theorem State.withWork_stack (s : State) (a : List Nat) : (s.withWork a).stack = [] := rfl
@[simp] theorem State.withWork_engine (s : State) (a : List Nat) : (s.withWork a).engine = s.engine := rfl
@[simp] theorem State.withWork_host (s : State) (a : List Nat) : (s.withWork a).host = s.host := rfl

/-! ### State.withStack -/

@[simp] theorem State.withStack_cmd (s : State) (fs : List Frame) : (s.withStack fs).cmd = s.cmd := rfl
@[simp] theorem State.withStack_status (s : State) (fs : List Frame) : (s.withStack fs).status = s.status := rfl
@[simp] theorem State.withStack_strict (s : State) (fs : List Frame) : (s.withStack fs).strict = s.strict := rfl
@[simp] theorem State.withStack_fs (s : State) (fs : List Frame) : (s.withStack fs).fs = s.fs := rfl
@[simp] theorem State.withStack_fc (s : State) (fs : List Frame) : (s.withStack fs).fc = s.fc := rfl
@[simp] theorem State.withStack_amp (s : State) (fs : List Frame) : (s.withStack fs).amp = s.amp := rfl
@[simp] theorem State.withStack_symbolLen (s : State) (fs : List Frame) : (s.withStack fs).symbolLen = s.symbolLen := rfl
@[simp] theorem State.withStack_pauseLen (s : State) (fs : List Frame) : (s.withStack fs).pauseLen = s.pauseLen := rfl
@[simp] theorem State.withStack_symCount (s : State) (fs : List Frame) : (s.withStack fs).symCount = s.symCount := rfl
@[simp] theorem State.withStack_nPairs (s : State) (fs : List Frame) : (s.withStack fs).nPairs = s.nPairs := rfl
@[simp] theorem State.withStack_outLen (s : State) (fs : List Frame) : (s.withStack fs).outLen = s.outLen := rfl
@[simp] theorem State.withStack_evtCount (s : State) (fs : List Frame) : (s.withStack fs).evtCount = s.evtCount := rfl
@[simp] theorem State.withStack_dbK (s : State) (fs : List Frame) : (s.withStack fs).dbK = s.dbK := rfl
@[simp] theorem State.withStack_dbN (s : State) (fs : List Frame) : (s.withStack fs).dbN = s.dbN := rfl
@[simp] theorem State.withStack_seqLen (s : State) (fs : List Frame) : (s.withStack fs).seqLen = s.seqLen := rfl
@[simp] theorem State.withStack_lut (s : State) (fs : List Frame) : (s.withStack fs).lut = s.lut := rfl
@[simp] theorem State.withStack_sym (s : State) (fs : List Frame) : (s.withStack fs).sym = s.sym := rfl
@[simp] theorem State.withStack_out (s : State) (fs : List Frame) : (s.withStack fs).out = s.out := rfl
@[simp] theorem State.withStack_evt (s : State) (fs : List Frame) : (s.withStack fs).evt = s.evt := rfl
@[simp] theorem State.withStack_alpha (s : State) (fs : List Frame) : (s.withStack fs).alpha = s.alpha := rfl
@[simp] theorem State.withStack_seq (s : State) (fs : List Frame) : (s.withStack fs).seq = s.seq := rfl
@[simp] theorem State.withStack_ctr (s : State) (fs : List Frame) : (s.withStack fs).ctr = s.ctr := rfl
@[simp] theorem State.withStack_spc (s : State) (fs : List Frame) : (s.withStack fs).spc = s.spc := rfl
@[simp] theorem State.withStack_workArray (s : State) (fs : List Frame) : (s.withStack fs).workArray = s.workArray := rfl
@[simp] theorem State.withStack_stack (s : State) (fs : List Frame) : (s.withStack fs).stack = fs := rfl
@[simp] theorem State.withStack_engine (s : State) (fs : List Frame) : (s.withStack fs).engine = s.engine := rfl
@[simp] theorem State.withStack_host (s : State) (fs : List Frame) : (s.withStack fs).host = s.host := rfl

/-! ### State.setWork -/

@[simp] theorem State.setWork_cmd (s : State) (t v : Nat) : (s.setWork t v).cmd = s.cmd := rfl
@[simp] theorem State.setWork_status (s : State) (t v : Nat) : (s.setWork t v).status = s.status := rfl
@[simp] theorem State.setWork_strict (s : State) (t v : Nat) : (s.setWork t v).strict = s.strict := rfl
@[simp] theorem State.setWork_fs (s : State) (t v : Nat) : (s.setWork t v).fs = s.fs := rfl
@[simp] theorem State.setWork_fc (s : State) (t v : Nat) : (s.setWork t v).fc = s.fc := rfl
@[simp] theorem State.setWork_amp (s : State) (t v : Nat) : (s.setWork t v).amp = s.amp := rfl
@[simp] theorem State.setWork_symbolLen (s : State) (t v : Nat) : (s.setWork t v).symbolLen = s.symbolLen := rfl
@[simp] theorem State.setWork_pauseLen (s : State) (t v : Nat) : (s.setWork t v).pauseLen = s.pauseLen := rfl
@[simp] theorem State.setWork_symCount (s : State) (t v : Nat) : (s.setWork t v).symCount = s.symCount := rfl
@[simp] theorem State.setWork_nPairs (s : State) (t v : Nat) : (s.setWork t v).nPairs = s.nPairs := rfl
@[simp] theorem State.setWork_outLen (s : State) (t v : Nat) : (s.setWork t v).outLen = s.outLen := rfl
@[simp] theorem State.setWork_evtCount (s : State) (t v : Nat) : (s.setWork t v).evtCount = s.evtCount := rfl
@[simp] theorem State.setWork_dbK (s : State) (t v : Nat) : (s.setWork t v).dbK = s.dbK := rfl
@[simp] theorem State.setWork_dbN (s : State) (t v : Nat) : (s.setWork t v).dbN = s.dbN := rfl
@[simp] theorem State.setWork_seqLen (s : State) (t v : Nat) : (s.setWork t v).seqLen = s.seqLen := rfl
@[simp] theorem State.setWork_lut (s : State) (t v : Nat) : (s.setWork t v).lut = s.lut := rfl
@[simp] theorem State.setWork_sym (s : State) (t v : Nat) : (s.setWork t v).sym = s.sym := rfl
@[simp] theorem State.setWork_out (s : State) (t v : Nat) : (s.setWork t v).out = s.out := rfl
@[simp] theorem State.setWork_evt (s : State) (t v : Nat) : (s.setWork t v).evt = s.evt := rfl
@[simp] theorem State.setWork_alpha (s : State) (t v : Nat) : (s.setWork t v).alpha = s.alpha := rfl
@[simp] theorem State.setWork_seq (s : State) (t v : Nat) : (s.setWork t v).seq = s.seq := rfl
@[simp] theorem State.setWork_ctr (s : State) (t v : Nat) : (s.setWork t v).ctr = s.ctr := rfl
@[simp] theorem State.setWork_spc (s : State) (t v : Nat) : (s.setWork t v).spc = s.spc := rfl
@[simp] theorem State.setWork_workArray (s : State) (t v : Nat) : (s.setWork t v).workArray = s.workArray.set t v := rfl
@[simp] theorem State.setWork_stack (s : State) (t v : Nat) : (s.setWork t v).stack = s.stack := rfl
@[simp] theorem State.setWork_engine (s : State) (t v : Nat) : (s.setWork t v).engine = s.engine := rfl
@[simp] theorem State.setWork_host (s : State) (t v : Nat) : (s.setWork t v).host = s.host := rfl

/-! ### State.writeStrict -/

@[simp] theorem State.writeStrict_cmd (s : State) (b : Bool) : (s.writeStrict b).cmd = s.cmd := rfl
@[simp] theorem State.writeStrict_status (s : State) (b : Bool) : (s.writeStrict b).status = s.status := rfl
@[simp] theorem State.writeStrict_strict (s : State) (b : Bool) : (s.writeStrict b).strict = if Config.hasStrict then b else s.strict := rfl
@[simp] theorem State.writeStrict_fs (s : State) (b : Bool) : (s.writeStrict b).fs = s.fs := rfl
@[simp] theorem State.writeStrict_fc (s : State) (b : Bool) : (s.writeStrict b).fc = s.fc := rfl
@[simp] theorem State.writeStrict_amp (s : State) (b : Bool) : (s.writeStrict b).amp = s.amp := rfl
@[simp] theorem State.writeStrict_symbolLen (s : State) (b : Bool) : (s.writeStrict b).symbolLen = s.symbolLen := rfl
@[simp] theorem State.writeStrict_pauseLen (s : State) (b : Bool) : (s.writeStrict b).pauseLen = s.pauseLen := rfl
@[simp] theorem State.writeStrict_symCount (s : State) (b : Bool) : (s.writeStrict b).symCount = s.symCount := rfl
@[simp] theorem State.writeStrict_nPairs (s : State) (b : Bool) : (s.writeStrict b).nPairs = s.nPairs := rfl
@[simp] theorem State.writeStrict_outLen (s : State) (b : Bool) : (s.writeStrict b).outLen = s.outLen := rfl
@[simp] theorem State.writeStrict_evtCount (s : State) (b : Bool) : (s.writeStrict b).evtCount = s.evtCount := rfl
@[simp] theorem State.writeStrict_dbK (s : State) (b : Bool) : (s.writeStrict b).dbK = s.dbK := rfl
@[simp] theorem State.writeStrict_dbN (s : State) (b : Bool) : (s.writeStrict b).dbN = s.dbN := rfl
@[simp] theorem State.writeStrict_seqLen (s : State) (b : Bool) : (s.writeStrict b).seqLen = s.seqLen := rfl
@[simp] theorem State.writeStrict_lut (s : State) (b : Bool) : (s.writeStrict b).lut = s.lut := rfl
@[simp] theorem State.writeStrict_sym (s : State) (b : Bool) : (s.writeStrict b).sym = s.sym := rfl
@[simp] theorem State.writeStrict_out (s : State) (b : Bool) : (s.writeStrict b).out = s.out := rfl
@[simp] theorem State.writeStrict_evt (s : State) (b : Bool) : (s.writeStrict b).evt = s.evt := rfl
@[simp] theorem State.writeStrict_alpha (s : State) (b : Bool) : (s.writeStrict b).alpha = s.alpha := rfl
@[simp] theorem State.writeStrict_seq (s : State) (b : Bool) : (s.writeStrict b).seq = s.seq := rfl
@[simp] theorem State.writeStrict_ctr (s : State) (b : Bool) : (s.writeStrict b).ctr = s.ctr := rfl
@[simp] theorem State.writeStrict_spc (s : State) (b : Bool) : (s.writeStrict b).spc = s.spc := rfl
@[simp] theorem State.writeStrict_workArray (s : State) (b : Bool) : (s.writeStrict b).workArray = s.workArray := rfl
@[simp] theorem State.writeStrict_stack (s : State) (b : Bool) : (s.writeStrict b).stack = s.stack := rfl
@[simp] theorem State.writeStrict_engine (s : State) (b : Bool) : (s.writeStrict b).engine = s.engine := rfl
@[simp] theorem State.writeStrict_host (s : State) (b : Bool) : (s.writeStrict b).host = s.host := rfl

/-! ### State.hostHas -/

@[simp] theorem State.hostHas_cmd (s : State) (v : HostValue) : (s.hostHas v).cmd = s.cmd := rfl
@[simp] theorem State.hostHas_status (s : State) (v : HostValue) : (s.hostHas v).status = s.status := rfl
@[simp] theorem State.hostHas_strict (s : State) (v : HostValue) : (s.hostHas v).strict = s.strict := rfl
@[simp] theorem State.hostHas_fs (s : State) (v : HostValue) : (s.hostHas v).fs = s.fs := rfl
@[simp] theorem State.hostHas_fc (s : State) (v : HostValue) : (s.hostHas v).fc = s.fc := rfl
@[simp] theorem State.hostHas_amp (s : State) (v : HostValue) : (s.hostHas v).amp = s.amp := rfl
@[simp] theorem State.hostHas_symbolLen (s : State) (v : HostValue) : (s.hostHas v).symbolLen = s.symbolLen := rfl
@[simp] theorem State.hostHas_pauseLen (s : State) (v : HostValue) : (s.hostHas v).pauseLen = s.pauseLen := rfl
@[simp] theorem State.hostHas_symCount (s : State) (v : HostValue) : (s.hostHas v).symCount = s.symCount := rfl
@[simp] theorem State.hostHas_nPairs (s : State) (v : HostValue) : (s.hostHas v).nPairs = s.nPairs := rfl
@[simp] theorem State.hostHas_outLen (s : State) (v : HostValue) : (s.hostHas v).outLen = s.outLen := rfl
@[simp] theorem State.hostHas_evtCount (s : State) (v : HostValue) : (s.hostHas v).evtCount = s.evtCount := rfl
@[simp] theorem State.hostHas_dbK (s : State) (v : HostValue) : (s.hostHas v).dbK = s.dbK := rfl
@[simp] theorem State.hostHas_dbN (s : State) (v : HostValue) : (s.hostHas v).dbN = s.dbN := rfl
@[simp] theorem State.hostHas_seqLen (s : State) (v : HostValue) : (s.hostHas v).seqLen = s.seqLen := rfl
@[simp] theorem State.hostHas_lut (s : State) (v : HostValue) : (s.hostHas v).lut = s.lut := rfl
@[simp] theorem State.hostHas_sym (s : State) (v : HostValue) : (s.hostHas v).sym = s.sym := rfl
@[simp] theorem State.hostHas_out (s : State) (v : HostValue) : (s.hostHas v).out = s.out := rfl
@[simp] theorem State.hostHas_evt (s : State) (v : HostValue) : (s.hostHas v).evt = s.evt := rfl
@[simp] theorem State.hostHas_alpha (s : State) (v : HostValue) : (s.hostHas v).alpha = s.alpha := rfl
@[simp] theorem State.hostHas_seq (s : State) (v : HostValue) : (s.hostHas v).seq = s.seq := rfl
@[simp] theorem State.hostHas_ctr (s : State) (v : HostValue) : (s.hostHas v).ctr = s.ctr := rfl
@[simp] theorem State.hostHas_spc (s : State) (v : HostValue) : (s.hostHas v).spc = s.spc := rfl
@[simp] theorem State.hostHas_workArray (s : State) (v : HostValue) : (s.hostHas v).workArray = s.workArray := rfl
@[simp] theorem State.hostHas_stack (s : State) (v : HostValue) : (s.hostHas v).stack = s.stack := rfl
@[simp] theorem State.hostHas_engine (s : State) (v : HostValue) : (s.hostHas v).engine = s.engine := rfl
@[simp] theorem State.hostHas_host (s : State) (v : HostValue) : (s.hostHas v).host = { s.host with lastRead := some v } := rfl

/-! ### State.withPending -/

@[simp] theorem State.withPending_cmd (s : State) (rest : List HostAction) : (s.withPending rest).cmd = s.cmd := rfl
@[simp] theorem State.withPending_status (s : State) (rest : List HostAction) : (s.withPending rest).status = s.status := rfl
@[simp] theorem State.withPending_strict (s : State) (rest : List HostAction) : (s.withPending rest).strict = s.strict := rfl
@[simp] theorem State.withPending_fs (s : State) (rest : List HostAction) : (s.withPending rest).fs = s.fs := rfl
@[simp] theorem State.withPending_fc (s : State) (rest : List HostAction) : (s.withPending rest).fc = s.fc := rfl
@[simp] theorem State.withPending_amp (s : State) (rest : List HostAction) : (s.withPending rest).amp = s.amp := rfl
@[simp] theorem State.withPending_symbolLen (s : State) (rest : List HostAction) : (s.withPending rest).symbolLen = s.symbolLen := rfl
@[simp] theorem State.withPending_pauseLen (s : State) (rest : List HostAction) : (s.withPending rest).pauseLen = s.pauseLen := rfl
@[simp] theorem State.withPending_symCount (s : State) (rest : List HostAction) : (s.withPending rest).symCount = s.symCount := rfl
@[simp] theorem State.withPending_nPairs (s : State) (rest : List HostAction) : (s.withPending rest).nPairs = s.nPairs := rfl
@[simp] theorem State.withPending_outLen (s : State) (rest : List HostAction) : (s.withPending rest).outLen = s.outLen := rfl
@[simp] theorem State.withPending_evtCount (s : State) (rest : List HostAction) : (s.withPending rest).evtCount = s.evtCount := rfl
@[simp] theorem State.withPending_dbK (s : State) (rest : List HostAction) : (s.withPending rest).dbK = s.dbK := rfl
@[simp] theorem State.withPending_dbN (s : State) (rest : List HostAction) : (s.withPending rest).dbN = s.dbN := rfl
@[simp] theorem State.withPending_seqLen (s : State) (rest : List HostAction) : (s.withPending rest).seqLen = s.seqLen := rfl
@[simp] theorem State.withPending_lut (s : State) (rest : List HostAction) : (s.withPending rest).lut = s.lut := rfl
@[simp] theorem State.withPending_sym (s : State) (rest : List HostAction) : (s.withPending rest).sym = s.sym := rfl
@[simp] theorem State.withPending_out (s : State) (rest : List HostAction) : (s.withPending rest).out = s.out := rfl
@[simp] theorem State.withPending_evt (s : State) (rest : List HostAction) : (s.withPending rest).evt = s.evt := rfl
@[simp] theorem State.withPending_alpha (s : State) (rest : List HostAction) : (s.withPending rest).alpha = s.alpha := rfl
@[simp] theorem State.withPending_seq (s : State) (rest : List HostAction) : (s.withPending rest).seq = s.seq := rfl
@[simp] theorem State.withPending_ctr (s : State) (rest : List HostAction) : (s.withPending rest).ctr = s.ctr := rfl
@[simp] theorem State.withPending_spc (s : State) (rest : List HostAction) : (s.withPending rest).spc = s.spc := rfl
@[simp] theorem State.withPending_workArray (s : State) (rest : List HostAction) : (s.withPending rest).workArray = s.workArray := rfl
@[simp] theorem State.withPending_stack (s : State) (rest : List HostAction) : (s.withPending rest).stack = s.stack := rfl
@[simp] theorem State.withPending_engine (s : State) (rest : List HostAction) : (s.withPending rest).engine = s.engine := rfl
@[simp] theorem State.withPending_host (s : State) (rest : List HostAction) : (s.withPending rest).host = { s.host with pending := rest } := rfl

end Sys2Proof.Machine
end

