-- ==== Sys2Proof/Laws/Ops.lean ====
section
/-! SUPPORT. For each shared operation and each meaning, everything it can do when it answers a next state, and the
induction over GENERATE's loop, each said once. -/

namespace Sys2Proof.Machine

@[simp] theorem andThen_next (s : State) (f : State → Out) : andThen (.next s) f = f s := rfl
@[simp] theorem andThen_fault (r : Fault) (f : State → Out) : andThen (.fault r) f = .fault r := rfl
@[simp] theorem andThen_refused (r : Refusal) (f : State → Out) : andThen (.refused r) f = .refused r := rfl

theorem andThen_eq_next {o : Out} {f : State → Out} {t : State} (h : andThen o f = .next t) :
    ∃ s, o = .next s ∧ f s = .next t := by
  cases o with
  | next s => exact ⟨s, rfl, h⟩
  | fault r => cases h
  | refused r => cases h

@[simp] theorem silence_length (n : Nat) : (silence n).length = n := List.length_replicate

@[simp] theorem phaseIndices_length (ctr se l : Nat) : (phaseIndices ctr se l).length = se := by
  simp [phaseIndices]

theorem State.activeEntries_length {s : State} {se l : Nat} {vs : List Byte} (h : s.activeEntries se l = some vs) :
    vs.length = se := by
  rw [Memory.readAll_length h, phaseIndices_length]

/-- The i-th entry of an ACTIVE symbol (R122). -/
theorem State.activeEntries_get {s : State} {se l : Nat} {vs : List Byte} (h : s.activeEntries se l = some vs) {i : Nat}
    (hi : i < se) : (i + s.ctr) % l < l ∧ s.lut.read ((i + s.ctr) % l) = vs[i]? := by
  have h1 := congrArg (fun l => l[i]?) (Memory.readAll_some.1 h)
  simp only [List.getElem?_map, phaseIndices, List.getElem?_range hi, Option.map_some, Memory.read_below] at h1
  have hv : ∃ v, vs[i]? = some v := ⟨_, List.getElem?_eq_getElem (by rw [State.activeEntries_length h]; exact hi)⟩
  obtain ⟨v, hv⟩ := hv
  rw [hv] at h1 ⊢
  simp only [Option.map_some, Option.some.injEq] at h1
  split at h1
  · exact ⟨by assumption, h1⟩
  · cases h1

/-- Where TABLE_LEN cells are filled, an ACTIVE symbol has all its entries (R59). -/
theorem State.activeEntries_some {s : State} {se l : Nat} (hl : 0 < l) (h : s.lut.Filled l (fun _ => True)) :
    ∃ vs, s.activeEntries se l = some vs := by
  apply Memory.readAll_isSome
  intro i hi
  obtain ⟨j, -, rfl⟩ := List.mem_map.1 hi
  have hlt := Nat.mod_lt (j + s.ctr) hl
  obtain ⟨v, hv, -⟩ := h _ hlt
  rw [Memory.read_below, if_pos hlt, hv]
  rfl

/-- What a symbol can do (R121 to R125, R128). -/
inductive SymbolEffect (s : State) : Symbol → State → Prop
  /-- '1' with its entries. -/
  | active {se l : Nat} {vs : List Byte} : s.symEntries = some se → s.tableLen = some l →
      s.activeEntries se l = some vs → SymbolEffect s .active ((s.appendOut vs).advance se)
  /-- '0'. -/
  | inactive {se : Nat} : s.symEntries = some se → SymbolEffect s .inactive ((s.appendOut (silence se)).advance se)
  /-- 'p'. -/
  | pause {pe : Nat} : s.pauseEntries = some pe → SymbolEffect s .pause ((s.appendOut (silence pe)).advance pe)
  /-- any other character, permissive. -/
  | malformed {c : Byte} : s.strict = false → SymbolEffect s (.malformed c) ((s.reportMalformed c).advance 0)
  /-- any other character, strict. -/
  | abort {c : Byte} : s.strict = true → SymbolEffect s (.malformed c) (s.reportMalformed c).strictAbort
  /-- an operand holds no value. -/
  | noOperand {x : Symbol} : s.symEntries = none ∨ s.tableLen = none ∨ s.pauseEntries = none →
      SymbolEffect s x s.raiseInvalidParameter

theorem execActive_effect {s t : State} (h : execActive s = .next t) : SymbolEffect s .active t := by
  unfold execActive at h
  split at h
  · rename_i se l hse hl
    split at h
    · cases h; exact .active hse hl (by assumption)
    · cases h
  · rename_i hno
    cases h
    apply SymbolEffect.noOperand
    cases hse : s.symEntries with
    | none => exact .inl rfl
    | some se =>
      cases hl : s.tableLen with
      | none => exact .inr (.inl rfl)
      | some l => exact absurd hl (hno se l hse)

theorem execInactive_effect {s t : State} (h : execInactive s = .next t) : SymbolEffect s .inactive t := by
  unfold execInactive at h
  split at h
  · cases h; exact .inactive (by assumption)
  · cases h; exact .noOperand (.inl (by assumption))

theorem execPause_effect {s t : State} (h : execPause s = .next t) : SymbolEffect s .pause t := by
  unfold execPause at h
  split at h
  · cases h; exact .pause (by assumption)
  · cases h; exact .noOperand (.inr (.inr (by assumption)))

theorem execMalformed_effect {c : Byte} {s t : State} (h : execMalformed c s = .next t) :
    SymbolEffect s (.malformed c) t := by
  unfold execMalformed at h
  split at h
  · cases h; exact .abort (by assumption)
  · cases h; exact .malformed (by simp_all)

/-- Everything a symbol step can do when it goes on. -/
theorem symbolStep_effect {x : Symbol} {s t : State} (h : symbolStep x s = .next t) : SymbolEffect s x t := by
  cases x with
  | active => exact execActive_effect h
  | inactive => exact execInactive_effect h
  | pause => exact execPause_effect h
  | malformed c => exact execMalformed_effect h

/-- `exec` of a decoded symbol is its symbol step. -/
theorem exec_toInstr (x : Symbol) (s : State) : exec x.toInstr s = symbolStep x s := by
  cases x <;> rfl

/-- The induction over GENERATE's loop: what holds at its start and is kept by every symbol holds where it ends, after
the last symbol or at the symbol that ended the command. -/
theorem generateLoop_induction {P : State → Prop} (n : Nat)
    (hstep : ∀ s c t, P s → s.engine = .generating → s.sym.read s.spc = some c →
      symbolStep (decodeSymbol c) s = .next t → P t) :
    ∀ {s t : State}, P s → s.engine = .generating → generateLoop n s = .next t →
      ∃ u, P u ∧ ((u.engine = .generating ∧ t = u.finishGenerate) ∨ (u.engine ≠ .generating ∧ t = u)) := by
  induction n with
  | zero =>
    intro s t hs he h
    cases h
    exact ⟨s, hs, .inl ⟨he, rfl⟩⟩
  | succ n ih =>
    intro s t hs he h
    unfold generateLoop at h
    split at h
    · cases h
    · rename_i c hc
      obtain ⟨u, hu, h⟩ := andThen_eq_next h
      have hPu := hstep s c u hs he hc hu
      split at h
      · exact ih hPu (by assumption) h
      · cases h
        exact ⟨_, hPu, .inr ⟨by assumption, rfl⟩⟩

/-- What GENERATE can do (R120). -/
theorem execGenerate_cases {s t : State} (h : execGenerate s = .next t) :
    t = s.raiseInvalidParameter ∨
      ∃ sl pl count, s.status.lutValid = true ∧ s.symbolLen = some sl ∧ s.pauseLen = some pl ∧ s.symCount = some count ∧
        generateLoop count s.beginGenerate = .next t := by
  unfold execGenerate at h
  split at h
  · split at h
    · exact .inr ⟨_, _, _, by assumption, by assumption, by assumption, by assumption, h⟩
    · cases h; exact .inl rfl
  · cases h; exact .inl rfl

/-- What BUILD can do (R90, R91, R98). -/
theorem execBuild_cases {s t : State} (h : execBuild s = .next t) :
    t = s.raiseInvalidParameter ∨
      ∃ fs fc amp, s.fs = some fs ∧ s.fc = some fc ∧ s.amp = some amp ∧ fc.toNat ≠ 0 ∧ 2 * fc.toNat ≤ fs.toNat ∧
        t = s.loadTable (pairCount fs.toNat fc.toNat) (carrierTable fs.toNat fc.toNat amp.toNat) := by
  unfold execBuild at h
  split at h
  · split at h
    · cases h; exact .inl rfl
    · rename_i hc
      cases h
      push Not at hc
      exact .inr ⟨_, _, _, by assumption, by assumption, by assumption, hc.1, hc.2, rfl⟩
  · cases h; exact .inl rfl

/-- What DEBRUIJN can do (R140, R141). -/
theorem execDebruijn_cases {s t : State} (h : execDebruijn s = .next t) :
    t = s.raiseInvalidParameter ∨
      ∃ k n vs, s.dbK = some k ∧ s.dbN = some n ∧ 1 ≤ k ∧ 1 ≤ n ∧
        (s.alpha.below k).readAll (coveringRun k n).indices = some vs ∧
        t = (((s.beginDebruijn n).withWork (coveringRun k n).cells).appendSeq vs).finishDebruijn := by
  unfold execDebruijn at h
  split at h
  · split at h
    · cases h; exact .inl rfl
    · rename_i hkn
      push Not at hkn
      split at h
      · cases h
        exact .inr ⟨_, _, _, by assumption, by assumption, hkn.1, hkn.2, by assumption, rfl⟩
      · cases h
  · cases h; exact .inl rfl

/-- What a turn of DEBRUIJN's stack loop can do (R149). -/
inductive CoveringEffect (k n : Nat) (s : State) : State → Prop
  | finished : s.stack = [] → CoveringEffect k n s s.finishDebruijn
  | emitted {f : Frame} {rest : List Frame} {vs : List Byte} : s.stack = f :: rest → n < f.t → n % f.p = 0 →
      (s.alpha.below k).readAll (emission s.workArray f.p) = some vs →
      CoveringEffect k n s ((s.appendSeq vs).withStack rest)
  | skipped {f : Frame} {rest : List Frame} : s.stack = f :: rest → n < f.t → n % f.p ≠ 0 →
      CoveringEffect k n s (s.withStack rest)
  | started {f : Frame} {rest : List Frame} : s.stack = f :: rest → f.t ≤ n → f.j = none →
      CoveringEffect k n s ((s.setWork f.t (workCell s.workArray (f.t - f.p))).withStack
        ({ t := f.t + 1, p := f.p, j := none } ::
          { f with j := some (workCell s.workArray (f.t - f.p) + 1) } :: rest))
  | looped {f : Frame} {rest : List Frame} {j : Nat} : s.stack = f :: rest → f.t ≤ n → f.j = some j → j < k →
      CoveringEffect k n s ((s.setWork f.t j).withStack
        ({ t := f.t + 1, p := f.t, j := none } :: { f with j := some (j + 1) } :: rest))
  | ended {f : Frame} {rest : List Frame} {j : Nat} : s.stack = f :: rest → f.t ≤ n → f.j = some j → k ≤ j →
      CoveringEffect k n s (s.withStack rest)

theorem coveringTurn_effect {k n : Nat} {s t : State} (h : coveringTurn k n s = .next t) : CoveringEffect k n s t := by
  unfold coveringTurn at h
  split at h
  · cases h; exact .finished (by assumption)
  · rename_i f rest hstack
    split at h
    · split at h
      · split at h
        · cases h; exact .emitted hstack (by assumption) (by assumption) (by assumption)
        · cases h
      · cases h; exact .skipped hstack (by assumption) (by assumption)
    · split at h
      · cases h; exact .started hstack (by omega) (by assumption)
      · split at h
        · cases h; exact .looped hstack (by omega) (by assumption) (by assumption)
        · cases h; exact .ended hstack (by omega) (by assumption) (by omega)

/-- What a turn of GENERATE's loop can do inside the command (R120). -/
theorem symbolFetch_cases {s t : State} (h : symbolFetch s = .next t) :
    (s.symCount = none ∧ t = s.raiseInvalidParameter) ∨
      (∃ count, s.symCount = some count ∧ count ≤ s.spc ∧ t = s.finishGenerate) ∨
        ∃ count c, s.symCount = some count ∧ s.spc < count ∧ s.sym.read s.spc = some c ∧
          symbolStep (decodeSymbol c) s = .next t := by
  unfold symbolFetch at h
  split at h
  · split at h
    · split at h
      · refine .inr (.inr ⟨_, _, by assumption, by assumption, by assumption, ?_⟩)
        rw [← exec_toInstr]
        exact h
      · cases h
    · cases h; exact .inr (.inl ⟨_, by assumption, by omega, rfl⟩)
  · cases h; exact .inl ⟨by assumption, rfl⟩

end Sys2Proof.Machine
end

