-- ==== Sys2Proof/Laws/Host.lean ====
section
/-! SUPPORT. What a step does with the host's next action, register by register. -/

namespace Sys2Proof.Machine

/-- Between commands, with no code in CMD, the step is the host's next action on the state without it. -/
theorem step_eq_hostStep {s : State} {a : HostAction} {rest : List HostAction} (h : s.hostNext a rest) :
    step s = hostStep a (s.withPending rest) := by
  obtain ⟨h1, h2, h3⟩ := h
  simp [step, h1, idleStep, h2, h3]

/-- Every content of a `w`-bit register fits it. -/
@[simp] theorem asBits_toNat {w : Nat} (b : BitVec w) : asBits w (b.toNat : Int) = some b := by
  have := b.isLt
  unfold asBits
  rw [if_pos ⟨by omega, by exact_mod_cast this⟩]
  simp

@[simp] theorem asCount_natCast (n : Nat) : asCount (n : Int) = some n := by simp [asCount]

theorem asBits_eq_none {w : Nat} {v : Int} (h : v < 0 ∨ 2 ^ w ≤ v) : asBits w v = none := if_neg (by omega)

theorem asCount_eq_none {v : Int} (h : v < 0) : asCount v = none := if_neg (by omega)

@[simp] theorem storeOr_some {α : Type} (a : α) (store : α → State) : storeOr (some a) store = .next (store a) := rfl
@[simp] theorem storeOr_none {α : Type} (store : α → State) :
    storeOr none store = .refused .valueOutsideRegister := rfl

/-- A host write to a register other than CMD stores and runs nothing. -/
theorem hostWrite_of_ne {r : Reg} (h : r ≠ .cmd) (v : Int) (s : State) : hostWrite r v s = hostWriteReg r v s :=
  if_neg h

/-- A host write of a code to CMD runs its command on the state without a code (R38). -/
theorem hostWrite_cmd (c : Byte) {s : State} (h : s.cmd = none) :
    hostWrite .cmd c.toNat s = exec (decodeByte .cmd8 c) s := by
  simp only [hostWrite, hostWriteReg, asBits_toNat, storeOr_some, if_pos, andThen_next, runCommand, fetched]
  congr 1
  cases s
  simp only at h
  subst h
  rfl

/-- What a host write that is not of CMD can do: nothing, or one operand register or CTRL.STRICT changes. -/
theorem hostWriteReg_cases {r : Reg} (hr : r ≠ .cmd) {v : Int} {s t : State} (h : hostWriteReg r v s = .next t) :
    t = s ∨ (∃ b, t = s.writeStrict b) ∨ (∃ w, t = { s with fs := some w }) ∨ (∃ w, t = { s with fc := some w }) ∨
      (∃ w, t = { s with amp := some w }) ∨ (∃ w, t = { s with symbolLen := some w }) ∨
      (∃ w, t = { s with pauseLen := some w }) ∨ (∃ n, t = { s with symCount := some n }) ∨
      (∃ n, t = { s with dbK := some n }) ∨ ∃ n, t = { s with dbN := some n } := by
  cases r <;> simp only [hostWriteReg, storeOr] at h
  case cmd => exact absurd rfl hr
  all_goals first
    | (cases h; exact .inl rfl)
    | (split at h
       · cases h; simp
       · cases h)

/-- A host read of a register gives its number (R24). -/
theorem hostReadReg_of_value {r : Reg} {s : State} {n : Nat} (h : regValue r s = some n) :
    hostReadReg r s = .next (s.hostHas (.number n)) := by simp [hostReadReg, h]

theorem hostReadReg_of_none {r : Reg} {s : State} (h : regValue r s = none) :
    hostReadReg r s = .refused .registerHoldsNoValue := by simp [hostReadReg, h]

/-- A host read of a cell gives its value (R181). -/
theorem hostReadCell_of_value {sp : OutputSpace} {i : Nat} {s : State} {v : HostValue} (h : cellValue sp i s = some v) :
    hostReadCell sp i s = .next (s.hostHas v) := by simp [hostReadCell, h]

theorem hostReadCell_of_none {sp : OutputSpace} {i : Nat} {s : State} (h : cellValue sp i s = none) :
    hostReadCell sp i s = .refused .cellNotReadable := by simp [hostReadCell, h]

/-- What stands in a readable cell of each space (R181). -/
theorem cellValue_lut {s : State} {n : Nat} (hv : s.status.lutValid = true) (hn : s.nPairs = some n) (i : Nat) :
    cellValue .lut i s = if i < 2 * n then (s.lut.read i).map .cell else none := by
  simp only [cellValue, hv, State.tableLen, hn, Option.map_some, Memory.read_below]
  split <;> rfl

theorem cellValue_lut_of_invalid {s : State} (hv : s.status.lutValid = false) (i : Nat) : cellValue .lut i s = none := by
  simp [cellValue, hv]

theorem cellValue_out (i : Nat) (s : State) :
    cellValue .out i s = if i < s.outLen then (s.out.read i).map .cell else none := by
  simp only [cellValue, Memory.read_below]
  split <;> rfl

theorem cellValue_evt (i : Nat) (s : State) :
    cellValue .evt i s = if i < s.evtCount then (s.evt.read i).map .event else none := by
  simp only [cellValue, Memory.read_below]
  split <;> rfl

theorem cellValue_seq (i : Nat) (s : State) :
    cellValue .seq i s = if i < s.seqLen then (s.seq.read i).map .cell else none := by
  simp only [cellValue, Memory.read_below]
  split <;> rfl

end Sys2Proof.Machine
end

