-- ==== Sys2Proof/Laws/PerInstr.lean ====
section
/-! SUPPORT. The family `EncodingRow`: the words of each well-formed instruction lie in its row of
spec/opcode_table.json. -/

namespace Sys2Proof.Laws

/-- What a row of spec/opcode_table.json says of a code byte `c` (30_encoding.md R84): the value of a fixed row
(`c &&& mask = match` with mask 0xFF), or the excluded values of a complement row. -/
def inRow (i : Instr) (c : Byte) : Prop :=
  match i with
  | .active => c &&& 0xFF#8 = 0x31#8
  | .inactive => c &&& 0xFF#8 = 0x30#8
  | .pause => c &&& 0xFF#8 = 0x70#8
  | .malformed _ => c ≠ 0x30#8 ∧ c ≠ 0x31#8 ∧ c ≠ 0x70#8
  | .build => c &&& 0xFF#8 = 0x01#8
  | .generate => c &&& 0xFF#8 = 0x02#8
  | .debruijn => c &&& 0xFF#8 = 0x03#8
  | .reservedCmd _ => c ≠ 0x01#8 ∧ c ≠ 0x02#8 ∧ c ≠ 0x03#8
  | .encode _ _ => False

/-- A well-formed instruction has one code byte, of its row, if it has a format, and none if it has not. -/
def EncodingRow.Statement (i : Instr) : Prop :=
  i.wellFormed = true →
    (encode i).length = (if i.format = none then 0 else 1) ∧ ∀ c ∈ encode i, inRow i c

theorem EncodingRow.active : EncodingRow.Statement .active := fun _ => by simp [encode, Instr.format, inRow]
theorem EncodingRow.inactive : EncodingRow.Statement .inactive := fun _ => by simp [encode, Instr.format, inRow]
theorem EncodingRow.pause : EncodingRow.Statement .pause := fun _ => by simp [encode, Instr.format, inRow]

theorem EncodingRow.malformed (c : Byte) : EncodingRow.Statement (.malformed c) := fun h => by
  simp only [Instr.wellFormed, isMalformedCode, Bool.and_eq_true, decide_eq_true_eq] at h
  simp [encode, Instr.format, inRow, h]

theorem EncodingRow.build : EncodingRow.Statement .build := fun _ => by simp [encode, Instr.format, inRow]
theorem EncodingRow.generate : EncodingRow.Statement .generate := fun _ => by simp [encode, Instr.format, inRow]
theorem EncodingRow.debruijn : EncodingRow.Statement .debruijn := fun _ => by simp [encode, Instr.format, inRow]

theorem EncodingRow.reservedCmd (c : Byte) : EncodingRow.Statement (.reservedCmd c) := fun h => by
  simp only [Instr.wellFormed, isReservedCode, Bool.and_eq_true, decide_eq_true_eq] at h
  simp [encode, Instr.format, inRow, h]

theorem EncodingRow.encode (msg : List Byte) (map : Mapping) : EncodingRow.Statement (.encode msg map) := fun _ => by
  simp [Sys2Proof.encode, Instr.format]

end Sys2Proof.Laws
end

