-- ==== Sys2Proof/Tests/Slice0.lean ====
section
/-! SUPPORT. Tests of the model on values of spec/95_test_vectors.md and of the rules' worked examples, and one witness
for each statement that has hypotheses. -/

namespace Sys2Proof.Tests

open Sys2Proof Sys2Proof.Machine

/-! ### Helpers -/

/-- The carrier table T8 of 40_carrier_table.md R106. -/
def t8 : List Byte := [0, -10, -10, 0, 0, 10, 10, 0].map (BitVec.ofInt 8)

/-- T8 loaded, SYMBOL_LEN = 3, PAUSE_LEN = 1 (42_waveform.md), with CTR = OUT_LEN = 6 entries already appended. -/
def atSix : State :=
  { State.reset with
    status := { Status.reset with lutValid := true }
    lut := Memory.cells 0 t8
    nPairs := some 4
    symbolLen := some 3#32
    pauseLen := some 1#32
    symCount := some 2
    out := Memory.cells 0 (List.replicate 6 0#8)
    outLen := 6
    ctr := 6
    spc := 1
    engine := .generating }

/-- T8 loaded, SYMBOL_LEN = 3, PAUSE_LEN = 1 and the string `cs` in SYM. -/
def withString (cs : List Byte) : State :=
  { State.reset with
    status := { Status.reset with lutValid := true }
    lut := Memory.cells 0 t8
    nPairs := some 4
    symbolLen := some 3#32
    pauseLen := some 1#32
    sym := Memory.cells 0 cs
    symCount := some cs.length }

/-- FS, FC and AMP written. -/
def toBuild (fs fc : Word) (amp : Amplitude) : State :=
  { State.reset with fs := some fs, fc := some fc, amp := some amp }

/-- The alphabet `cs` and the word length `n` written. -/
def toCover (cs : List Byte) (n : Nat) : State :=
  { State.reset with dbK := some cs.length, dbN := some n, alpha := Memory.cells 0 cs }

/-- The reset state with one host action to come. -/
def hostDoes (a : HostAction) : State := State.reset.withPending [a]

/-- A state between commands with every kind of result: the table [0,-10,0,10] of V11, two samples, a report, a sequence. -/
def full : State :=
  { State.reset with
    status := { done := true, err := .none, malformed := true, lutValid := true, outValid := true, seqValid := true }
    lut := [(0, 0#8), (1, 0xF6#8), (2, 0#8), (3, 0x0A#8)]
    nPairs := some 2
    symbolLen := some 1#32
    pauseLen := some 0#32
    sym := [(0, 0x71#8), (1, 0x31#8)]
    symCount := some 2
    out := [(0, 0#8), (1, 0xF6#8)]
    outLen := 2
    evt := [(0, { pos := 0, symc := 0x71#8 })]
    evtCount := 1
    dbK := some 2
    dbN := some 1
    alpha := [(0, 0x30#8), (1, 0x31#8)]
    seq := [(0, 0x30#8), (1, 0x31#8)]
    seqLen := 2 }

/-! ### Ill-formed terms (WellFormed) -/

theorem test_malformed_excludes_the_fixed_symbols : (Instr.malformed 0x31#8).wellFormed = false ∧
    (Instr.malformed 0x30#8).wellFormed = false ∧ (Instr.malformed 0x70#8).wellFormed = false := by decide

theorem test_reserved_excludes_the_commands : (Instr.reservedCmd 0x01#8).wellFormed = false ∧
    (Instr.reservedCmd 0x02#8).wellFormed = false ∧ (Instr.reservedCmd 0x03#8).wellFormed = false := by decide

theorem test_mapping_with_a_key_twice_is_ill_formed :
    (Instr.encode [] [(0x30#8, [0x31#8]), (0x30#8, [])]).wellFormed = false := by decide

/-! ### Decoding: words written out from the tables of 30_encoding.md R70, R73, R76, R77 -/

theorem test_decode_symbols : decodeTableWord 8 0b00110001 = some .active ∧
    decodeTableWord 8 0b00110000 = some .inactive ∧ decodeTableWord 8 0b01110000 = some .pause ∧
    decodeTableWord 8 0b01010000 = some (.malformed 0x50#8) := by decide

theorem test_decode_commands : decodeTableWord 8 0b00000001 = some .build ∧
    decodeTableWord 8 0b00000010 = some .generate ∧ decodeTableWord 8 0b00000011 = some .debruijn ∧
    decodeByte .cmd8 0b00000100#8 = .reservedCmd 0x04#8 ∧ decodeByte .cmd8 0b00000000#8 = .reservedCmd 0#8 := by decide

theorem test_decode_takes_one_byte : decodeTableWord 16 0x31 = none ∧ decodeTableWord 8 0x131 = none ∧
    decode .sym8 [0x31#8, 0x30#8] = some (.active, [0x30#8]) ∧ decode .cmd8 [] = none := by decide

/-- A word placed by `withFetchWord` runs: BUILD right after reset fails with InvalidParameter (V21). -/
theorem test_placed_word_runs :
    (nextOf (step (State.reset.withFetchWord 8 0x01))).map (fun t => t.status.toWord) = some 0x02#7 ∧
      (nextOf (step (State.reset.withFetchWord 8 0x71))).map (fun t => t.evt) =
        some [(0, { pos := 0, symc := 0x71#8 })] := by decide

/-! ### One step of each instruction -/

/-- V1, V68. -/
theorem test_build_V1 : (nextOf (exec .build (toBuild 8 2 10))).map (fun t => (t.lut, t.nPairs, t.status.toWord)) =
    some (Memory.cells 0 t8, some 4, 0x11#7) := by decide +kernel

/-- V12: an odd number of pairs, and the tie 127/2 = 63.5 rounds to 64. -/
theorem test_build_V12 : (nextOf (exec .build (toBuild 3 1 127))).map (fun t => (t.lut, t.nPairs)) =
    some (Memory.cells 0 ([0, -127, -110, 64, 110, 64].map (BitVec.ofInt 8)), some 3) := by decide +kernel

/-- R122's worked example: at CTR = 6 the symbol reads LUT indices 6, 7, 0, 1, 2, 3. -/
theorem test_active_R122 : (nextOf (exec .active atSix)).map (fun t => (t.out.from 6, t.outLen, t.ctr, t.spc)) =
    some (Memory.cells 6 ([10, 0, 0, -10, -10, 0].map (BitVec.ofInt 8)), 12, 12, 2) := by decide

/-- R123's worked example. -/
theorem test_inactive_R123 : (nextOf (exec .inactive atSix)).map (fun t => (t.out.from 6, t.outLen, t.ctr, t.spc)) =
    some (Memory.cells 6 (List.replicate 6 0#8), 12, 12, 2) := by decide

/-- R124's worked example. -/
theorem test_pause_R124 : (nextOf (exec .pause atSix)).map (fun t => (t.out.from 6, t.outLen, t.ctr, t.spc)) =
    some (Memory.cells 6 [0#8, 0#8], 8, 8, 2) := by decide

/-- R125, and P4: 'q' at position 1 is recorded as (1, 0x71), CTR stays 6. -/
theorem test_malformed_R125 :
    (nextOf (exec (.malformed 0x71#8) atSix)).map (fun t => (t.evt, t.evtCount, t.outLen, t.ctr, t.spc)) =
      some ([(0, { pos := 1, symc := 0x71#8 })], 1, 6, 6, 2) := by decide

/-- R128: with CTRL.STRICT = 1 the same symbol ends GENERATE; STATUS as in P4 (0x1C). -/
theorem test_malformed_strict_R128 :
    (nextOf (exec (.malformed 0x71#8) { atSix with strict := true })).map
      (fun t => (t.evtCount, t.outLen, t.status.toWord, t.engine)) = some (1, 0, 0x1C#7, .idle) := by decide

/-- V30: "101". The third symbol starts at T8[12 mod 8]. -/
theorem test_generate_V30 :
    (nextOf (exec .generate (withString [0x31#8, 0x30#8, 0x31#8]))).map (fun t => (t.out, t.evtCount, t.ctr, t.status.toWord)) =
      some (Memory.cells 0 ([0, -10, -10, 0, 0, 10, 0, 0, 0, 0, 0, 0, 0, 10, 10, 0, 0, -10].map (BitVec.ofInt 8)), 0, 18,
        0x31#7) := by decide

/-- V46 and P4: "1q0" in strict mode. -/
theorem test_generate_strict_V46 :
    (nextOf (exec .generate { withString [0x31#8, 0x71#8, 0x30#8] with strict := true })).map
      (fun t => (t.outLen, t.evt, t.status.toWord)) = some (0, [(0, { pos := 1, symc := 0x71#8 })], 0x1C#7) := by decide

/-- V51: "01", n = 3 gives "00010111". -/
theorem test_debruijn_V51 : (nextOf (exec .debruijn (toCover [0x30#8, 0x31#8] 3))).map (fun t => (t.seq, t.seqLen)) =
    some (Memory.cells 0 [0x30#8, 0x30#8, 0x30#8, 0x31#8, 0x30#8, 0x31#8, 0x31#8, 0x31#8], 8) := by decide

/-- V55: "012", n = 2 gives "001021122". -/
theorem test_debruijn_V55 :
    (nextOf (exec .debruijn (toCover [0x30#8, 0x31#8, 0x32#8] 2))).map (fun t => (t.seq, t.status.toWord)) =
      some (Memory.cells 0 [0x30#8, 0x30#8, 0x31#8, 0x30#8, 0x32#8, 0x31#8, 0x31#8, 0x32#8, 0x32#8], 0x41#7) := by
  decide

/-- R116: "0x1" gives "100x110". -/
theorem test_encode_R116 : encodeString [0x30#8, 0x78#8, 0x31#8]
    [(0x30#8, [0x31#8, 0x30#8, 0x30#8]), (0x31#8, [0x31#8, 0x31#8, 0x30#8])] =
      [0x31#8, 0x30#8, 0x30#8, 0x78#8, 0x31#8, 0x31#8, 0x30#8] := by decide

/-- V24 and V25: no rescan, and an empty replacement. -/
theorem test_encode_V24_V25 :
    encodeString [0x61#8, 0x62#8] [(0x61#8, [0x62#8]), (0x62#8, [0x61#8])] = [0x62#8, 0x61#8] ∧
    encodeString [0x61#8, 0x62#8, 0x63#8] [(0x61#8, []), (0x63#8, [0x63#8, 0x63#8])] = [0x62#8, 0x63#8, 0x63#8] := by
  decide

/-- V76. -/
theorem test_reserved_V76 : step (hostDoes (.writeReg .cmd 4)) = .refused (.reservedCommand 4#8) ∧
    step (hostDoes (.writeReg .cmd 0)) = .refused (.reservedCommand 0#8) := ⟨rfl, rfl⟩

/-- V67, V75. -/
theorem test_status_after_reset_and_failed_generate : State.reset.status.toWord = 0#7 ∧
    (nextOf (step (hostDoes (.writeReg .cmd 2)))).map (fun t => t.status.toWord) = some 0x02#7 := by decide

/-! ### Witnesses: concrete states and operands that meet the hypotheses of each statement -/

theorem witness_StepRunsCommandInCmd :
    ({ State.reset with cmd := some 2#8 }).engine = .idle ∧ ({ State.reset with cmd := some 2#8 }).cmd = some 2#8 :=
  ⟨rfl, rfl⟩

theorem witness_StepRunsCommandTheHostWrites :
    (hostDoes (.writeReg .cmd (3#8).toNat)).hostNext (.writeReg .cmd (3#8).toNat) [] := ⟨rfl, rfl, rfl⟩

def atSymbol : State := { withString [0x31#8, 0x71#8] with engine := .generating, spc := 1 }

theorem witness_StepRunsSymbolAtSpc : atSymbol.engine = .generating ∧ atSymbol.symCount = some 2 ∧ atSymbol.spc < 2 ∧
    atSymbol.sym.read atSymbol.spc = some 0x71#8 := by decide

theorem witness_StepRunsEncodeTheHostAsksFor :
    (hostDoes (.encode [0x30#8] [(0x30#8, [])])).hostNext (.encode [0x30#8] [(0x30#8, [])]) [] ∧
      (Instr.encode [0x30#8] [(0x30#8, [])]).wellFormed = true := ⟨⟨rfl, rfl, rfl⟩, by decide⟩

theorem witness_DecodeOfEncodeIsTheInstruction :
    (Instr.malformed 0x71#8).wellFormed = true ∧ (Instr.malformed 0x71#8).format = some .sym8 ∧
    (Instr.reservedCmd 0x04#8).wellFormed = true ∧ (Instr.reservedCmd 0x04#8).format = some .cmd8 := by decide

theorem witness_ReservedCommandIsRefused : (0#8 = 0x00#8 ∨ 0x04#8 ≤ 0#8) ∧ (0x04#8 = 0x00#8 ∨ 0x04#8 ≤ 0x04#8) ∧
    (0xFF#8 = 0x00#8 ∨ 0x04#8 ≤ 0xFF#8) ∧ ({ State.reset with cmd := some 0xFF#8 }).cmd = some 0xFF#8 ∧
    (hostDoes (.writeReg .cmd (4#8).toNat)).hostNext (.writeReg .cmd (4#8).toNat) [] := by
  refine ⟨by decide, by decide, by decide, rfl, rfl, rfl, rfl⟩

theorem witness_BuildFailureChangesOnlyStatus : State.reset.engine = .idle ∧ State.reset.fs = none ∧
    (toBuild 10 0 10).fc = some 0#32 ∧ (toBuild 3 2 10).fs = some 3#32 ∧ (3#32).toNat < 2 * (2#32).toNat := by decide

/-- ReadyToBuild, at FC = FS/2 (V11), at FS/FC = 5/2 (V8) and at the largest FS: for BuildWritesTableAndStatus,
BuildTableIsExact, TableEntriesLieWithinAmplitude, TableStartsAtMinusAmplitude and PairCountIsAtLeastTwo. -/
theorem witness_ReadyToBuild : (toBuild 10 5 10).ReadyToBuild 10 5 10 ∧ (toBuild 5 2 127).ReadyToBuild 5 2 127 ∧
    (toBuild 0xFFFFFFFF#32 1 0).ReadyToBuild 0xFFFFFFFF#32 1 0 := by
  refine ⟨⟨rfl, rfl, rfl, ?_, ?_⟩, ⟨rfl, rfl, rfl, ?_, ?_⟩, ⟨rfl, rfl, rfl, ?_, ?_⟩⟩ <;> decide

theorem witness_HalfTurnNegatesEntries : 0 < 8 ∧ (2 * (2 * 2)) % (2 * 8) = 8 := by decide

theorem withString_table (cs : List Byte) : (withString cs).lut.Filled (2 * 4) (fun _ => True) := by
  have h : ∀ i < 8, ∃ v, Memory.read (Memory.cells 0 t8) i = some v := by decide +kernel
  exact fun i hi => (h i hi).imp fun _ hv => ⟨hv, trivial⟩

theorem witness_ActiveAppendsCarrier : (withString []).symbolLen = some 3#32 ∧ (withString []).nPairs = some 4 ∧ 0 < 4 ∧
    (withString []).lut.Filled (2 * 4) (fun _ => True) := ⟨rfl, rfl, by decide, withString_table _⟩

theorem witness_InactiveAppendsSilence : (withString []).symbolLen = some 3#32 := rfl

theorem witness_PauseAppendsSilence : (withString []).pauseLen = some 1#32 := rfl

/-- For MalformedIsReported and MalformedAbortsInStrictMode. -/
theorem witness_MalformedIsReported : atSix.strict = false ∧ ({ atSix with strict := true }).strict = true := ⟨rfl, rfl⟩

theorem witness_GenerateFailureChangesOnlyStatus : State.reset.engine = .idle ∧ State.reset.status.lutValid = false ∧
    ({ withString [] with symbolLen := none }).symbolLen = none ∧
    ({ withString [] with pauseLen := none }).pauseLen = none ∧
    ({ withString [] with symCount := none }).symCount = none := ⟨rfl, rfl, rfl, rfl, rfl⟩

/-- ReadyToGenerate, for "1q0": for GenerateGatesTheRepeatedTable and GenerateOutputLengthCountsSymbols. -/
theorem witness_ReadyToGenerate :
    (withString [0x31#8, 0x71#8, 0x30#8]).ReadyToGenerate 4 3 1 [0x31#8, 0x71#8, 0x30#8] where
  valid := rfl
  pairs := rfl
  pairs_pos := by decide
  table := withString_table _
  symbolLen := rfl
  pauseLen := rfl
  symbols := ⟨rfl, by decide⟩

theorem witness_GenerateGatesTheRepeatedTable : (withString [0x31#8, 0x71#8, 0x30#8]).strict = false ∧
    reports 0 [0x31#8, 0x70#8, 0x30#8] = [] := ⟨rfl, rfl⟩

theorem witness_GenerateStopsAtFirstMalformedInStrictMode :
    ({ withString [0x31#8, 0x71#8, 0x30#8] with strict := true }).ReadyToGenerate 4 3 1 ([0x31#8] ++ 0x71#8 :: [0x30#8]) ∧
      ({ withString [0x31#8, 0x71#8, 0x30#8] with strict := true }).strict = true ∧ reports 0 [0x31#8] = [] ∧
        isMalformedCode 0x71#8 = true :=
  ⟨{ valid := rfl, pairs := rfl, pairs_pos := by decide, table := withString_table [0x31#8, 0x71#8, 0x30#8], symbolLen := rfl, pauseLen := rfl,
     symbols := ⟨rfl, by decide⟩ }, rfl, rfl, by decide⟩

/-- Two ready states that agree on GENERATE's operands and differ in an earlier result. -/
theorem witness_GenerateForgetsEarlierResults :
    (withString []).ReadyToGenerate 4 3 1 [] ∧
      ({ withString [] with out := [(0, 0#8)], outLen := 1, ctr := 7 }).ReadyToGenerate 4 3 1 [] ∧
        ∀ i < 2 * 4, (withString []).lut.read i = ({ withString [] with out := [(0, 0#8)], outLen := 1, ctr := 7 }).lut.read i :=
  ⟨{ valid := rfl, pairs := rfl, pairs_pos := by decide, table := withString_table [], symbolLen := rfl, pauseLen := rfl,
     symbols := ⟨rfl, by decide⟩ },
   { valid := rfl, pairs := rfl, pairs_pos := by decide, table := withString_table [], symbolLen := rfl, pauseLen := rfl,
     symbols := ⟨rfl, by decide⟩ }, fun _ _ => rfl⟩

theorem witness_GenerateIsTheRunOfItsSymbols : (withString [0x31#8]).status.lutValid = true ∧
    (withString [0x31#8]).symbolLen = some 3#32 ∧ (withString [0x31#8]).pauseLen = some 1#32 ∧
    (withString [0x31#8]).symCount = some 1 := ⟨rfl, rfl, rfl, rfl⟩

theorem witness_DebruijnFailureChangesOnlyStatus : State.reset.engine = .idle ∧ State.reset.dbK = none ∧
    (toCover [] 3).dbK = some 0 ∧ (toCover [0x30#8] 0).dbN = some 0 ∧
    ({ toCover [0x30#8] 3 with dbN := none }).dbN = none := ⟨rfl, rfl, rfl, rfl, rfl⟩

theorem toCover_ready (cs : List Byte) (n : Nat) (hk : 1 ≤ cs.length) (hn : 1 ≤ n) :
    (toCover cs n).ReadyToCover cs.length n where
  alphabetSize := rfl
  wordLength := rfl
  size_pos := hk
  length_pos := hn
  alphabet := fun i hi => ⟨cs[i], by
    show Memory.read (Memory.cells 0 cs) i = _
    rw [Memory.read_cells]
    simp [hi], trivial⟩

/-- ReadyToCover: ("01", 3), one symbol (V60), word length 1 (V54): for the statements about DEBRUIJN's result. -/
theorem witness_ReadyToCover : (toCover [0x30#8, 0x31#8] 3).ReadyToCover 2 3 ∧
    (toCover [0x30#8] 3).ReadyToCover 1 3 ∧ (toCover [0x30#8, 0x31#8, 0x32#8] 1).ReadyToCover 3 1 :=
  ⟨toCover_ready _ _ (by decide) (by decide), toCover_ready _ _ (by decide) (by decide),
    toCover_ready _ _ (by decide) (by decide)⟩

/-- A distinct alphabet, and a word over it: ("01", 3) and "011", which stands at place 4 of V51 and nowhere else. -/
theorem witness_CoveringSequenceHoldsEveryWordOnce : (toCover [0x30#8, 0x31#8] 3).ReadyToCover 2 3 ∧
    (∀ i < 2, ∀ j < 2, (toCover [0x30#8, 0x31#8] 3).alpha.read i = (toCover [0x30#8, 0x31#8] 3).alpha.read j → i = j) ∧
    [0x30#8, 0x31#8, 0x31#8].length = 3 ∧
    (∀ c ∈ [0x30#8, 0x31#8, 0x31#8], ∃ i < 2, (toCover [0x30#8, 0x31#8] 3).alpha.read i = some c) ∧
    ∀ x < 8, cyclicWindow (coveringRun 2 3).indices 3 x = [some 0, some 1, some 1] ↔ x = 4 :=
  ⟨toCover_ready _ _ (by decide) (by decide), by decide, rfl, by decide, by decide⟩

/-- A SYM cell never written after one that is, with SYM_COUNT = 2; an ALPHA cell never written, with DB_K = 2. -/
theorem witness_CommandsRefuseUnwrittenCells :
    ({ withString [0x31#8] with symCount := some 2 }).sym.read 1 = none ∧
    ({ withString [0x31#8] with symCount := some 2 }).sym.Filled 1 (fun c => false = false ∨ isMalformedCode c = false) ∧
    exec .generate { withString [0x31#8] with symCount := some 2 } = .refused .cellHoldsNoValue ∧
    ({ toCover [0x30#8] 1 with dbK := some 2 }).alpha.read 1 = none ∧
    exec .debruijn { toCover [0x30#8] 1 with dbK := some 2 } = .refused .cellHoldsNoValue := by
  refine ⟨rfl, fun i hi => ?_, rfl, rfl, rfl⟩
  have : i = 0 := by omega
  subst this
  exact ⟨_, rfl, .inl rfl⟩

/-- A run of inner steps of DEBRUIJN that goes on: its start, and its end for ("0", 1): for DebruijnStackIsBounded and
WorkArrayStaysInRange. -/
theorem witness_InnerStepsOfDebruijn :
    innerSteps 0 ((toCover [0x30#8] 1).beginDebruijn 1) = .next ((toCover [0x30#8] 1).beginDebruijn 1) ∧
      ((nextOf (innerSteps 5 ((toCover [0x30#8] 1).beginDebruijn 1))).map (fun t => (t.seqLen, t.engine))) =
        some (1, .idle) := ⟨rfl, by decide⟩

theorem hostDoes_next (a : HostAction) : (hostDoes a).hostNext a [] := ⟨rfl, rfl, rfl⟩

theorem witness_HostWritesStoreOperands : (hostDoes (.writeReg .fs (8#32).toNat)).hostNext (.writeReg .fs (8#32).toNat) [] ∧
    (hostDoes (.writeReg .fc (0#32).toNat)).hostNext (.writeReg .fc (0#32).toNat) [] ∧
    (hostDoes (.writeReg .amp (127#7).toNat)).hostNext (.writeReg .amp (127#7).toNat) [] ∧
    (hostDoes (.writeReg .symbolLen (0xFFFFFFFF#32).toNat)).hostNext (.writeReg .symbolLen (0xFFFFFFFF#32).toNat) [] ∧
    (hostDoes (.writeReg .pauseLen (0#32).toNat)).hostNext (.writeReg .pauseLen (0#32).toNat) [] ∧
    (hostDoes (.writeReg .symCount (0 : Nat))).hostNext (.writeReg .symCount (0 : Nat)) [] ∧
    (hostDoes (.writeReg .dbK (0 : Nat))).hostNext (.writeReg .dbK (0 : Nat)) [] ∧
    (hostDoes (.writeReg .dbN (9 : Nat))).hostNext (.writeReg .dbN (9 : Nat)) [] := by
  refine ⟨?_, ?_, ?_, ?_, ?_, ?_, ?_, ?_⟩ <;> exact hostDoes_next _

theorem witness_HostWritesOutsideTheTypeAreRefused :
    (hostDoes (.writeReg .fs (2 ^ 32))).hostNext (.writeReg .fs (2 ^ 32)) [] ∧
    (hostDoes (.writeReg .fc (-1))).hostNext (.writeReg .fc (-1)) [] ∧
    (hostDoes (.writeReg .amp 128)).hostNext (.writeReg .amp 128) [] ∧
    (hostDoes (.writeReg .cmd 256)).hostNext (.writeReg .cmd 256) [] ∧
    (hostDoes (.writeReg .symCount (-1))).hostNext (.writeReg .symCount (-1)) [] :=
  ⟨hostDoes_next _, hostDoes_next _, hostDoes_next _, hostDoes_next _, hostDoes_next _⟩

theorem witness_ReadOnlyRegistersIgnoreWrites : ∀ r ∈ [Reg.status, .nPairs, .outLen, .evtCount, .seqLen],
    (hostDoes (.writeReg r 5)).hostNext (.writeReg r 5) [] := fun _ _ => hostDoes_next _

theorem witness_StrictBitIsHardwiredWithoutStrictMode : ∀ b : Bool,
    (hostDoes (.writeReg .ctrl b.toNat)).hostNext (.writeReg .ctrl b.toNat) [] := fun _ => hostDoes_next _

theorem witness_HostStoresCharactersInOneCell :
    (hostDoes (.writeCell .sym 0 (0xFF#8).toNat)).hostNext (.writeCell .sym 0 (0xFF#8).toNat) [] ∧
    (hostDoes (.writeCell .alpha 0 (0x30#8).toNat)).hostNext (.writeCell .alpha 0 (0x30#8).toNat) [] ∧
    (hostDoes (.writeCell .sym 0 256)).hostNext (.writeCell .sym 0 256) [] :=
  ⟨hostDoes_next _, hostDoes_next _, hostDoes_next _⟩

theorem witness_StatusReadGivesItsFields : (full.withPending [.readReg .status]).hostNext (.readReg .status) [] ∧
    full.status.toWord = 0x79#7 := ⟨⟨rfl, rfl, rfl⟩, by decide⟩

/-- Every register of RegisterReadsGiveTheirValues, holding a value (`full`) and holding none (after reset). -/
theorem witness_RegisterReadsGiveTheirValues : ∀ r : Reg,
    (full.withPending [.readReg r]).hostNext (.readReg r) [] ∧ (hostDoes (.readReg r)).hostNext (.readReg r) [] :=
  fun _ => ⟨⟨rfl, rfl, rfl⟩, hostDoes_next _⟩

theorem full_inv : full.Inv where
  lut_wf := by decide
  sym_wf := by decide
  out_wf := by decide
  evt_wf := by decide
  alpha_wf := by decide
  seq_wf := by decide
  table := fun _ => ⟨2, rfl, by decide, fun i hi => by
    have : i = 0 ∨ i = 1 ∨ i = 2 ∨ i = 3 := by omega
    rcases this with rfl | rfl | rfl | rfl <;> exact ⟨_, rfl, by constructor <;> decide⟩⟩
  out_even := rfl
  out_samples := fun i hi => by
    have hi : i < 2 := hi
    have : i = 0 ∨ i = 1 := by omega
    rcases this with rfl | rfl <;> exact ⟨_, rfl, by constructor <;> decide⟩
  malformed_iff := by decide
  evt_records := fun i hi => by
    have hi : i < 1 := hi
    have : i = 0 := by omega
    subst this
    exact ⟨_, rfl, rfl⟩
  evt_rising := fun e e' _ _ h h' => by
    have : e' < 1 := h'
    omega
  seq_symbols := fun i hi => by
    have hi : i < 2 := hi
    have : i = 0 ∨ i = 1 := by omega
    rcases this with rfl | rfl <;> exact ⟨_, rfl, trivial⟩
  done_err := fun _ => rfl
  no_device_error := by decide
  strict_absent := fun _ => rfl
  generating := fun h => by cases h
  covering := fun h => by cases h

/-- The same state with other host actions to come keeps the invariant. -/
theorem full_inv_pending (as : List HostAction) : (full.withPending as).Inv :=
  ⟨full_inv.lut_wf, full_inv.sym_wf, full_inv.out_wf, full_inv.evt_wf, full_inv.alpha_wf, full_inv.seq_wf, full_inv.table,
    full_inv.out_even, full_inv.out_samples, full_inv.malformed_iff, full_inv.evt_records, full_inv.evt_rising,
    full_inv.seq_symbols, full_inv.done_err, full_inv.no_device_error, full_inv.strict_absent, full_inv.generating,
    full_inv.covering⟩

/-- Inside GENERATE, before the second symbol. -/
def fullGenerating : State := { full with engine := .generating, ctr := 2, spc := 1 }

theorem witness_SymbolsStartOnPairs : fullGenerating.Inv ∧ fullGenerating.engine = .generating :=
  ⟨⟨full_inv.lut_wf, full_inv.sym_wf, full_inv.out_wf, full_inv.evt_wf, full_inv.alpha_wf, full_inv.seq_wf, full_inv.table,
    full_inv.out_even, full_inv.out_samples, full_inv.malformed_iff, full_inv.evt_records, full_inv.evt_rising,
    full_inv.seq_symbols, full_inv.done_err, full_inv.no_device_error, full_inv.strict_absent,
    fun _ => ⟨rfl, rfl, rfl, rfl, rfl, fun e r he hr => by
      have he : e < 1 := he
      have : e = 0 := by omega
      subst this
      cases hr
      decide⟩, fun h => by cases h⟩, rfl⟩

/-- The last readable cell of each space, and the first one that is not. -/
theorem witness_ResultsBelowTheirLengthsAreReadable :
    (∀ as, (full.withPending as).Inv) ∧
    (full.status.lutValid = true ∧ full.nPairs = some 2 ∧ 3 < 2 * 2 ∧ 2 * 2 ≤ 4) ∧
    (1 < full.outLen ∧ full.outLen ≤ 2) ∧ (0 < full.evtCount ∧ full.evtCount ≤ 1) ∧ (1 < full.seqLen ∧ full.seqLen ≤ 2) ∧
    State.reset.status.lutValid = false ∧
    ∀ sp i, (full.withPending [.readCell sp i]).hostNext (.readCell sp i) [] ∧
      (hostDoes (.readCell sp i)).hostNext (.readCell sp i) [] :=
  ⟨full_inv_pending, by decide, by decide, by decide, by decide, rfl, fun _ _ => ⟨⟨rfl, rfl, rfl⟩, hostDoes_next _⟩⟩

/-- R181, U7: the last cell of each space is read as it stands, and the next one is refused. -/
theorem test_cell_reads : step (full.withPending [.readCell .lut 3]) = .next ((full.withPending []).hostHas (.cell 0x0A#8)) ∧
    step (full.withPending [.readCell .evt 0]) =
      .next ((full.withPending []).hostHas (.event { pos := 0, symc := 0x71#8 })) ∧
    step (full.withPending [.readCell .lut 4]) = .refused .cellNotReadable ∧
    step (full.withPending [.readCell .seq 2]) = .refused .cellNotReadable := ⟨rfl, rfl, rfl, rfl⟩

theorem witness_ReadsLeaveOokgenAsItWas :
    step (full.withPending [.readCell .out 1]) = .next ((full.withPending []).hostHas (.cell 0xF6#8)) := rfl

theorem witness_ResetActionResets : (full.withPending [.reset]).hostNext .reset [] := ⟨rfl, rfl, rfl⟩

/-- A step from a state with the invariant that runs a command to its end, GENERATE on `full`: for StepKeepsInvariant and
NoStepFaultsUnderInvariant. -/
theorem witness_StepKeepsInvariant : (full.withPending [.writeReg .cmd 2]).Inv ∧
    (nextOf (step (full.withPending [.writeReg .cmd 2]))).map (fun t => (t.outLen, t.evtCount, t.status.toWord)) =
      some (2, 1, 0x79#7) := ⟨full_inv_pending _, by decide⟩

theorem witness_CommandsRunToCompletion : (full.withPending [.writeReg .cmd 3]).engine = .idle ∧
    (nextOf (step (full.withPending [.writeReg .cmd 3]))).map (fun t => t.seqLen) = some 2 := ⟨rfl, by decide⟩

/-- A step that is no command and no reset, and goes on. -/
theorem witness_ResultsChangeOnlyByTheirCommandOrReset :
    step (full.withPending [.writeReg .seqLen 0]) = .next (full.withPending []) ∧
      ¬(full.withPending [.writeReg .seqLen 0]).isReset ∧ ∀ c, ¬(full.withPending [.writeReg .seqLen 0]).runsCommand c := by
  refine ⟨rfl, ?_, ?_⟩
  · rintro ⟨-, -, rest, h⟩
    cases h
  · rintro c ⟨-, h | ⟨-, rest, h⟩⟩ <;> cases h

/-- A strict-mode abort clears OUT_VALID. -/
theorem witness_ValidFlagsAreClearedOnlyByReset :
    (nextOf (step { full with strict := true, host := { full.host with pending := [.writeReg .cmd 2] } })).map
      (fun t => (t.status.outValid, t.status.lutValid, t.status.err)) = some (false, true, .malformedSymbol) := by decide

/-- For InstructionsKeepHostOperands and EachResultHasOneWriter. -/
theorem witness_InstructionsKeepHostOperands :
    (nextOf (exec .generate (withString [0x71#8]))).isSome ∧ (nextOf (exec .build (toBuild 4 1 1))).isSome ∧
    (nextOf (exec .debruijn (toCover [0x30#8] 1))).isSome := by decide +kernel

theorem witness_CommandsSettleDoneAndErr :
    (nextOf (exec .build (toBuild 4 1 1))).map (fun t => (t.status.done, t.status.err)) = some (true, .none) ∧
    (nextOf (exec .build (toBuild 4 3 1))).map (fun t => (t.status.done, t.status.err)) =
      some (false, .invalidParameter) := by decide +kernel

end Sys2Proof.Tests
end

