-- ==== Sys2Proof/Proofs/Scope.lean ====
section
/-! The two levels of 00_scope.md: a command is one transition for the host (R16), and GENERATE is also the run of its
inner steps (R17). -/

namespace Sys2Proof.Machine

/-! ### A symbol's effect on the command it runs in -/

theorem SymbolEffect.cmd_eq {s t : State} {x : Symbol} (h : SymbolEffect s x t) : t.cmd = s.cmd := by
  cases h <;> rfl

/-- After a symbol the loop stands at the next position of the same string, or the command has ended (R121, R128, R164). -/
theorem SymbolEffect.next_position_or_idle {s t : State} {x : Symbol} (h : SymbolEffect s x t) :
    (t.engine = s.engine ∧ t.symCount = s.symCount ∧ t.spc = s.spc + 1) ∨ t.engine = .idle := by
  cases h with
  | active | inactive | pause | malformed => exact .inl ⟨rfl, rfl, rfl⟩
  | abort | noOperand => exact .inr rfl

/-! ### The inner steps of GENERATE -/

theorem step_of_generating {s : State} (h : s.engine = .generating) : step s = symbolFetch s := by
  simp only [step, h]

theorem symbolFetch_of_end {s : State} (h : s.symCount = some s.spc) : symbolFetch s = .next s.finishGenerate := by
  simp [symbolFetch, h]

theorem symbolFetch_of_unwritten {s : State} {count : Nat} (hcount : s.symCount = some count) (hspc : s.spc < count)
    (hread : s.sym.read s.spc = none) : symbolFetch s = .refused .cellHoldsNoValue := by
  simp [symbolFetch, hcount, hspc, hread]

theorem symbolFetch_of_symbol {s : State} {count : Nat} {c : Byte} (hcount : s.symCount = some count)
    (hspc : s.spc < count) (hread : s.sym.read s.spc = some c) :
    symbolFetch s = symbolStep (decodeSymbol c) s := by
  rw [← exec_toInstr]
  simp only [symbolFetch, hcount, hspc, hread, if_true]
  rfl

theorem innerSteps_of_idle {s : State} (h : s.engine = .idle) (n : Nat) : innerSteps n s = .next s := by
  cases n with
  | zero => rfl
  | succ n => exact if_pos h

theorem innerSteps_succ_of_generating {s : State} (h : s.engine = .generating) (n : Nat) :
    innerSteps (n + 1) s = andThen (symbolFetch s) (innerSteps n) := by
  simp [innerSteps, h, step_of_generating]

theorem generateLoop_succ_of_unwritten {s : State} (hread : s.sym.read s.spc = none) (n : Nat) :
    generateLoop (n + 1) s = .refused .cellHoldsNoValue := by
  simp [generateLoop, hread]

theorem generateLoop_succ_of_symbol {s : State} {c : Byte} (hread : s.sym.read s.spc = some c) (n : Nat) :
    generateLoop (n + 1) s = andThen (symbolStep (decodeSymbol c) s)
      (fun t => if t.engine = .generating then generateLoop n t else .next t) := by
  simp [generateLoop, hread]

/-- With `n` symbols still to come, `n + 1` inner steps do what the loop of GENERATE does: the loop's count and the
distance from SPC to SYM_COUNT fall together. -/
theorem innerSteps_eq_generateLoop (n : Nat) : ∀ {s : State}, s.engine = .generating →
    s.symCount = some (s.spc + n) → innerSteps (n + 1) s = generateLoop n s := by
  induction n with
  | zero =>
    intro s hgen hcount
    rw [innerSteps_succ_of_generating hgen, symbolFetch_of_end hcount]
    rfl
  | succ n ih =>
    intro s hgen hcount
    have hspc : s.spc < s.spc + (n + 1) := by omega
    rw [innerSteps_succ_of_generating hgen]
    cases hread : s.sym.read s.spc with
    | none => rw [symbolFetch_of_unwritten hcount hspc hread, generateLoop_succ_of_unwritten hread, andThen_refused]
    | some c =>
      rw [symbolFetch_of_symbol hcount hspc hread, generateLoop_succ_of_symbol hread]
      cases hstep : symbolStep (decodeSymbol c) s with
      | fault r => rfl
      | refused r => rfl
      | next t =>
        simp only [andThen_next]
        obtain ⟨hengine, hcount', hspc'⟩ | hidle := (symbolStep_effect hstep).next_position_or_idle
        · have hgen' : t.engine = .generating := hengine.trans hgen
          rw [if_pos hgen']
          apply ih hgen'
          rw [hcount', hcount, hspc']
          congr 1
          omega
        · rw [innerSteps_of_idle hidle, hidle, if_neg (by decide)]

theorem execGenerate_of_preconditions {s : State} {sl pl : Word} {count : Nat} (hvalid : s.status.lutValid = true)
    (hsl : s.symbolLen = some sl) (hpl : s.pauseLen = some pl) (hcount : s.symCount = some count) :
    execGenerate s = generateLoop count s.beginGenerate := by
  simp [execGenerate, hvalid, hsl, hpl, hcount]

/-- Settles O30: the loop of GENERATE starts at SPC = 0, SYM_COUNT symbols before its end. -/
theorem generateIsTheRunOfItsSymbols : Obligations.GenerateIsTheRunOfItsSymbols := by
  intro s sl pl count hvalid hsl hpl hcount
  calc innerSteps (count + 1) s.beginGenerate
      = generateLoop count s.beginGenerate :=
        innerSteps_eq_generateLoop count s.beginGenerate_engine (by simp [hcount])
    _ = execGenerate s := (execGenerate_of_preconditions hvalid hsl hpl hcount).symm
    _ = exec .generate s := rfl

/-! ### Commands and host actions end between commands -/

/-- No command is under way and no code stands in CMD: the host's view between two transitions (R16, R38). -/
def State.BetweenCommands (s : State) : Prop := s.engine = .idle ∧ s.cmd = none

theorem State.BetweenCommands.raiseInvalidParameter {s : State} (h : s.BetweenCommands) :
    s.raiseInvalidParameter.BetweenCommands := ⟨rfl, h.2⟩

theorem execBuild_betweenCommands {s t : State} (hs : s.BetweenCommands) (h : execBuild s = .next t) :
    t.BetweenCommands := by
  obtain rfl | ⟨_, _, _, _, _, _, _, _, rfl⟩ := execBuild_cases h
  · exact hs.raiseInvalidParameter
  · exact hs

theorem execDebruijn_betweenCommands {s t : State} (hs : s.BetweenCommands) (h : execDebruijn s = .next t) :
    t.BetweenCommands := by
  obtain rfl | ⟨_, _, _, _, _, _, _, _, rfl⟩ := execDebruijn_cases h
  · exact hs.raiseInvalidParameter
  · exact ⟨rfl, hs.2⟩

/-- What GENERATE's loop keeps until it is left: no code in CMD, and OOKGEN inside GENERATE or back at `idle`. -/
def State.InGenerateOrIdle (s : State) : Prop := (s.engine = .generating ∨ s.engine = .idle) ∧ s.cmd = none

/-- GENERATE's loop is left after its last symbol or at a symbol that ends the command, never inside DEBRUIJN. -/
theorem generateLoop_betweenCommands {n : Nat} {s t : State} (hgen : s.engine = .generating) (hcmd : s.cmd = none)
    (h : generateLoop n s = .next t) : t.BetweenCommands := by
  have hsymbol : ∀ s c t, s.InGenerateOrIdle → s.engine = .generating → s.sym.read s.spc = some c →
      symbolStep (decodeSymbol c) s = .next t → t.InGenerateOrIdle := by
    intro s c t hs hgen _ hstep
    have heffect := symbolStep_effect hstep
    refine ⟨?_, heffect.cmd_eq.trans hs.2⟩
    obtain ⟨hsame, -⟩ | hidle := heffect.next_position_or_idle
    · exact .inl (hsame.trans hgen)
    · exact .inr hidle
  obtain ⟨u, ⟨hengine, hcmd'⟩, ⟨-, rfl⟩ | ⟨hend, rfl⟩⟩ :=
    generateLoop_induction n hsymbol ⟨.inl hgen, hcmd⟩ hgen h
  · exact ⟨rfl, hcmd'⟩
  · exact ⟨hengine.resolve_left hend, hcmd'⟩

theorem execGenerate_betweenCommands {s t : State} (hs : s.BetweenCommands) (h : execGenerate s = .next t) :
    t.BetweenCommands := by
  obtain rfl | ⟨_, _, _, _, _, _, _, hloop⟩ := execGenerate_cases h
  · exact hs.raiseInvalidParameter
  · exact generateLoop_betweenCommands s.beginGenerate_engine hs.2 hloop

/-- A command that answers a next state has run to completion (R16); a reserved code answers none (R77). -/
theorem exec_command_betweenCommands {x : Command} {s t : State} (hs : s.BetweenCommands)
    (h : exec x.toInstr s = .next t) : t.BetweenCommands := by
  cases x with
  | build => exact execBuild_betweenCommands hs h
  | generate => exact execGenerate_betweenCommands hs h
  | debruijn => exact execDebruijn_betweenCommands hs h
  | reserved c => cases h

/-- The run of a code in CMD leaves CMD without a value (R38). -/
theorem runCommand_betweenCommands {s t : State} (hs : s.engine = .idle) (h : runCommand s = .next t) :
    t.BetweenCommands := by
  unfold runCommand at h
  split at h
  · have hrest : State.BetweenCommands { s with cmd := none } := ⟨hs, rfl⟩
    exact exec_command_betweenCommands (x := decodeCommand _) hrest h
  · rename_i hcmd
    cases h
    exact ⟨hs, hcmd⟩

/-- A host write of CMD that goes on has stored a code and run it (R38). -/
theorem hostWrite_cmd_cases {v : Int} {s t : State} (h : hostWrite .cmd v s = .next t) :
    ∃ c, runCommand { s with cmd := some c } = .next t := by
  obtain ⟨u, hu, hrun⟩ := andThen_eq_next h
  simp only [hostWriteReg, storeOr] at hu
  split at hu
  · cases hu; exact ⟨_, hrun⟩
  · cases hu

theorem hostWrite_betweenCommands {r : Reg} {v : Int} {s t : State} (hs : s.BetweenCommands)
    (h : hostWrite r v s = .next t) : t.BetweenCommands := by
  by_cases hr : r = .cmd
  · subst hr
    obtain ⟨c, hrun⟩ := hostWrite_cmd_cases h
    exact runCommand_betweenCommands (s := { s with cmd := some c }) hs.1 hrun
  · rw [hostWrite_of_ne hr] at h
    obtain rfl | ⟨_, rfl⟩ | ⟨_, rfl⟩ | ⟨_, rfl⟩ | ⟨_, rfl⟩ | ⟨_, rfl⟩ | ⟨_, rfl⟩ | ⟨_, rfl⟩ | ⟨_, rfl⟩ | ⟨_, rfl⟩ :=
      hostWriteReg_cases hr h
    all_goals exact hs

/-- What a host read of a register can do (R24, R58). -/
theorem hostReadReg_cases {r : Reg} {s t : State} (h : hostReadReg r s = .next t) : ∃ v, t = s.hostHas v := by
  unfold hostReadReg at h
  split at h
  · cases h; exact ⟨_, rfl⟩
  · cases h

/-- What a host read of a cell can do (R181, R58). -/
theorem hostReadCell_cases {sp : OutputSpace} {i : Nat} {s t : State} (h : hostReadCell sp i s = .next t) :
    ∃ v, t = s.hostHas v := by
  unfold hostReadCell at h
  split at h
  · cases h; exact ⟨_, rfl⟩
  · cases h

/-- What a host write of a cell can do: SYM or ALPHA changes (R32, R35). -/
theorem hostWriteCell_cases {sp : InputSpace} {i c : Nat} {s t : State} (h : hostWriteCell sp i c s = .next t) :
    (∃ m, t = { s with sym := m }) ∨ ∃ m, t = { s with alpha := m } := by
  unfold hostWriteCell at h
  split at h
  · cases sp with
    | sym => cases h; exact .inl ⟨_, rfl⟩
    | alpha => cases h; exact .inr ⟨_, rfl⟩
  · cases h

theorem hostEncode_of_isFunction {map : Mapping} (h : map.isFunction = true) (msg : List Byte) (s : State) :
    hostEncode msg map s = exec (.encode msg map) s := if_pos h

/-- What an ENCODE of the host can do: the host has its string (R110). -/
theorem hostEncode_cases {msg : List Byte} {map : Mapping} {s t : State} (h : hostEncode msg map s = .next t) :
    t = { s with host := { s.host with encoded := some (encodeString msg map) } } := by
  unfold hostEncode at h
  split at h
  · cases h; rfl
  · cases h

theorem hostStep_betweenCommands {a : HostAction} {s t : State} (hs : s.BetweenCommands)
    (h : hostStep a s = .next t) : t.BetweenCommands := by
  cases a with
  | writeReg r v => exact hostWrite_betweenCommands hs h
  | readReg r => obtain ⟨_, rfl⟩ := hostReadReg_cases h; exact hs
  | writeCell sp i c => obtain ⟨_, rfl⟩ | ⟨_, rfl⟩ := hostWriteCell_cases h <;> exact hs
  | readCell sp i => obtain ⟨_, rfl⟩ := hostReadCell_cases h; exact hs
  | encode msg map => obtain rfl := hostEncode_cases h; exact hs
  | reset => cases h; exact ⟨rfl, rfl⟩

theorem idleStep_betweenCommands {s t : State} (hs : s.engine = .idle) (h : idleStep s = .next t) :
    t.BetweenCommands := by
  unfold idleStep at h
  split at h
  · exact runCommand_betweenCommands hs h
  · rename_i hcmd
    split at h
    · cases h; exact ⟨hs, hcmd⟩
    · rename_i rest _
      have hrest : (s.withPending rest).BetweenCommands := ⟨hs, hcmd⟩
      exact hostStep_betweenCommands hrest h

/-- Settles O55: the step of an idle state runs the code in CMD, takes a host action or waits, and each of them ends
between commands. -/
theorem commandsRunToCompletion : Obligations.CommandsRunToCompletion := by
  intro s t hidle h
  rw [step, hidle] at h
  exact idleStep_betweenCommands hidle h

/-! ### ENCODE -/

/-- Settles O6: a well-formed ENCODE has a mapping that is a function, which the host's ENCODE asks for. -/
theorem stepRunsEncodeTheHostAsksFor : Obligations.StepRunsEncodeTheHostAsksFor := by
  intro s msg map rest hnext hwf
  calc step s = hostEncode msg map (s.withPending rest) := step_eq_hostStep hnext
    _ = exec (.encode msg map) (s.withPending rest) := hostEncode_of_isFunction hwf msg _

end Sys2Proof.Machine
end

