-- ==== Sys2Proof/Proofs/State.lean ====
section
/-! The state of 10_state.md: what every step keeps of it (R43), what a command leaves in STATUS and in the operands
(R25, R28), the work array of DEBRUIJN (R26), and the host's access to the registers (R24). -/

namespace Sys2Proof.Machine

/-! ### Filled index spaces -/

theorem Memory.filled_zero {α : Type} (m : Memory α) (ok : α → Prop) : m.Filled 0 ok :=
  fun _ hi => absurd hi (Nat.not_lt_zero _)

/-- An append at the end of a filled space fills it further (00_scope.md R13). -/
theorem Memory.Filled.write {α : Type} {m : Memory α} {n : Nat} {vs : List α} {ok : α → Prop} (hm : m.Filled n ok)
    (hvs : ∀ v ∈ vs, ok v) : (m.write n vs).Filled (n + vs.length) ok := by
  intro i hi
  rcases lt_or_ge i n with hlt | hge
  · rw [Memory.read_write_other _ (.inl hlt)]
    exact hm i hlt
  · rw [Memory.read_write, if_pos ⟨hge, hi⟩, List.getElem?_eq_getElem (by omega)]
    exact ⟨_, rfl, hvs _ (List.getElem_mem _)⟩

/-! ### The carrier table is samples -/

theorem cosScan_le (A u q top : Nat) : cosScan A u q top ≤ top := by
  induction top with
  | zero => exact le_rfl
  | succ m ih =>
    unfold cosScan
    split
    · exact le_rfl
    · exact ih.trans m.le_succ

theorem roundHalfEven_two_le (a : Nat) : roundHalfEven a 2 ≤ a := by
  unfold roundHalfEven
  split_ifs <;> omega

theorem cosRound_le (A u q : Nat) : cosRound A u q ≤ A := by
  unfold cosRound
  split_ifs
  · exact le_rfl
  · exact A.zero_le
  · exact roundHalfEven_two_le A
  · exact cosScan_le A u q A

/-- Every entry of a table lies within its amplitude, in each quadrant (R97). -/
theorem carrierEntry_natAbs_le (A u q : Nat) : (carrierEntry A u q).natAbs ≤ A := by
  unfold carrierEntry
  dsimp only
  split_ifs
  all_goals
    simp only [Int.natAbs_neg, Int.natAbs_natCast]
    exact cosRound_le ..

theorem isSample_sampleCell {v : Int} (hv : v.natAbs ≤ 127) : isSample (sampleCell v) := by
  have hself : (BitVec.ofInt 8 v).toInt = v := by
    rw [BitVec.toInt_ofInt]
    exact Int.bmod_eq_of_le (by omega) (by omega)
  unfold isSample sampleCell
  omega

theorem carrierTable_isSample {FS FC A : Nat} (hA : A ≤ 127) : ∀ c ∈ carrierTable FS FC A, isSample c := by
  intro c hc
  obtain ⟨i, -, hc⟩ := List.mem_flatMap.1 hc
  simp only [List.mem_cons, List.not_mem_nil, or_false] at hc
  rcases hc with rfl | rfl
  · exact isSample_sampleCell ((carrierEntry_natAbs_le ..).trans hA)
  · exact isSample_sampleCell ((carrierEntry_natAbs_le ..).trans hA)

theorem carrierTable_length (FS FC A : Nat) : (carrierTable FS FC A).length = 2 * pairCount FS FC := by
  simp [carrierTable, List.length_flatMap, mul_comm]

theorem div_le_roundHalfEven (a b : Nat) : a / b ≤ roundHalfEven a b := by
  unfold roundHalfEven
  split_ifs <;> omega

/-- R31, R104: a table that BUILD accepts has at least two pairs. -/
theorem two_le_pairCount {FS FC : Nat} (hpos : FC ≠ 0) (hle : 2 * FC ≤ FS) : 2 ≤ pairCount FS FC :=
  calc 2 ≤ FS / FC := (Nat.le_div_iff_mul_le (Nat.pos_of_ne_zero hpos)).2 hle
    _ ≤ pairCount FS FC := div_le_roundHalfEven FS FC

/-! ### The entries of a symbol are whole pairs of samples -/

theorem isSample_zero : isSample 0#8 := by constructor <;> decide

theorem silence_isSample (n : Nat) : ∀ c ∈ silence n, isSample c := by
  intro c hc
  obtain rfl := List.eq_of_mem_replicate hc
  exact isSample_zero

theorem State.symEntries_even {s : State} {se : Nat} (h : s.symEntries = some se) : se % 2 = 0 := by
  obtain ⟨w, -, rfl⟩ := Option.map_eq_some_iff.1 h
  exact Nat.mul_mod_right 2 _

theorem State.pauseEntries_even {s : State} {pe : Nat} (h : s.pauseEntries = some pe) : pe % 2 = 0 := by
  obtain ⟨w, -, rfl⟩ := Option.map_eq_some_iff.1 h
  exact Nat.mul_mod_right 2 _

/-- An ACTIVE symbol takes over the table's cells, so it appends samples where the table holds samples (R122). -/
theorem State.activeEntries_forall {s : State} {se l : Nat} {vs : List Byte} {ok : Byte → Prop}
    (hvs : s.activeEntries se l = some vs) (hlut : s.lut.Filled l ok) : ∀ c ∈ vs, ok c := by
  intro c hc
  obtain ⟨i, hi, rfl⟩ := List.mem_iff_getElem.1 hc
  obtain ⟨hlt, hread⟩ := State.activeEntries_get hvs (i := i) (by rwa [State.activeEntries_length hvs] at hi)
  obtain ⟨v, hv, hok⟩ := hlut _ hlt
  rw [hv, List.getElem?_eq_getElem hi] at hread
  rwa [← Option.some.inj hread]

/-! ### Each operation keeps the invariant -/

/-- A command ends by writing STATUS alone; what it writes there has to agree with R25 and R161 (log 4). -/
theorem State.Inv.endCommand {s : State} {f : Status} (h : s.Inv) (hlut : f.lutValid = s.status.lutValid)
    (hmalformed : f.malformed = s.status.malformed) (hdone : f.done = true → f.err = .none)
    (herr : f.err ≠ .deviceError) : State.Inv { s with status := f, engine := .idle } :=
  { h with
    table := fun hvalid => h.table (hlut.symm.trans hvalid)
    malformed_iff := by simpa only [hmalformed] using h.malformed_iff
    done_err := hdone
    no_device_error := herr
    generating := fun hgen => by cases hgen
    covering := fun hcov => by cases hcov }

theorem State.Inv.raiseInvalidParameter {s : State} (h : s.Inv) : s.raiseInvalidParameter.Inv :=
  h.endCommand rfl rfl (by simp) (by simp)

/-- '1', '0' and 'p' append whole pairs of samples and move CTR and SPC on (R122, R123, R124, R127). -/
theorem State.Inv.appendOut_advance {s : State} {vs : List Byte} {n : Nat} (h : s.Inv) (hgen : s.engine = .generating)
    (hlen : vs.length = n) (heven : n % 2 = 0) (hvs : ∀ c ∈ vs, isSample c) :
    ((s.appendOut vs).advance n).Inv := by
  obtain ⟨hvalid, hsl, hpl, hcount, hctr, hpos⟩ := h.generating hgen
  have hout := h.out_even
  subst hlen
  exact
    { h with
      out_wf := Memory.write_wf h.out_wf _ _
      out_even := by simp only [State.advance_outLen, State.appendOut_outLen]; omega
      out_samples := h.out_samples.write hvs
      generating := fun _ => ⟨hvalid, hsl, hpl, hcount, congrArg (· + vs.length) hctr,
        fun e r he hr => (hpos e r he hr).trans (Nat.lt_succ_self _)⟩ }

/-- What the log reads as after a report: the new record at EVT_COUNT, the others below it (R166). -/
theorem State.reportMalformed_evt_read {s : State} {c : Byte} {e : Nat} {r : EventRecord}
    (he : e < s.evtCount + 1) (hr : (s.reportMalformed c).evt.read e = some r) :
    e < s.evtCount ∧ s.evt.read e = some r ∨ e = s.evtCount ∧ r.pos = s.spc := by
  rw [State.reportMalformed_evt] at hr
  rcases Nat.lt_succ_iff_lt_or_eq.1 he with hlt | rfl
  · rw [Memory.read_write_other _ (.inl hlt)] at hr
    exact .inl ⟨hlt, hr⟩
  · have hnew := Memory.read_write_same s.evt (base := s.evtCount) (vs := [⟨s.spc, c⟩]) (i := 0) (by simp)
    rw [Nat.add_zero, hr] at hnew
    cases hnew
    exact .inr ⟨rfl, rfl⟩

/-- A report is of the symbol at SPC, which stands after all symbols reported so far (R125, R174). -/
theorem State.Inv.reportMalformed_advance {s : State} {c : Byte} (h : s.Inv) (hgen : s.engine = .generating)
    (hc : isMalformedCode c = true) : ((s.reportMalformed c).advance 0).Inv := by
  obtain ⟨hvalid, hsl, hpl, hcount, hctr, hpos⟩ := h.generating hgen
  have hread := fun e r => State.reportMalformed_evt_read (s := s) (c := c) (e := e) (r := r)
  exact
    { h with
      evt_wf := Memory.write_wf h.evt_wf _ _
      malformed_iff := by simp
      evt_records := h.evt_records.write (by simpa using hc)
      evt_rising := by
        intro e e' r r' hlt he' hr hr'
        rw [State.advance_evtCount, State.reportMalformed_evtCount] at he'
        obtain ⟨-, hold⟩ | ⟨rfl, -⟩ := hread e r (by omega) hr
        · obtain ⟨hlt', hold'⟩ | ⟨rfl, hnew⟩ := hread e' r' he' hr'
          · exact h.evt_rising e e' r r' hlt hlt' hold hold'
          · exact (hpos e r hlt hold).trans_eq hnew.symm
        · omega
      generating := by
        refine fun _ => ⟨hvalid, hsl, hpl, hcount, hctr, fun e r he hr => Nat.lt_succ_of_le ?_⟩
        obtain ⟨hlt, hold⟩ | ⟨-, hnew⟩ := hread e r he hr
        · exact (hpos e r hlt hold).le
        · exact hnew.le }

/-- The strict-mode abort keeps the log of the report it follows (R128, R173). -/
theorem State.Inv.reportMalformed_strictAbort {s : State} {c : Byte} (h : s.Inv) (hgen : s.engine = .generating)
    (hc : isMalformedCode c = true) : (s.reportMalformed c).strictAbort.Inv :=
  { h.reportMalformed_advance hgen hc with
    out_wf := Memory.wf_nil
    out_even := rfl
    out_samples := Memory.filled_zero _ _
    done_err := fun hdone => by cases hdone
    no_device_error := by simp
    generating := fun hgen' => by cases hgen'
    covering := fun hcov => by cases hcov }

theorem isMalformedCode_of_decodeSymbol {c x : Byte} (h : decodeSymbol c = .malformed x) :
    isMalformedCode x = true := by
  unfold decodeSymbol at h
  split_ifs at h with hactive hinactive hpause
  cases h
  simp [isMalformedCode, hactive, hinactive, hpause]

/-- Every symbol GENERATE executes keeps the invariant (R121). -/
theorem symbolStep_inv {s t : State} {c : Byte} (h : s.Inv) (hgen : s.engine = .generating)
    (hstep : symbolStep (decodeSymbol c) s = .next t) : t.Inv := by
  have heffect := symbolStep_effect hstep
  generalize hx : decodeSymbol c = x at heffect
  cases heffect with
  | active hse hl hvs =>
    obtain ⟨n, hn, -, hlut⟩ := h.table (h.generating hgen).1
    obtain rfl : 2 * n = _ := by simpa [State.tableLen, hn] using hl
    exact h.appendOut_advance hgen (State.activeEntries_length hvs) (State.symEntries_even hse)
      (State.activeEntries_forall hvs hlut)
  | inactive hse => exact h.appendOut_advance hgen (silence_length _) (State.symEntries_even hse) (silence_isSample _)
  | pause hpe => exact h.appendOut_advance hgen (silence_length _) (State.pauseEntries_even hpe) (silence_isSample _)
  | malformed _ => exact h.reportMalformed_advance hgen (isMalformedCode_of_decodeSymbol hx)
  | abort _ => exact h.reportMalformed_strictAbort hgen (isMalformedCode_of_decodeSymbol hx)
  | noOperand _ => exact h.raiseInvalidParameter

theorem State.Inv.finishGenerate {s : State} (h : s.Inv) : s.finishGenerate.Inv :=
  h.endCommand rfl rfl (by simp) (by simp)

/-- GENERATE starts with OUT and EVT empty, CTR = OUT_LEN = 0, once its preconditions hold (R120, R127). -/
theorem State.Inv.beginGenerate {s : State} (h : s.Inv) (hvalid : s.status.lutValid = true)
    (hsl : s.symbolLen.isSome) (hpl : s.pauseLen.isSome) (hcount : s.symCount.isSome) : s.beginGenerate.Inv :=
  { h with
    out_wf := Memory.wf_nil
    out_even := rfl
    out_samples := Memory.filled_zero _ _
    evt_wf := Memory.wf_nil
    malformed_iff := by simp
    evt_records := Memory.filled_zero _ _
    evt_rising := fun _ _ _ _ _ he' => absurd he' (Nat.not_lt_zero _)
    generating := fun _ => ⟨hvalid, hsl, hpl, hcount, rfl, fun _ _ he => absurd he (Nat.not_lt_zero _)⟩
    covering := fun hcov => by cases hcov }

theorem execGenerate_inv {s t : State} (h : s.Inv) (hexec : execGenerate s = .next t) : t.Inv := by
  obtain rfl | ⟨sl, pl, count, hvalid, hsl, hpl, hcount, hloop⟩ := execGenerate_cases hexec
  · exact h.raiseInvalidParameter
  · have hbegin := h.beginGenerate hvalid (by simp [hsl]) (by simp [hpl]) (by simp [hcount])
    have hsymbol : ∀ s c t, s.Inv → s.engine = .generating → s.sym.read s.spc = some c →
        symbolStep (decodeSymbol c) s = .next t → t.Inv := fun _ _ _ hs hgen _ => symbolStep_inv hs hgen
    obtain ⟨u, hu, ⟨-, rfl⟩ | ⟨-, rfl⟩⟩ := generateLoop_induction count hsymbol hbegin s.beginGenerate_engine hloop
    · exact hu.finishGenerate
    · exact hu

/-- A new table is one of at least two pairs of samples (R43 (a), R97, R98). -/
theorem State.Inv.loadTable {s : State} {n : Nat} {table : List Byte} (h : s.Inv) (hn : 2 ≤ n)
    (hlen : table.length = 2 * n) (htable : ∀ c ∈ table, isSample c) : (s.loadTable n table).Inv :=
  { h with
    lut_wf := Memory.write_wf h.lut_wf _ _
    table := by
      have hfilled := (Memory.filled_zero s.lut isSample).write htable
      rw [Nat.zero_add, hlen] at hfilled
      exact fun _ => ⟨n, rfl, hn, hfilled⟩
    done_err := fun _ => rfl
    no_device_error := by simp
    generating := fun hgen => by
      obtain ⟨-, hrest⟩ := h.generating hgen
      exact ⟨rfl, hrest⟩ }

theorem execBuild_inv {s t : State} (h : s.Inv) (hexec : execBuild s = .next t) : t.Inv := by
  obtain rfl | ⟨fs, fc, amp, -, -, -, hpos, hle, rfl⟩ := execBuild_cases hexec
  · exact h.raiseInvalidParameter
  · have hamp : amp.toNat ≤ 127 := by omega
    exact h.loadTable (two_le_pairCount hpos hle) (carrierTable_length ..) (carrierTable_isSample hamp)

theorem State.Inv.appendSeq {s : State} (h : s.Inv) (vs : List Byte) : (s.appendSeq vs).Inv :=
  { h with
    seq_wf := Memory.write_wf h.seq_wf _ _
    seq_symbols := h.seq_symbols.write fun _ _ => trivial }

theorem State.Inv.finishDebruijn {s : State} (h : s.Inv) : s.finishDebruijn.Inv :=
  h.endCommand rfl rfl (by simp) (by simp)

theorem State.Inv.beginDebruijn {s : State} (h : s.Inv) (n : Nat) (hk : s.dbK.isSome) (hn : s.dbN.isSome) :
    (s.beginDebruijn n).Inv :=
  { h with
    seq_wf := Memory.wf_nil
    seq_symbols := Memory.filled_zero _ _
    generating := fun hgen => by cases hgen
    covering := fun _ => ⟨hk, hn⟩ }

/-- The invariant says nothing of the work array and the stack (log 3). -/
theorem State.Inv.withWork {s : State} (h : s.Inv) (a : List Nat) : (s.withWork a).Inv := { h with }

theorem State.Inv.setWork {s : State} (h : s.Inv) (i v : Nat) : (s.setWork i v).Inv := { h with }

theorem State.Inv.withStack {s : State} (h : s.Inv) (fs : List Frame) : (s.withStack fs).Inv := { h with }

theorem execDebruijn_inv {s t : State} (h : s.Inv) (hexec : execDebruijn s = .next t) : t.Inv := by
  obtain rfl | ⟨k, n, vs, hk, hn, -, -, -, rfl⟩ := execDebruijn_cases hexec
  · exact h.raiseInvalidParameter
  · exact (((h.beginDebruijn n (by simp [hk]) (by simp [hn])).withWork _).appendSeq vs).finishDebruijn

/-- What an inner step of DEBRUIJN can do (R149, R41). -/
theorem coveringStep_cases {s t : State} (h : coveringStep s = .next t) :
    t = s.raiseInvalidParameter ∨ ∃ k n, s.dbK = some k ∧ s.dbN = some n ∧ CoveringEffect k n s t := by
  unfold coveringStep at h
  split at h
  · exact .inr ⟨_, _, by assumption, by assumption, coveringTurn_effect h⟩
  · cases h; exact .inl rfl

theorem coveringStep_inv {s t : State} (h : s.Inv) (hstep : coveringStep s = .next t) : t.Inv := by
  obtain rfl | ⟨k, n, -, -, heffect⟩ := coveringStep_cases hstep
  · exact h.raiseInvalidParameter
  · cases heffect with
    | finished _ => exact h.finishDebruijn
    | emitted _ _ _ _ => exact (h.appendSeq _).withStack _
    | skipped _ _ _ => exact h.withStack _
    | started _ _ _ => exact (h.setWork _ _).withStack _
    | looped _ _ _ _ => exact (h.setWork _ _).withStack _
    | ended _ _ _ _ => exact h.withStack _

theorem symbolFetch_inv {s t : State} (h : s.Inv) (hgen : s.engine = .generating)
    (hstep : symbolFetch s = .next t) : t.Inv := by
  obtain ⟨-, rfl⟩ | ⟨_, -, -, rfl⟩ | ⟨_, _, -, -, -, hsymbol⟩ := symbolFetch_cases hstep
  · exact h.raiseInvalidParameter
  · exact h.finishGenerate
  · exact symbolStep_inv h hgen hsymbol

/-! ### The invariant at reset, and with each action of the host -/

/-- Settles O2: every index space is empty, every flag is 0 and no command is under way. -/
theorem resetMeetsInvariant : Obligations.ResetMeetsInvariant where
  lut_wf := Memory.wf_nil
  sym_wf := Memory.wf_nil
  out_wf := Memory.wf_nil
  evt_wf := Memory.wf_nil
  alpha_wf := Memory.wf_nil
  seq_wf := Memory.wf_nil
  table := fun hvalid => by cases hvalid
  out_even := rfl
  out_samples := Memory.filled_zero _ _
  malformed_iff := by decide
  evt_records := Memory.filled_zero _ _
  evt_rising := fun _ _ _ _ _ he' => absurd he' (Nat.not_lt_zero _)
  seq_symbols := Memory.filled_zero _ _
  done_err := fun _ => rfl
  no_device_error := by decide
  strict_absent := fun _ => rfl
  generating := fun hgen => by cases hgen
  covering := fun hcov => by cases hcov

theorem exec_command_inv {x : Command} {s t : State} (h : s.Inv) (hexec : exec x.toInstr s = .next t) : t.Inv := by
  cases x with
  | build => exact execBuild_inv h hexec
  | generate => exact execGenerate_inv h hexec
  | debruijn => exact execDebruijn_inv h hexec
  | reserved c => cases hexec

theorem runCommand_inv {s t : State} (h : s.Inv) (hrun : runCommand s = .next t) : t.Inv := by
  unfold runCommand at hrun
  split at hrun
  · have hempty : State.Inv { s with cmd := none } := { h with }
    exact exec_command_inv (x := decodeCommand _) hempty hrun
  · cases hrun; exact h

/-- CTRL.STRICT stays 0 where strict mode does not exist (R27). -/
theorem State.Inv.writeStrict {s : State} (h : s.Inv) (b : Bool) : (s.writeStrict b).Inv :=
  { h with
    strict_absent := fun habsent => by
      rw [← h.strict_absent habsent]
      exact if_neg (by simp [habsent]) }

/-- Between commands an operand register may take any value (R28, R29, R32, R35). -/
theorem hostWriteReg_inv {r : Reg} {v : Int} {s t : State} (h : s.Inv) (hidle : s.engine = .idle) (hr : r ≠ .cmd)
    (hwrite : hostWriteReg r v s = .next t) : t.Inv := by
  have hgen : s.engine ≠ .generating := by simp [hidle]
  have hcov : s.engine ≠ .covering := by simp [hidle]
  obtain rfl | ⟨b, rfl⟩ | hoperand := hostWriteReg_cases hr hwrite
  · exact h
  · exact h.writeStrict b
  · obtain ⟨_, rfl⟩ | ⟨_, rfl⟩ | ⟨_, rfl⟩ | ⟨_, rfl⟩ | ⟨_, rfl⟩ | ⟨_, rfl⟩ | ⟨_, rfl⟩ | ⟨_, rfl⟩ := hoperand
    all_goals exact { h with generating := fun hg => absurd hg hgen, covering := fun hc => absurd hc hcov }

theorem hostWrite_inv {r : Reg} {v : Int} {s t : State} (h : s.Inv) (hidle : s.engine = .idle)
    (hwrite : hostWrite r v s = .next t) : t.Inv := by
  by_cases hr : r = .cmd
  · subst hr
    obtain ⟨c, hrun⟩ := hostWrite_cmd_cases hwrite
    have hcode : State.Inv { s with cmd := some c } := { h with }
    exact runCommand_inv hcode hrun
  · rw [hostWrite_of_ne hr] at hwrite
    exact hostWriteReg_inv h hidle hr hwrite

/-- The host's own fields are no part of the invariant (log 6, log 7). -/
theorem State.Inv.withHost {s : State} (h : s.Inv) (side : HostSide) : State.Inv { s with host := side } := { h with }

theorem hostWriteCell_inv {sp : InputSpace} {i c : Nat} {s t : State} (h : s.Inv)
    (hwrite : hostWriteCell sp i c s = .next t) : t.Inv := by
  unfold hostWriteCell at hwrite
  split at hwrite
  · cases sp with
    | sym => cases hwrite; exact { h with sym_wf := Memory.write_wf h.sym_wf _ _ }
    | alpha => cases hwrite; exact { h with alpha_wf := Memory.write_wf h.alpha_wf _ _ }
  · cases hwrite

theorem hostStep_inv {a : HostAction} {s t : State} (h : s.Inv) (hidle : s.engine = .idle)
    (hstep : hostStep a s = .next t) : t.Inv := by
  cases a with
  | writeReg r v => exact hostWrite_inv h hidle hstep
  | readReg r => obtain ⟨_, rfl⟩ := hostReadReg_cases hstep; exact h.withHost _
  | writeCell sp i c => exact hostWriteCell_inv h hstep
  | readCell sp i => obtain ⟨_, rfl⟩ := hostReadCell_cases hstep; exact h.withHost _
  | encode msg map => obtain rfl := hostEncode_cases hstep; exact h.withHost _
  | reset => cases hstep; exact State.Inv.withHost resetMeetsInvariant s.host

theorem idleStep_inv {s t : State} (h : s.Inv) (hidle : s.engine = .idle) (hstep : idleStep s = .next t) :
    t.Inv := by
  unfold idleStep at hstep
  split at hstep
  · exact runCommand_inv h hstep
  · split at hstep
    · cases hstep; exact h
    · rename_i rest _
      exact hostStep_inv (s := s.withPending rest) (h.withHost _) hidle hstep

/-- Settles O53, by the place of the step: between commands, inside GENERATE, inside DEBRUIJN. -/
theorem stepKeepsInvariant : Obligations.StepKeepsInvariant := by
  intro s t h hstep
  unfold step at hstep
  split at hstep
  case h_1 hidle => exact idleStep_inv h hidle hstep
  case h_2 hgen => exact symbolFetch_inv h hgen hstep
  case h_3 => exact coveringStep_inv h hstep

/-! ### No instruction changes what only the host writes -/

/-- The operand registers, CTRL.STRICT, SYM and ALPHA (R27, R28, R29, R32, R35). -/
def State.hostOperands (s : State) :
    Option Word × Option Word × Option Amplitude × Option Word × Option Word × Option Nat × Option Nat × Option Nat ×
      Bool × Memory Byte × Memory Byte :=
  (s.fs, s.fc, s.amp, s.symbolLen, s.pauseLen, s.symCount, s.dbK, s.dbN, s.strict, s.sym, s.alpha)

theorem State.hostOperands_eq_iff {s t : State} : t.hostOperands = s.hostOperands ↔
    t.fs = s.fs ∧ t.fc = s.fc ∧ t.amp = s.amp ∧ t.symbolLen = s.symbolLen ∧ t.pauseLen = s.pauseLen ∧
      t.symCount = s.symCount ∧ t.dbK = s.dbK ∧ t.dbN = s.dbN ∧ t.strict = s.strict ∧ t.sym = s.sym ∧
      t.alpha = s.alpha := by
  simp only [State.hostOperands, Prod.mk.injEq]

theorem SymbolEffect.hostOperands_eq {s t : State} {x : Symbol} (h : SymbolEffect s x t) :
    t.hostOperands = s.hostOperands := by
  cases h <;> rfl

theorem execGenerate_hostOperands {s t : State} (h : execGenerate s = .next t) : t.hostOperands = s.hostOperands := by
  obtain rfl | ⟨_, _, count, -, -, -, -, hloop⟩ := execGenerate_cases h
  · rfl
  · have hsymbol : ∀ u c v, u.hostOperands = s.hostOperands → u.engine = .generating → u.sym.read u.spc = some c →
        symbolStep (decodeSymbol c) u = .next v → v.hostOperands = s.hostOperands :=
      fun _ _ _ hu _ _ hstep => (symbolStep_effect hstep).hostOperands_eq.trans hu
    have hbegin : s.beginGenerate.hostOperands = s.hostOperands := rfl
    obtain ⟨u, hu, ⟨-, rfl⟩ | ⟨-, rfl⟩⟩ := generateLoop_induction count hsymbol hbegin s.beginGenerate_engine hloop
    · exact hu
    · exact hu

theorem exec_symbol_hostOperands {x : Symbol} {s t : State} (h : exec x.toInstr s = .next t) :
    t.hostOperands = s.hostOperands := by
  rw [exec_toInstr] at h
  exact (symbolStep_effect h).hostOperands_eq

theorem exec_hostOperands {i : Instr} {s t : State} (h : exec i s = .next t) : t.hostOperands = s.hostOperands := by
  cases i with
  | active => exact exec_symbol_hostOperands (x := .active) h
  | inactive => exact exec_symbol_hostOperands (x := .inactive) h
  | pause => exact exec_symbol_hostOperands (x := .pause) h
  | malformed c => exact exec_symbol_hostOperands (x := .malformed c) h
  | build => obtain rfl | ⟨_, _, _, -, -, -, -, -, rfl⟩ := execBuild_cases h <;> rfl
  | generate => exact execGenerate_hostOperands h
  | debruijn => obtain rfl | ⟨_, _, _, -, -, -, -, -, rfl⟩ := execDebruijn_cases h <;> rfl
  | reservedCmd c => cases h
  | encode msg map => cases h; rfl

/-- Settles O58, instruction by instruction; GENERATE by induction over its symbols. -/
theorem instructionsKeepHostOperands : Obligations.InstructionsKeepHostOperands :=
  fun _ _ _ h => State.hostOperands_eq_iff.1 (exec_hostOperands h)

/-! ### What a command leaves in DONE and ERR -/

/-- DONE and ERR after a command (R25): an end without a fatal error, or one with its code. -/
def Status.Settled (f : Status) : Prop :=
  (f.done = true ∧ f.err = .none) ∨ (f.done = false ∧ f.err ≠ .none)

theorem Status.settled_succeed (f : Status) : f.succeed.Settled := .inl ⟨rfl, rfl⟩

theorem Status.settled_fail (f : Status) {e : ErrorCode} (he : e ≠ .none) : (f.fail e).Settled := .inr ⟨rfl, he⟩

theorem State.raiseInvalidParameter_settled (s : State) : s.raiseInvalidParameter.status.Settled :=
  Status.settled_fail _ (by decide)

/-- A symbol that ends GENERATE ends it with an error code (R164, R173). -/
theorem SymbolEffect.generating_or_settled {s t : State} {x : Symbol} (h : SymbolEffect s x t)
    (hgen : s.engine = .generating) : t.engine = .generating ∨ t.status.Settled := by
  cases h with
  | active | inactive | pause | malformed => exact .inl hgen
  | abort => exact .inr (Status.settled_fail _ (by decide))
  | noOperand => exact .inr s.raiseInvalidParameter_settled

theorem execGenerate_settled {s t : State} (h : execGenerate s = .next t) : t.status.Settled := by
  obtain rfl | ⟨_, _, count, -, -, -, -, hloop⟩ := execGenerate_cases h
  · exact s.raiseInvalidParameter_settled
  · have hsymbol : ∀ u c v, (u.engine = .generating ∨ u.status.Settled) → u.engine = .generating →
        u.sym.read u.spc = some c → symbolStep (decodeSymbol c) u = .next v →
        v.engine = .generating ∨ v.status.Settled :=
      fun _ _ _ _ hgen _ hstep => (symbolStep_effect hstep).generating_or_settled hgen
    obtain ⟨u, hu, ⟨-, rfl⟩ | ⟨hend, rfl⟩⟩ :=
      generateLoop_induction count hsymbol (.inl s.beginGenerate_engine) s.beginGenerate_engine hloop
    · exact Status.settled_succeed _
    · exact hu.resolve_left hend

/-- Settles O60, command by command. -/
theorem commandsSettleDoneAndErr : Obligations.CommandsSettleDoneAndErr := by
  rintro i s t (rfl | rfl | rfl) h
  · obtain rfl | ⟨_, _, _, -, -, -, -, -, rfl⟩ := execBuild_cases h
    · exact s.raiseInvalidParameter_settled
    · exact Status.settled_succeed _
  · exact execGenerate_settled h
  · obtain rfl | ⟨_, _, _, -, -, -, -, -, rfl⟩ := execDebruijn_cases h
    · exact s.raiseInvalidParameter_settled
    · exact Status.settled_succeed _

/-! ### The work array of DEBRUIJN -/

/-- What holds before and after each inner step of a command holds after any number of them (R17). -/
theorem innerSteps_induction {P : State → Prop}
    (hstep : ∀ s t, P s → s.engine ≠ .idle → step s = .next t → P t) (m : Nat) :
    ∀ {s t : State}, P s → innerSteps m s = .next t → P t := by
  induction m with
  | zero => intro s t hs h; cases h; exact hs
  | succ m ih =>
    intro s t hs h
    unfold innerSteps at h
    split at h
    · cases h; exact hs
    · obtain ⟨u, hu, hrest⟩ := andThen_eq_next h
      exact ih (hstep s u hs (by assumption) hu) hrest

/-- A cell after `a[t] <- v`: the value written, or as before; a write outside the array does nothing (log 3). -/
theorem workCell_set (a : List Nat) (t v i : Nat) :
    workCell (a.set t v) i = if t = i ∧ i < a.length then v else workCell a i := by
  simp only [workCell, List.getD_eq_getElem?_getD]
  by_cases hti : t = i
  · subst hti
    by_cases hlt : t < a.length
    · simp [hlt]
    · simp [hlt]
  · simp [hti]

/-- The contents R26 gives the work array: n + 1 symbol indices, a[0] being 0. -/
structure WorkInRange (k n : Nat) (a : List Nat) : Prop where
  length : a.length = n + 1
  zero : workCell a 0 = 0
  below : ∀ i, workCell a i < k

theorem workInRange_replicate {k : Nat} (hk : 1 ≤ k) (n : Nat) : WorkInRange k n (List.replicate (n + 1) 0) := by
  have hzero : ∀ i, workCell (List.replicate (n + 1) 0) i = 0 := by
    intro i
    simp only [workCell, List.getD_eq_getElem?_getD, List.getElem?_replicate]
    split <;> rfl
  exact ⟨List.length_replicate, hzero 0, fun i => by rw [hzero]; exact hk⟩

/-- `a[0]` is never written, and a cell takes an index below k (R142, R147). -/
theorem WorkInRange.set {k n t v : Nat} {a : List Nat} (h : WorkInRange k n a) (ht : 1 ≤ t) (hv : v < k) :
    WorkInRange k n (a.set t v) where
  length := by rw [List.length_set, h.length]
  zero := by rw [workCell_set, if_neg (by omega), h.zero]
  below := fun i => by
    rw [workCell_set]
    split
    · exact hv
    · exact h.below i

/-- What every inner step of DEBRUIJN keeps of its operands, its array and its stack: no activation stands at t = 0. -/
structure State.CoversInRange (k n : Nat) (s : State) : Prop where
  alphabetSize : s.dbK = some k
  wordLength : s.dbN = some n
  engine : s.engine ≠ .generating
  work : WorkInRange k n s.workArray
  frames : ∀ f ∈ s.stack, 1 ≤ f.t

theorem CoveringEffect.coversInRange {k n : Nat} {s t : State} (hs : s.CoversInRange k n)
    (h : CoveringEffect k n s t) : t.CoversInRange k n := by
  have hframes : ∀ {f : Frame} {rest : List Frame}, s.stack = f :: rest → 1 ≤ f.t ∧ ∀ g ∈ rest, 1 ≤ g.t :=
    fun hstack => List.forall_mem_cons.1 (hstack ▸ hs.frames)
  cases h with
  | finished _ => exact { hs with engine := by simp }
  | emitted hstack _ _ _ => exact { hs with frames := (hframes hstack).2 }
  | skipped hstack _ _ => exact { hs with frames := (hframes hstack).2 }
  | ended hstack _ _ _ => exact { hs with frames := (hframes hstack).2 }
  | started hstack _ _ =>
    obtain ⟨htop, hrest⟩ := hframes hstack
    exact
      { hs with
        work := hs.work.set htop (hs.work.below _)
        frames := List.forall_mem_cons.2 ⟨Nat.le_add_left .., List.forall_mem_cons.2 ⟨htop, hrest⟩⟩ }
  | looped hstack _ _ hj =>
    obtain ⟨htop, hrest⟩ := hframes hstack
    exact
      { hs with
        work := hs.work.set htop hj
        frames := List.forall_mem_cons.2 ⟨Nat.le_add_left .., List.forall_mem_cons.2 ⟨htop, hrest⟩⟩ }

theorem step_of_covering {s : State} (h : s.engine = .covering) : step s = coveringStep s := by
  simp only [step, h]

theorem step_coversInRange {k n : Nat} {s t : State} (hs : s.CoversInRange k n) (hbusy : s.engine ≠ .idle)
    (h : step s = .next t) : t.CoversInRange k n := by
  have hcov : s.engine = .covering := by
    cases hengine : s.engine with
    | idle => exact absurd hengine hbusy
    | generating => exact absurd hengine hs.engine
    | covering => rfl
  rw [step_of_covering hcov] at h
  obtain rfl | ⟨k', n', hk, hn, heffect⟩ := coveringStep_cases h
  · exact { hs with engine := by simp }
  · obtain rfl : k = k' := Option.some.inj (hs.alphabetSize.symm.trans hk)
    obtain rfl : n = n' := Option.some.inj (hs.wordLength.symm.trans hn)
    exact heffect.coversInRange hs

theorem State.ReadyToCover.beginDebruijn_coversInRange {k n : Nat} {s : State} (h : s.ReadyToCover k n) :
    (s.beginDebruijn n).CoversInRange k n where
  alphabetSize := h.alphabetSize
  wordLength := h.wordLength
  engine := by simp
  work := workInRange_replicate h.size_pos n
  frames := by simp

/-- Settles O37, by induction on the number of inner steps. -/
theorem workArrayStaysInRange : Obligations.WorkArrayStaysInRange := by
  intro s t k n m hready h
  have hkeeps : ∀ u v : State, u.CoversInRange k n → u.engine ≠ .idle → step u = .next v → v.CoversInRange k n :=
    fun _ _ => step_coversInRange
  obtain ⟨hlength, hzero, hbelow⟩ := (innerSteps_induction hkeeps m hready.beginDebruijn_coversInRange h).work
  exact ⟨hlength, hzero, fun i _ => hbelow i⟩

/-! ### Reset, and a code in CMD -/

/-- Settles O1: each clause is a field of the reset state. -/
theorem resetLeavesNoOperandAndNoResult : Obligations.ResetLeavesNoOperandAndNoResult :=
  ⟨rfl, rfl, rfl, rfl, rfl, rfl, rfl, rfl, rfl, rfl, rfl, rfl, rfl, rfl, rfl,
    fun _ => ⟨rfl, rfl, rfl, rfl, rfl, rfl⟩, rfl⟩

theorem runCommand_of_code {s : State} {c : Byte} (h : s.cmd = some c) :
    runCommand s = exec (decodeByte .cmd8 c) { s with cmd := none } := by
  simp only [runCommand, h, fetched]

/-- Settles O3: a code in CMD goes before the host's actions. -/
theorem stepRunsCommandInCmd : Obligations.StepRunsCommandInCmd := by
  intro s c hidle hcmd
  calc step s = runCommand s := by simp only [step, hidle, idleStep, hcmd]
    _ = exec (decodeByte .cmd8 c) { s with cmd := none } := runCommand_of_code hcmd

/-- Settles O4: the write stores the code and runs it. -/
theorem stepRunsCommandTheHostWrites : Obligations.StepRunsCommandTheHostWrites := by
  intro s c rest hnext
  rw [step_eq_hostStep hnext]
  obtain ⟨-, hcmd, -⟩ := hnext
  exact hostWrite_cmd c (s := s.withPending rest) hcmd

/-! ### Host writes to registers -/

theorem step_of_hostWriteReg {s : State} {r : Reg} {v : Int} {rest : List HostAction} (hr : r ≠ .cmd)
    (h : s.hostNext (.writeReg r v) rest) : step s = hostWriteReg r v (s.withPending rest) :=
  (step_eq_hostStep h).trans (hostWrite_of_ne hr v _)

/-- Settles O43: each operand register holds every number of its width. -/
theorem hostWritesStoreOperands : Obligations.HostWritesStoreOperands := by
  intro s rest
  refine ⟨?_, ?_, ?_, ?_, ?_, ?_, ?_, ?_⟩
  all_goals
    intro w hnext
    rw [step_of_hostWriteReg (by decide) hnext]
    simp only [hostWriteReg, asBits_toNat, asCount_natCast, storeOr_some]

/-- A write that cannot be stored is refused before anything runs (U11). -/
theorem hostWrite_of_refused {r : Reg} {v : Int} {s : State} {x : Refusal} (h : hostWriteReg r v s = .refused x) :
    hostWrite r v s = .refused x := by
  by_cases hr : r = .cmd
  · subst hr
    simp only [hostWrite, h, if_true, andThen_refused]
  · rw [hostWrite_of_ne hr, h]

/-- Settles O44, by the type of the register. -/
theorem hostWritesOutsideTheTypeAreRefused : Obligations.HostWritesOutsideTheTypeAreRefused := by
  intro s r v rest hnext hv
  rw [step_eq_hostStep hnext]
  apply hostWrite_of_refused
  obtain ⟨hr, hv⟩ | ⟨rfl, hv⟩ | ⟨rfl, hv⟩ | ⟨hr, hv⟩ := hv
  · have hnone : asBits 32 v = none := asBits_eq_none hv
    rcases hr with rfl | rfl | rfl | rfl <;> simp only [hostWriteReg, hnone, storeOr_none]
  · have hnone : asBits 7 v = none := asBits_eq_none (by omega)
    simp only [hostWriteReg, hnone, storeOr_none]
  · have hnone : asBits 8 v = none := asBits_eq_none (by omega)
    simp only [hostWriteReg, hnone, storeOr_none]
  · have hnone : asCount v = none := asCount_eq_none hv
    rcases hr with rfl | rfl | rfl <;> simp only [hostWriteReg, hnone, storeOr_none]

/-- Settles O45: a write to a read-only register stores nothing. -/
theorem readOnlyRegistersIgnoreWrites : Obligations.ReadOnlyRegistersIgnoreWrites := by
  intro s r v rest hnext hr
  rcases hr with rfl | rfl | rfl | rfl | rfl
  all_goals exact step_of_hostWriteReg (by decide) hnext

theorem asBits_bool (b : Bool) : asBits 1 (b.toNat : Int) = some (BitVec.ofBool b) := by
  rw [← BitVec.toNat_ofBool, asBits_toNat]

/-- Settles O46: the one bit written is bit 0 of CTRL. -/
theorem strictBitIsHardwiredWithoutStrictMode : Obligations.StrictBitIsHardwiredWithoutStrictMode := by
  intro s b rest hnext
  have hbit : (BitVec.ofBool b).getLsbD 0 = b := by cases b <;> rfl
  rw [step_of_hostWriteReg (by decide) hnext]
  simp only [hostWriteReg, asBits_bool, storeOr_some, hbit, State.writeStrict, State.withPending_strict]

/-! ### Host writes to cells -/

theorem Memory.read_write_single {α : Type} (m : Memory α) (i : Nat) (v : α) : (m.write i [v]).read i = some v :=
  Memory.read_write_same m (i := 0) Nat.zero_lt_one

theorem Memory.read_write_single_of_ne {α : Type} (m : Memory α) {i j : Nat} (h : j ≠ i) (v : α) :
    (m.write i [v]).read j = m.read j :=
  Memory.read_write_other m (by simp only [List.length_singleton]; omega)

theorem hostWriteCell_sym (i : Nat) (c : Byte) (s : State) :
    hostWriteCell .sym i c.toNat s = .next { s with sym := s.sym.write i [c] } := by
  simp [hostWriteCell, c.isLt]

theorem hostWriteCell_alpha (i : Nat) (c : Byte) (s : State) :
    hostWriteCell .alpha i c.toNat s = .next { s with alpha := s.alpha.write i [c] } := by
  simp [hostWriteCell, c.isLt]

/-- Settles O47: a write of one cell is a write of a sequence of length 1 (00_scope.md R13). -/
theorem hostStoresCharactersInOneCell : Obligations.HostStoresCharactersInOneCell := by
  intro s i rest
  refine ⟨fun c hnext => ?_, fun c hnext => ?_, fun sp c hc hnext => ?_⟩
  · exact ⟨_, (step_eq_hostStep hnext).trans (hostWriteCell_sym i c _), Memory.read_write_single _ i c,
      fun a ha => Memory.read_write_single_of_ne _ ha c, rfl⟩
  · exact ⟨_, (step_eq_hostStep hnext).trans (hostWriteCell_alpha i c _), Memory.read_write_single _ i c,
      fun a ha => Memory.read_write_single_of_ne _ ha c, rfl⟩
  · exact (step_eq_hostStep hnext).trans (if_neg hc.not_gt)

/-! ### Host reads of registers -/

theorem ErrorCode.code_lt (e : ErrorCode) : e.code < 4 := by cases e <;> decide

/-- Each field of STATUS fits its bits: one each, and two for ERR (R25). -/
theorem Status.field_bounds (f : Status) : f.done.toNat ≤ 1 ∧ f.err.code < 4 ∧ f.malformed.toNat ≤ 1 ∧
    f.lutValid.toNat ≤ 1 ∧ f.outValid.toNat ≤ 1 ∧ f.seqValid.toNat ≤ 1 :=
  ⟨f.done.toNat_le, f.err.code_lt, f.malformed.toNat_le, f.lutValid.toNat_le, f.outValid.toNat_le,
    f.seqValid.toNat_le⟩

/-- The fields of STATUS fill its 7 bits without overlap (R25). -/
theorem Status.toWord_toNat (f : Status) : f.toWord.toNat = f.done.toNat + 2 * f.err.code + 8 * f.malformed.toNat
    + 16 * f.lutValid.toNat + 32 * f.outValid.toNat + 64 * f.seqValid.toNat := by
  have hbounds := f.field_bounds
  rw [Status.toWord, BitVec.toNat_ofNat]
  omega

theorem testBit_eq_of_div_mod {n i : Nat} {b : Bool} (h : n / 2 ^ i % 2 = b.toNat) : n.testBit i = b := by
  rw [Nat.testBit_eq_decide_div_mod_eq, h]
  cases b <;> rfl

/-- Settles O48: each field is the quotient of STATUS's number at its place. -/
theorem statusReadGivesItsFields : Obligations.StatusReadGivesItsFields := by
  intro s rest hnext
  have hword := s.status.toWord_toNat
  have hbounds := s.status.field_bounds
  have hread : step s = .next ((s.withPending rest).hostHas (.number s.status.toWord.toNat)) :=
    (step_eq_hostStep hnext).trans (hostReadReg_of_value (r := .status) rfl)
  refine ⟨s.status.toWord.toNat, hread, s.status.toWord.isLt, testBit_eq_of_div_mod ?_, ?_,
    testBit_eq_of_div_mod ?_, testBit_eq_of_div_mod ?_, testBit_eq_of_div_mod ?_, testBit_eq_of_div_mod ?_⟩
  all_goals omega

/-- Settles O49: the number a register holds is the one a read of it gives. -/
theorem registerReadsGiveTheirValues : Obligations.RegisterReadsGiveTheirValues := by
  intro s r rest hnext v hv
  have hvalue : regValue r (s.withPending rest) = v := by
    rcases hv with ⟨rfl, rfl⟩ | ⟨rfl, rfl⟩ | ⟨rfl, rfl⟩ | ⟨rfl, rfl⟩ | ⟨rfl, rfl⟩ | ⟨rfl, rfl⟩ | ⟨rfl, rfl⟩ |
      ⟨rfl, rfl⟩ | ⟨rfl, rfl⟩ | ⟨rfl, rfl⟩ | ⟨rfl, rfl⟩ | ⟨rfl, rfl⟩ | ⟨rfl, rfl⟩ | ⟨rfl, rfl⟩
    all_goals rfl
  rw [step_eq_hostStep hnext]
  exact ⟨fun n hn => hostReadReg_of_value (hvalue.trans hn), fun hnone => hostReadReg_of_none (hvalue.trans hnone)⟩

end Sys2Proof.Machine
end

/-! The index spaces of 20_memory.md: host reads (R58), the pair alignment of symbols (R54, R55), the one writer of each
result (R50), and that a cell never written is never read: a command refuses instead, and LUT has no such cell where a
symbol reads it (R59). -/

namespace Sys2Proof.Machine

/-! ### Host reads -/

/-- Settles O50: a read of either kind ends in `hostHas`. -/
theorem readsLeaveOokgenAsItWas : Obligations.ReadsLeaveOokgenAsItWas := by
  intro s t a rest hnext hread hstep
  rw [step_eq_hostStep hnext] at hstep
  obtain ⟨r, rfl⟩ | ⟨sp, i, rfl⟩ := hread
  · obtain ⟨v, rfl⟩ := hostReadReg_cases hstep
    rfl
  · obtain ⟨v, rfl⟩ := hostReadCell_cases hstep
    rfl

/-! ### Pair alignment -/

/-- Settles O31: inside GENERATE CTR is OUT_LEN, which is even, and so is the length of the table it is reduced by. -/
theorem symbolsStartOnPairs : Obligations.SymbolsStartOnPairs := by
  intro s h hgen
  obtain ⟨hvalid, -, -, -, hctr, -⟩ := h.generating hgen
  obtain ⟨n, hn, -, -⟩ := h.table hvalid
  have hout := h.out_even
  have heven : s.ctr % 2 = 0 := by rw [hctr, hout]
  exact ⟨n, hn, heven, hout, by rw [Nat.mod_mul_right_mod, heven]⟩

/-! ### The one writer of each result -/

/-- What BUILD alone writes (R30, R31): LUT, N_PAIRS and LUT_VALID. -/
def State.tableResult (s : State) : Memory Byte × Option Nat × Bool := (s.lut, s.nPairs, s.status.lutValid)

/-- What DEBRUIJN alone writes (R36): SEQ, SEQ_LEN and SEQ_VALID. -/
def State.coveringResult (s : State) : Memory Byte × Nat × Bool := (s.seq, s.seqLen, s.status.seqValid)

theorem State.tableResult_eq_iff {s t : State} : t.tableResult = s.tableResult ↔
    t.lut = s.lut ∧ t.nPairs = s.nPairs ∧ t.status.lutValid = s.status.lutValid := by
  simp only [State.tableResult, Prod.mk.injEq]

theorem State.coveringResult_eq_iff {s t : State} : t.coveringResult = s.coveringResult ↔
    t.seq = s.seq ∧ t.seqLen = s.seqLen ∧ t.status.seqValid = s.status.seqValid := by
  simp only [State.coveringResult, Prod.mk.injEq]

/-- A part `f` of the state that no update on GENERATE's way reaches, nor ENCODE's. -/
structure KeptByGenerate {α : Type} (f : State → α) : Prop where
  raise : ∀ s : State, f s.raiseInvalidParameter = f s
  start : ∀ s : State, f s.beginGenerate = f s
  symbol : ∀ {s t : State} {x : Symbol}, SymbolEffect s x t → f t = f s
  finish : ∀ s : State, f s.finishGenerate = f s
  host : ∀ (s : State) (side : HostSide), f { s with host := side } = f s

theorem KeptByGenerate.execGenerate_eq {α : Type} {f : State → α} (hf : KeptByGenerate f) {s t : State}
    (h : execGenerate s = .next t) : f t = f s := by
  obtain rfl | ⟨_, _, count, -, -, -, -, hloop⟩ := execGenerate_cases h
  · exact hf.raise s
  · have hsymbol : ∀ u c v, f u = f s → u.engine = .generating → u.sym.read u.spc = some c →
        symbolStep (decodeSymbol c) u = .next v → f v = f s :=
      fun _ _ _ hu _ _ hstep => (hf.symbol (symbolStep_effect hstep)).trans hu
    obtain ⟨u, hu, ⟨-, rfl⟩ | ⟨-, rfl⟩⟩ :=
      generateLoop_induction count hsymbol (hf.start s) s.beginGenerate_engine hloop
    · exact (hf.finish u).trans hu
    · exact hu

theorem KeptByGenerate.exec_symbol_eq {α : Type} {f : State → α} (hf : KeptByGenerate f) {x : Symbol} {s t : State}
    (h : exec x.toInstr s = .next t) : f t = f s := by
  rw [exec_toInstr] at h
  exact hf.symbol (symbolStep_effect h)

/-- Only BUILD and DEBRUIJN are left as writers of what GENERATE keeps. -/
theorem KeptByGenerate.exec_eq {α : Type} {f : State → α} (hf : KeptByGenerate f) {i : Instr} {s t : State}
    (hbuild : i ≠ .build) (hdebruijn : i ≠ .debruijn) (h : exec i s = .next t) : f t = f s := by
  cases i with
  | active => exact hf.exec_symbol_eq (x := .active) h
  | inactive => exact hf.exec_symbol_eq (x := .inactive) h
  | pause => exact hf.exec_symbol_eq (x := .pause) h
  | malformed c => exact hf.exec_symbol_eq (x := .malformed c) h
  | build => exact absurd rfl hbuild
  | generate => exact hf.execGenerate_eq h
  | debruijn => exact absurd rfl hdebruijn
  | reservedCmd c => cases h
  | encode msg map => cases h; exact hf.host s _

theorem SymbolEffect.tableResult_eq {s t : State} {x : Symbol} (h : SymbolEffect s x t) :
    t.tableResult = s.tableResult := by
  cases h <;> rfl

theorem SymbolEffect.coveringResult_eq {s t : State} {x : Symbol} (h : SymbolEffect s x t) :
    t.coveringResult = s.coveringResult := by
  cases h <;> rfl

theorem keptByGenerate_tableResult : KeptByGenerate State.tableResult :=
  ⟨fun _ => rfl, fun _ => rfl, SymbolEffect.tableResult_eq, fun _ => rfl, fun _ _ => rfl⟩

theorem keptByGenerate_coveringResult : KeptByGenerate State.coveringResult :=
  ⟨fun _ => rfl, fun _ => rfl, SymbolEffect.coveringResult_eq, fun _ => rfl, fun _ _ => rfl⟩

/-- LUT has one writer, BUILD (R30). -/
theorem exec_tableResult {i : Instr} {s t : State} (hi : i ≠ .build) (h : exec i s = .next t) :
    t.tableResult = s.tableResult := by
  by_cases hd : i = .debruijn
  · subst hd
    obtain rfl | ⟨_, _, _, -, -, -, -, -, rfl⟩ := execDebruijn_cases h <;> rfl
  · exact keptByGenerate_tableResult.exec_eq hi hd h

/-- SEQ has one writer, DEBRUIJN (R36). -/
theorem exec_coveringResult {i : Instr} {s t : State} (hi : i ≠ .debruijn) (h : exec i s = .next t) :
    t.coveringResult = s.coveringResult := by
  by_cases hb : i = .build
  · subst hb
    obtain rfl | ⟨_, _, _, -, -, -, -, -, rfl⟩ := execBuild_cases h <;> rfl
  · exact keptByGenerate_coveringResult.exec_eq hb hi h

/-- What GENERATE and its symbols write (R33, R34): OUT and EVT with their lengths and flags, and the two counters. -/
def State.waveformResult (s : State) :
    Memory Byte × Nat × Memory EventRecord × Nat × Bool × Bool × Nat × Nat :=
  (s.out, s.outLen, s.evt, s.evtCount, s.status.outValid, s.status.malformed, s.ctr, s.spc)

theorem State.waveformResult_eq_iff {s t : State} : t.waveformResult = s.waveformResult ↔
    t.out = s.out ∧ t.outLen = s.outLen ∧ t.evt = s.evt ∧ t.evtCount = s.evtCount ∧
      t.status.outValid = s.status.outValid ∧ t.status.malformed = s.status.malformed ∧ t.ctr = s.ctr ∧
      t.spc = s.spc := by
  simp only [State.waveformResult, Prod.mk.injEq]

theorem Instr.eq_encode_of_format {i : Instr} (h : i.format = none) : ∃ msg map, i = .encode msg map := by
  cases i with
  | encode msg map => exact ⟨msg, map, rfl⟩
  | _ => cases h

/-- BUILD, DEBRUIJN and ENCODE, the one instruction without a format (R84), touch no result of GENERATE. -/
theorem exec_waveformResult {i : Instr} {s t : State} (hi : i = .build ∨ i = .debruijn ∨ i.format = none)
    (h : exec i s = .next t) : t.waveformResult = s.waveformResult := by
  obtain rfl | rfl | hformat := hi
  · obtain rfl | ⟨_, _, _, -, -, -, -, -, rfl⟩ := execBuild_cases h <;> rfl
  · obtain rfl | ⟨_, _, _, -, -, -, -, -, rfl⟩ := execDebruijn_cases h <;> rfl
  · obtain ⟨msg, map, rfl⟩ := Instr.eq_encode_of_format hformat
    cases h
    rfl

/-- Settles O59, result by result. -/
theorem eachResultHasOneWriter : Obligations.EachResultHasOneWriter :=
  fun _ _ _ h => ⟨fun hi => State.tableResult_eq_iff.1 (exec_tableResult hi h),
    fun hi => State.coveringResult_eq_iff.1 (exec_coveringResult hi h),
    fun hi => State.waveformResult_eq_iff.1 (exec_waveformResult hi h)⟩

/-! ### A written table answers every symbol -/

/-- A table of `n` > 0 pairs with all its cells written, as R59 has it of every valid one. -/
structure State.TableWritten (s : State) (n : Nat) : Prop where
  pairs : s.nPairs = some n
  pairs_pos : 0 < n
  cells : s.lut.Filled (2 * n) (fun _ => True)

theorem State.Inv.tableWritten {s : State} (h : s.Inv) (hvalid : s.status.lutValid = true) :
    ∃ n, s.TableWritten n := by
  obtain ⟨n, hn, htwo, hfilled⟩ := h.table hvalid
  refine ⟨n, hn, by omega, fun i hi => ?_⟩
  obtain ⟨v, hv, -⟩ := hfilled i hi
  exact ⟨v, hv, trivial⟩

theorem State.TableWritten.tableLen_eq {s : State} {n : Nat} (h : s.TableWritten n) : s.tableLen = some (2 * n) := by
  rw [State.tableLen, h.pairs, Option.map_some]

theorem State.TableWritten.execActive_next {s : State} {n : Nat} (h : s.TableWritten n) :
    ∃ t, execActive s = .next t := by
  simp only [execActive, h.tableLen_eq]
  cases s.symEntries with
  | none => exact ⟨_, rfl⟩
  | some se =>
    obtain ⟨vs, hvs⟩ := State.activeEntries_some (se := se) (Nat.mul_pos two_pos h.pairs_pos) h.cells
    simp only [hvs]
    exact ⟨_, rfl⟩

/-- Of the four symbols only '1' reads cells, and it finds them (R122, R59). -/
theorem State.TableWritten.symbolStep_next {s : State} {n : Nat} (h : s.TableWritten n) (x : Symbol) :
    ∃ t, symbolStep x s = .next t := by
  cases x with
  | active => exact h.execActive_next
  | inactive =>
    simp only [symbolStep, execInactive]
    split <;> exact ⟨_, rfl⟩
  | pause =>
    simp only [symbolStep, execPause]
    split <;> exact ⟨_, rfl⟩
  | malformed c =>
    simp only [symbolStep, execMalformed]
    split <;> exact ⟨_, rfl⟩

/-! ### No step faults -/

/-- The machine goes on or refuses; it does not stop with a fault (R66, R160). -/
def NoFault (o : Out) : Prop := ∀ r, o ≠ .fault r

@[simp] theorem noFault_next (s : State) : NoFault (.next s) := nofun

@[simp] theorem noFault_refused (r : Refusal) : NoFault (.refused r) := nofun

theorem NoFault.bind {o : Out} {f : State → Out} (ho : NoFault o) (hf : ∀ s, o = .next s → NoFault (f s)) :
    NoFault (andThen o f) := by
  cases o with
  | next s => exact hf s rfl
  | fault r => exact absurd rfl (ho r)
  | refused r => exact noFault_refused r

theorem State.Inv.symbolStep_noFault {s : State} (h : s.Inv) (hgen : s.engine = .generating) (x : Symbol) :
    NoFault (symbolStep x s) := by
  obtain ⟨hvalid, -⟩ := h.generating hgen
  obtain ⟨n, htable⟩ := h.tableWritten hvalid
  obtain ⟨t, ht⟩ := htable.symbolStep_next x
  rw [ht]
  exact noFault_next t

theorem generateLoop_noFault (n : Nat) :
    ∀ {s : State}, s.Inv → s.engine = .generating → NoFault (generateLoop n s) := by
  induction n with
  | zero => exact fun _ _ => noFault_next _
  | succ n ih =>
    intro s h hgen
    cases hread : s.sym.read s.spc with
    | none =>
      rw [generateLoop_succ_of_unwritten hread]
      exact noFault_refused _
    | some c =>
      rw [generateLoop_succ_of_symbol hread]
      refine (h.symbolStep_noFault hgen _).bind fun t ht => ?_
      split
      case isTrue hgen' => exact ih (symbolStep_inv h hgen ht) hgen'
      case isFalse => exact noFault_next t

theorem execGenerate_noFault {s : State} (h : s.Inv) : NoFault (execGenerate s) := by
  unfold execGenerate
  split
  case isTrue hvalid =>
    split
    case h_1 count hsl hpl hcount =>
      have hbegin := h.beginGenerate hvalid (by simp [hsl]) (by simp [hpl]) (by simp [hcount])
      exact generateLoop_noFault count hbegin s.beginGenerate_engine
    case h_2 => exact noFault_next _
  case isFalse => exact noFault_next _

theorem execBuild_noFault (s : State) : NoFault (execBuild s) := by
  unfold execBuild
  split
  · split <;> exact noFault_next _
  · exact noFault_next _

theorem execDebruijn_noFault (s : State) : NoFault (execDebruijn s) := by
  unfold execDebruijn
  split
  · split
    · exact noFault_next _
    · split
      · exact noFault_next _
      · exact noFault_refused _
  · exact noFault_next _

theorem exec_command_noFault {s : State} (h : s.Inv) (x : Command) : NoFault (exec x.toInstr s) := by
  cases x with
  | build => exact execBuild_noFault s
  | generate => exact execGenerate_noFault h
  | debruijn => exact execDebruijn_noFault s
  | reserved c => exact noFault_refused _

theorem runCommand_noFault {s : State} (h : s.Inv) : NoFault (runCommand s) := by
  cases hcmd : s.cmd with
  | none => simp only [runCommand, hcmd, noFault_next]
  | some c =>
    have hempty : State.Inv { s with cmd := none } := { h with }
    rw [runCommand_of_code hcmd]
    exact exec_command_noFault hempty (decodeCommand c)

theorem symbolFetch_noFault {s : State} (h : s.Inv) (hgen : s.engine = .generating) : NoFault (symbolFetch s) := by
  unfold symbolFetch
  split
  · split
    · split
      case h_1 c _ =>
        have hsymbol := h.symbolStep_noFault hgen (decodeSymbol c)
        rwa [← exec_toInstr] at hsymbol
      case h_2 => exact noFault_refused _
    · exact noFault_next _
  · exact noFault_next _

theorem coveringTurn_noFault (k n : Nat) (s : State) : NoFault (coveringTurn k n s) := by
  unfold coveringTurn
  repeat' split
  all_goals simp only [noFault_next, noFault_refused]

theorem coveringStep_noFault (s : State) : NoFault (coveringStep s) := by
  unfold coveringStep
  split
  · exact coveringTurn_noFault _ _ s
  · exact noFault_next _

theorem storeOr_noFault {α : Type} (v : Option α) (store : α → State) : NoFault (storeOr v store) := by
  cases v with
  | none => exact noFault_refused _
  | some a => exact noFault_next _

theorem hostWriteReg_noFault (r : Reg) (v : Int) (s : State) : NoFault (hostWriteReg r v s) := by
  cases r with
  | status | nPairs | outLen | evtCount | seqLen => exact noFault_next s
  | _ => exact storeOr_noFault _ _

/-- A write that stores a code in CMD runs it on a state that still has the invariant (R38). -/
theorem hostWrite_noFault {s : State} (h : s.Inv) (r : Reg) (v : Int) : NoFault (hostWrite r v s) := by
  by_cases hr : r = .cmd
  · subst hr
    refine (hostWriteReg_noFault .cmd v s).bind fun u hu => runCommand_noFault ?_
    simp only [hostWriteReg, storeOr] at hu
    split at hu
    · cases hu; exact { h with }
    · cases hu
  · rw [hostWrite_of_ne hr]
    exact hostWriteReg_noFault r v s

theorem hostStep_noFault {s : State} (h : s.Inv) (a : HostAction) : NoFault (hostStep a s) := by
  cases a with
  | writeReg r v => exact hostWrite_noFault h r v
  | readReg r =>
    simp only [hostStep, hostReadReg]
    split
    · exact noFault_next _
    · exact noFault_refused _
  | writeCell sp i c =>
    simp only [hostStep, hostWriteCell]
    split
    · cases sp <;> exact noFault_next _
    · exact noFault_refused _
  | readCell sp i =>
    simp only [hostStep, hostReadCell]
    split
    · exact noFault_next _
    · exact noFault_refused _
  | encode msg map =>
    simp only [hostStep, hostEncode]
    split
    · exact noFault_next _
    · exact noFault_refused _
  | reset => exact noFault_next _

theorem idleStep_noFault {s : State} (h : s.Inv) : NoFault (idleStep s) := by
  unfold idleStep
  split
  · exact runCommand_noFault h
  · split
    · exact noFault_next s
    · exact hostStep_noFault (h.withHost _) _

/-- Settles O54, by the place of the step: a fault comes of a '1' symbol alone, and inside GENERATE the table is
written. -/
theorem noStepFaultsUnderInvariant : Obligations.NoStepFaultsUnderInvariant := by
  intro s r h
  suffices hstep : NoFault (step s) from hstep r
  unfold step
  split
  case h_1 => exact idleStep_noFault h
  case h_2 hgen => exact symbolFetch_noFault h hgen
  case h_3 => exact coveringStep_noFault s

/-! ### GENERATE comes to the first unwritten cell of SYM -/

/-- GENERATE on its way to cell `p` of SYM: it has its table and durations, `p` was never written, and no cell before it
ends the command. -/
structure State.GeneratesUpTo (s : State) (n p : Nat) : Prop where
  engine : s.engine = .generating
  table : s.TableWritten n
  symbolLen : s.symbolLen.isSome
  pauseLen : s.pauseLen.isSome
  unwritten : s.sym.read p = none
  before : s.sym.Filled p (fun c => s.strict = false ∨ isMalformedCode c = false)

/-- With a table and durations every operand of a symbol holds a value (R120). -/
theorem State.GeneratesUpTo.operands_isSome {s : State} {n p : Nat} (h : s.GeneratesUpTo n p) :
    ¬(s.symEntries = none ∨ s.tableLen = none ∨ s.pauseEntries = none) := by
  simp [State.symEntries, State.pauseEntries, h.table.tableLen_eq, Option.isSome_iff_ne_none.1 h.symbolLen,
    Option.isSome_iff_ne_none.1 h.pauseLen]

theorem State.GeneratesUpTo.of_eq {s t : State} {n p : Nat} (h : s.GeneratesUpTo n p) (hengine : t.engine = s.engine)
    (htable : t.tableResult = s.tableResult) (hhost : t.hostOperands = s.hostOperands) : t.GeneratesUpTo n p := by
  obtain ⟨hlut, hpairs, -⟩ := State.tableResult_eq_iff.1 htable
  obtain ⟨-, -, -, hsl, hpl, -, -, -, hstrict, hsym, -⟩ := State.hostOperands_eq_iff.1 hhost
  exact
    { engine := hengine.trans h.engine
      table := ⟨hpairs.trans h.table.pairs, h.table.pairs_pos, hlut ▸ h.table.cells⟩
      symbolLen := hsl ▸ h.symbolLen
      pauseLen := hpl ▸ h.pauseLen
      unwritten := hsym ▸ h.unwritten
      before := by rw [hsym, hstrict]; exact h.before }

theorem eq_of_decodeSymbol_malformed {c x : Byte} (h : decodeSymbol c = .malformed x) : x = c := by
  unfold decodeSymbol at h
  split_ifs at h
  cases h
  rfl

/-- A symbol before `p` neither fails for an operand nor aborts, so the loop goes on to the next position (R121). -/
theorem State.GeneratesUpTo.symbolStep_next {s : State} {n p : Nat} {c : Byte} (h : s.GeneratesUpTo n p)
    (hc : s.strict = false ∨ isMalformedCode c = false) :
    ∃ t, symbolStep (decodeSymbol c) s = .next t ∧ t.GeneratesUpTo n p ∧ t.spc = s.spc + 1 := by
  obtain ⟨t, ht⟩ := h.table.symbolStep_next (decodeSymbol c)
  have heffect := symbolStep_effect ht
  have hgoes : t.engine = s.engine ∧ t.spc = s.spc + 1 := by
    generalize hx : decodeSymbol c = x at heffect
    cases heffect with
    | active | inactive | pause | malformed => exact ⟨rfl, rfl⟩
    | abort hstrict =>
      have hcode := isMalformedCode_of_decodeSymbol hx
      obtain rfl := eq_of_decodeSymbol_malformed hx
      simp [hstrict, hcode] at hc
    | noOperand hnone => exact absurd hnone h.operands_isSome
  exact ⟨t, ht, h.of_eq hgoes.1 heffect.tableResult_eq heffect.hostOperands_eq, hgoes.2⟩

/-- By induction on the distance from SPC to `p` (R59; log 16). -/
theorem State.GeneratesUpTo.generateLoop_eq {n p : Nat} (d : Nat) : ∀ {s : State} {m : Nat}, s.GeneratesUpTo n p →
    s.spc + d = p → d < m → generateLoop m s = .refused .cellHoldsNoValue := by
  induction d with
  | zero =>
    intro s m h hspc hm
    obtain ⟨m, rfl⟩ := Nat.exists_eq_add_one.2 hm
    subst hspc
    exact generateLoop_succ_of_unwritten h.unwritten m
  | succ d ih =>
    intro s m h hspc hm
    obtain ⟨m, rfl⟩ := Nat.exists_eq_add_one.2 (Nat.zero_lt_of_lt hm)
    obtain ⟨c, hread, hc⟩ := h.before s.spc (by omega)
    obtain ⟨t, ht, hnext, hspc'⟩ := h.symbolStep_next hc
    rw [generateLoop_succ_of_symbol hread, ht, andThen_next, if_pos hnext.engine]
    exact ih hnext (by omega) (by omega)

/-! ### DEBRUIJN reads every symbol of its alphabet -/

@[simp] theorem Covering.set_cells (r : Covering) (t v : Nat) : (r.set t v).cells = r.cells.set t v := rfl
@[simp] theorem Covering.set_indices (r : Covering) (t v : Nat) : (r.set t v).indices = r.indices := rfl

@[simp] theorem Covering.emit_cells (r : Covering) (n p : Nat) : (r.emit n p).cells = r.cells := by
  unfold Covering.emit
  split <;> rfl

theorem Covering.indices_subset_emit (r : Covering) (n p : Nat) : r.indices ⊆ (r.emit n p).indices := by
  unfold Covering.emit
  split
  · exact List.subset_append_left _ _
  · exact List.Subset.refl _

/-- The induction over `db`: it changes the work array and the index sequence by `set` and `emit` alone (R143). -/
theorem db_induction {k n : Nat} {P : Covering → Prop} (hset : ∀ r t v, P r → P (r.set t v))
    (hemit : ∀ r p, P r → P (r.emit n p)) (left : Nat) : ∀ t p r, P r → P (db k n left t p r) := by
  induction left with
  | zero => exact fun _ p r hr => hemit r p hr
  | succ left ih =>
    intro t p r hr
    exact List.foldlRecOn _ _ (ih _ _ _ (hset _ _ _ hr)) fun r hr j _ => ih _ _ _ (hset r t j hr)

theorem db_cells_length (k n left t p : Nat) (r : Covering) :
    (db k n left t p r).cells.length = r.cells.length := by
  apply db_induction (P := fun u => u.cells.length = r.cells.length)
  · intro u t v hu
    rw [Covering.set_cells, List.length_set, hu]
  · intro u p hu
    rw [Covering.emit_cells, hu]
  · rfl

/-- An index once appended stays. -/
theorem mem_db_indices {k n left t p x : Nat} {r : Covering} (hx : x ∈ r.indices) :
    x ∈ (db k n left t p r).indices := by
  apply db_induction (P := fun u => x ∈ u.indices)
  · exact fun u t v hu => hu
  · exact fun u p hu => u.indices_subset_emit n p hu
  · exact hx

/-- The first path below an activation with period 1 ends in the emission of `a[1]`, which nothing on it writes. -/
theorem first_mem_db_indices (k n left : Nat) : ∀ {t : Nat} (r : Covering), 2 ≤ t →
    workCell r.cells 1 ∈ (db k n left t 1 r).indices := by
  induction left with
  | zero =>
    intro t r _
    simp [db, Covering.emit, emission, Nat.mod_one]
  | succ left ih =>
    intro t r ht
    have hfirst : workCell r.cells 1 ∈
        (db k n left (t + 1) 1 (r.set t (workCell r.cells (t - 1)))).indices := by
      have hrest := ih (t := t + 1) (r.set t (workCell r.cells (t - 1))) (by omega)
      rwa [Covering.set_cells, workCell_set, if_neg (by omega)] at hrest
    exact List.foldlRecOn (motive := fun u : Covering => workCell r.cells 1 ∈ u.indices) _ _ hfirst
      fun u hu j _ => mem_db_indices (r := u.set t j) hu

/-- At the root `t = p = 1`, so its first call is one more turn of its loop: the loop runs over the whole alphabet. -/
theorem coveringRun_succ {k : Nat} (hk : 1 ≤ k) (m : Nat) : coveringRun k (m + 1) =
    (List.range k).foldl (fun r j => db k (m + 1) m 2 1 (r.set 1 j))
      { cells := List.replicate (m + 2) 0, indices := [] } := by
  obtain ⟨k, rfl⟩ := Nat.exists_eq_add_one.2 hk
  rw [List.range_eq_range', List.range'_succ, List.foldl_cons]
  rfl

/-- Every symbol index below k occurs in the covering sequence: the root's turn with j = x emits it by itself (R143). -/
theorem mem_coveringRun_indices {k n x : Nat} (hn : 1 ≤ n) (hx : x < k) : x ∈ (coveringRun k n).indices := by
  obtain ⟨m, rfl⟩ := Nat.exists_eq_add_one.2 hn
  obtain ⟨js, js', hsplit⟩ := List.append_of_mem (List.mem_range.2 hx)
  rw [coveringRun_succ (by omega), hsplit, List.foldl_append, List.foldl_cons]
  generalize hu : js.foldl _ _ = u
  have hlength : u.cells.length = m + 2 := by
    rw [← hu]
    refine List.foldlRecOn (motive := fun u : Covering => u.cells.length = m + 2) _ _ List.length_replicate ?_
    intro u hu j _
    rw [db_cells_length, Covering.set_cells, List.length_set, hu]
  have hfirst : x ∈ (db k (m + 1) m 2 1 (u.set 1 x)).indices := by
    have hemitted := first_mem_db_indices k (m + 1) m (u.set 1 x) le_rfl
    rwa [Covering.set_cells, workCell_set, if_pos ⟨rfl, by omega⟩] at hemitted
  exact List.foldlRecOn (motive := fun u : Covering => x ∈ u.indices) _ _ hfirst
    fun u hu j _ => mem_db_indices (r := u.set 1 j) hu

theorem Memory.readAll_eq_none {α : Type} {m : Memory α} {is : List Nat} {i : Nat} (hi : i ∈ is)
    (hread : m.read i = none) : m.readAll is = none := by
  cases hall : m.readAll is with
  | none => rfl
  | some vs =>
    have hmem : none ∈ vs.map some := by
      rw [← Memory.readAll_some.1 hall, ← hread]
      exact List.mem_map_of_mem hi
    simp at hmem

/-- Settles O39: GENERATE comes to the cell at SPC = p, and the sequence of DEBRUIJN has the index x. -/
theorem commandsRefuseUnwrittenCells : Obligations.CommandsRefuseUnwrittenCells := by
  constructor
  · intro s n count p hvalid hpairs hpos hlut hsl hpl hcount hp hread hbefore
    obtain ⟨sl, hsl'⟩ := Option.isSome_iff_exists.1 hsl
    obtain ⟨pl, hpl'⟩ := Option.isSome_iff_exists.1 hpl
    have hbegin : s.beginGenerate.GeneratesUpTo n p :=
      ⟨rfl, ⟨hpairs, hpos, hlut⟩, hsl, hpl, hread, hbefore⟩
    calc exec .generate s = generateLoop count s.beginGenerate :=
          execGenerate_of_preconditions hvalid hsl' hpl' hcount
      _ = .refused .cellHoldsNoValue := hbegin.generateLoop_eq p (Nat.zero_add p) hp
  · intro s k n x hk hn hnpos hx hread
    have hnone : (s.alpha.below k).readAll (coveringRun k n).indices = none := by
      refine Memory.readAll_eq_none (mem_coveringRun_indices hnpos hx) ?_
      rw [Memory.read_below, hread, ite_self]
    have hkn : ¬(k < 1 ∨ n < 1) := by omega
    simp only [exec, execDebruijn, hk, hn, if_neg hkn, hnone]

end Sys2Proof.Machine

/-! The two one-byte formats of 30_encoding.md: in each of them the decoder is the inverse of the encoder on the
well-formed instructions (R70, R73, R76, R77), and a reserved command code is refused. -/

namespace Sys2Proof.Machine

/-! ### The complement rows -/

theorem isMalformedCode_iff {c : Byte} : isMalformedCode c = true ↔ c ≠ 0x30#8 ∧ c ≠ 0x31#8 ∧ c ≠ 0x70#8 := by
  simp [isMalformedCode, and_assoc]

theorem isReservedCode_iff {c : Byte} : isReservedCode c = true ↔ c ≠ 0x01#8 ∧ c ≠ 0x02#8 ∧ c ≠ 0x03#8 := by
  simp [isReservedCode, and_assoc]

/-- The reserved codes as R77 lists them. -/
theorem isReservedCode_iff_zero_or_four_le {c : Byte} : isReservedCode c = true ↔ c = 0x00#8 ∨ 0x04#8 ≤ c := by
  rw [isReservedCode_iff]
  bv_omega

theorem decodeSymbol_of_isMalformedCode {c : Byte} (h : isMalformedCode c = true) : decodeSymbol c = .malformed c := by
  obtain ⟨hinactive, hactive, hpause⟩ := isMalformedCode_iff.1 h
  rw [decodeSymbol, if_neg hactive, if_neg hinactive, if_neg hpause]

theorem decodeCommand_of_isReservedCode {c : Byte} (h : isReservedCode c = true) : decodeCommand c = .reserved c := by
  obtain ⟨hbuild, hgenerate, hdebruijn⟩ := isReservedCode_iff.1 h
  rw [decodeCommand, if_neg hbuild, if_neg hgenerate, if_neg hdebruijn]

theorem decodeByte_of_isMalformedCode {c : Byte} (h : isMalformedCode c = true) :
    decodeByte .sym8 c = .malformed c :=
  congrArg Symbol.toInstr (decodeSymbol_of_isMalformedCode h)

theorem decodeByte_of_isReservedCode {c : Byte} (h : isReservedCode c = true) :
    decodeByte .cmd8 c = .reservedCmd c :=
  congrArg Command.toInstr (decodeCommand_of_isReservedCode h)

/-! ### Decoding inverts encoding -/

theorem decodeSymbol_wellFormed_encode (c : Byte) :
    (decodeSymbol c).toInstr.wellFormed = true ∧ encode (decodeSymbol c).toInstr = [c] := by
  unfold decodeSymbol
  split_ifs with hactive hinactive hpause
  · exact ⟨rfl, by rw [hactive]; rfl⟩
  · exact ⟨rfl, by rw [hinactive]; rfl⟩
  · exact ⟨rfl, by rw [hpause]; rfl⟩
  · exact ⟨isMalformedCode_iff.2 ⟨hinactive, hactive, hpause⟩, rfl⟩

theorem decodeCommand_wellFormed_encode (c : Byte) :
    (decodeCommand c).toInstr.wellFormed = true ∧ encode (decodeCommand c).toInstr = [c] := by
  unfold decodeCommand
  split_ifs with hbuild hgenerate hdebruijn
  · exact ⟨rfl, by rw [hbuild]; rfl⟩
  · exact ⟨rfl, by rw [hgenerate]; rfl⟩
  · exact ⟨rfl, by rw [hdebruijn]; rfl⟩
  · exact ⟨isReservedCode_iff.2 ⟨hbuild, hgenerate, hdebruijn⟩, rfl⟩

@[simp] theorem Symbol.toInstr_format (x : Symbol) : x.toInstr.format = some .sym8 := by cases x <;> rfl

@[simp] theorem Command.toInstr_format (x : Command) : x.toInstr.format = some .cmd8 := by cases x <;> rfl

@[simp] theorem decodeByte_format (f : Format) (c : Byte) : (decodeByte f c).format = some f := by
  cases f with
  | sym8 => exact Symbol.toInstr_format (decodeSymbol c)
  | cmd8 => exact Command.toInstr_format (decodeCommand c)

theorem decodeByte_wellFormed_encode (f : Format) (c : Byte) :
    (decodeByte f c).wellFormed = true ∧ encode (decodeByte f c) = [c] := by
  cases f with
  | sym8 => exact decodeSymbol_wellFormed_encode c
  | cmd8 => exact decodeCommand_wellFormed_encode c

/-- A well-formed instruction of a format has one code byte, and the format's decoder reads it back (R74). -/
theorem exists_code_of_format {i : Instr} {f : Format} (hwf : i.wellFormed = true) (hf : i.format = some f) :
    ∃ c, encode i = [c] ∧ decodeByte f c = i := by
  cases i with
  | active => cases hf; exact ⟨0x31#8, rfl, rfl⟩
  | inactive => cases hf; exact ⟨0x30#8, rfl, rfl⟩
  | pause => cases hf; exact ⟨0x70#8, rfl, rfl⟩
  | malformed c => cases hf; exact ⟨c, rfl, decodeByte_of_isMalformedCode hwf⟩
  | build => cases hf; exact ⟨0x01#8, rfl, rfl⟩
  | generate => cases hf; exact ⟨0x02#8, rfl, rfl⟩
  | debruijn => cases hf; exact ⟨0x03#8, rfl, rfl⟩
  | reservedCmd c => cases hf; exact ⟨c, rfl, decodeByte_of_isReservedCode hwf⟩
  | encode msg map => cases hf

/-- Settles O9: the words are one code byte, and `decode` reads the first byte of the string. -/
theorem decodeOfEncodeIsTheInstruction : Obligations.DecodeOfEncodeIsTheInstruction := by
  intro i f rest hwf hf
  obtain ⟨c, hcode, hdecode⟩ := exists_code_of_format hwf hf
  calc decode f (encode i ++ rest) = some (decodeByte f c, rest) := by rw [hcode]; rfl
    _ = some (i, rest) := by rw [hdecode]

/-- Settles O10: two instructions of a format with the same code byte decode from it, so they are equal. -/
theorem encodeOfDecodeIsTheByte : Obligations.EncodeOfDecodeIsTheByte := by
  intro f c
  obtain ⟨hwf, hcode⟩ := decodeByte_wellFormed_encode f c
  refine ⟨hwf, decodeByte_format f c, hcode, fun i hi hf hic => ?_⟩
  obtain ⟨d, hid, rfl⟩ := exists_code_of_format hi hf
  obtain rfl : d = c := List.singleton_inj.1 (hid.symm.trans hic)
  rfl

/-! ### The spec's tables -/

/-- Settles O7: the fixed rows compute, the others are of a complement row. -/
theorem tableCodesDecode : Obligations.TableCodesDecode :=
  ⟨rfl, rfl, rfl, decodeByte_of_isMalformedCode rfl, decodeByte_of_isMalformedCode rfl,
    rfl, rfl, rfl, decodeByte_of_isReservedCode rfl, decodeByte_of_isReservedCode rfl⟩

/-- Settles O8: the model takes R72's equation as its definition. -/
theorem symbolDecodeIsTotal : Obligations.SymbolDecodeIsTotal := fun _ => rfl

/-! ### Reserved command codes -/

theorem exec_reservedCmd (c : Byte) (s : State) : exec (.reservedCmd c) s = .refused (.reservedCommand c) := rfl

theorem exec_decodeByte_of_isReservedCode {c : Byte} (h : isReservedCode c = true) (s : State) :
    exec (decodeByte .cmd8 c) s = .refused (.reservedCommand c) := by
  rw [decodeByte_of_isReservedCode h, exec_reservedCmd]

/-- Settles O11: a code that stands in CMD or is written there runs as the instruction it decodes to (R38). -/
theorem reservedCommandIsRefused : Obligations.ReservedCommandIsRefused := by
  refine ⟨fun s c => exec_reservedCmd c s, fun s c hc => ?_⟩
  have hreserved := isReservedCode_iff_zero_or_four_le.2 hc
  constructor
  · intro hidle hcmd
    exact (stepRunsCommandInCmd s c hidle hcmd).trans (exec_decodeByte_of_isReservedCode hreserved _)
  · intro rest hnext
    exact (stepRunsCommandTheHostWrites s c rest hnext).trans (exec_decodeByte_of_isReservedCode hreserved _)

end Sys2Proof.Machine

/-! BUILD of 40_carrier_table.md: when it fails and what it then leaves (R91, R99), what it writes (R98), that the table
it computes in integers is the exact rounding over the reals (R92, R93), and the symmetries, bounds and lengths that
follow (R95, R97, R104, R105); last, that no other transition changes a result (R100). -/

namespace Sys2Proof.Machine
open Sys2Proof.Laws

/-! ### The two outcomes of BUILD -/

/-- The operands with which BUILD fails (R91): one holds no value, or the ratio FS/FC is below 2. -/
def State.BuildFails (s : State) : Prop :=
  s.fs = none ∨ s.fc = none ∨ s.amp = none ∨
    ∃ fs fc, s.fs = some fs ∧ s.fc = some fc ∧ (fc.toNat = 0 ∨ fs.toNat < 2 * fc.toNat)

theorem execBuild_of_fails {s : State} (h : s.BuildFails) : execBuild s = .next s.raiseInvalidParameter := by
  unfold execBuild
  split
  · rename_i fs fc amp hfs hfc hamp
    obtain hno | hno | hno | ⟨fs', fc', hfs', hfc', hratio⟩ := h
    · cases hfs.symm.trans hno
    · cases hfc.symm.trans hno
    · cases hamp.symm.trans hno
    · cases hfs.symm.trans hfs'
      cases hfc.symm.trans hfc'
      rw [if_pos hratio]
  · rfl

/-- Settles O12: the error's entry sets DONE and ERR, and OOKGEN was idle already. -/
theorem buildFailureChangesOnlyStatus : Obligations.BuildFailureChangesOnlyStatus := by
  intro s hidle hfails
  have hraise : s.raiseInvalidParameter =
      { s with status := { s.status with done := false, err := .invalidParameter } } := by
    simp only [State.raiseInvalidParameter, Status.fail, ← hidle]
  exact (execBuild_of_fails hfails).trans (congrArg _ hraise)

theorem State.ReadyToBuild.exec_build {s : State} {fs fc : Word} {amp : Amplitude} (h : s.ReadyToBuild fs fc amp) :
    exec .build s =
      .next (s.loadTable (pairCount fs.toNat fc.toNat) (carrierTable fs.toNat fc.toNat amp.toNat)) := by
  obtain ⟨hfs, hfc, hamp, hpos, hle⟩ := h
  have hlegal : ¬(fc.toNat = 0 ∨ fs.toNat < 2 * fc.toNat) := by omega
  simp only [exec, execBuild, hfs, hfc, hamp, if_neg hlegal]

/-! ### The cells of the table -/

/-- Pairs laid out one after the other: cell 2i is the first half of pair i, cell 2i + 1 the second (R52). -/
theorem getElem?_flatMap_pair {α : Type} (f g : Nat → α) {n i : Nat} (hi : i < n) :
    ((List.range n).flatMap fun j => [f j, g j])[2 * i]? = some (f i) ∧
      ((List.range n).flatMap fun j => [f j, g j])[2 * i + 1]? = some (g i) := by
  induction n with
  | zero => omega
  | succ n ih =>
    have hlen : ((List.range n).flatMap fun j => [f j, g j]).length = 2 * n := by
      simp [List.length_flatMap, mul_comm]
    rw [List.range_succ, List.flatMap_append]
    rcases Nat.lt_succ_iff_lt_or_eq.1 hi with hlt | rfl
    · rw [List.getElem?_append_left (by omega), List.getElem?_append_left (by omega)]
      exact ih hlt
    · rw [List.getElem?_append_right (by omega), List.getElem?_append_right (by omega), hlen]
      simp

/-- What LUT holds after the table of (FS, FC, A) is written: pair i, I before Q (R93, R98). -/
theorem read_write_carrierTable (m : Memory Byte) {FS FC A i : Nat} (hi : i < pairCount FS FC) :
    (m.write 0 (carrierTable FS FC A)).read (2 * i) = some (sampleCell (carrierI FS FC A i)) ∧
      (m.write 0 (carrierTable FS FC A)).read (2 * i + 1) = some (sampleCell (carrierQ FS FC A i)) := by
  have hlen := carrierTable_length FS FC A
  rw [Memory.read_write, Memory.read_write, if_pos (by omega), if_pos (by omega)]
  exact getElem?_flatMap_pair _ _ hi

/-- The cells at or above 2N keep what they held (R98). -/
theorem read_write_carrierTable_above (m : Memory Byte) {FS FC A a : Nat} (ha : 2 * pairCount FS FC ≤ a) :
    (m.write 0 (carrierTable FS FC A)).read a = m.read a :=
  Memory.read_write_other m (.inr (by rwa [carrierTable_length, Nat.zero_add]))

/-- Settles O13: BUILD loads its table, and the host reads LUT below TABLE_LEN = 2N alone. -/
theorem buildWritesTableAndStatus : Obligations.BuildWritesTableAndStatus := by
  intro s fs fc amp hready
  refine ⟨_, hready.exec_build, fun i hi => read_write_carrierTable s.lut hi, fun a ha => ⟨?_, ?_⟩, rfl⟩
  · exact read_write_carrierTable_above s.lut ha
  · rw [cellValue_lut (by simp) (State.loadTable_nPairs ..), if_neg (by omega)]

/-! ### round_he in integers and over the reals (00_scope.md R11) -/

/-- `n` is at distance at most 1/2 of `x`, and is even where the distance is 1/2. -/
def NearestEven (x : ℝ) (n : ℤ) : Prop := |x - n| < 1 / 2 ∨ |x - n| = 1 / 2 ∧ Even n

theorem nearestEven_roundHe (x : ℝ) : NearestEven x (roundHe x) := by
  have hsplit := Int.floor_add_fract x
  have hnonneg := Int.fract_nonneg x
  have hlt := Int.fract_lt_one x
  have hfloor : |x - (⌊x⌋ : ℤ)| = Int.fract x := by
    rw [Int.self_sub_floor, abs_of_nonneg hnonneg]
  have hceil : |x - ((⌊x⌋ + 1 : ℤ) : ℝ)| = 1 - Int.fract x := by
    push_cast
    rw [abs_of_nonpos (by linarith)]
    linarith
  unfold roundHe
  split_ifs with hbelow habove heven
  · exact .inl (by rwa [hfloor])
  · exact .inl (by rw [hceil]; linarith)
  · exact .inr ⟨by rw [hfloor]; linarith, heven⟩
  · exact .inr ⟨by rw [hceil]; linarith, (Int.not_even_iff_odd.1 heven).add_one⟩

theorem abs_sub_le_of_nearest (x : ℝ) (m n : ℤ) : ((|m - n| : ℤ) : ℝ) ≤ |x - m| + |x - n| := by
  push_cast
  rw [abs_sub_comm x m]
  exact abs_sub_le ..

/-- Two such integers are less than 1 apart, or both even and at most 1 apart. -/
theorem NearestEven.eq {x : ℝ} {m n : ℤ} (hm : NearestEven x m) (hn : NearestEven x n) : m = n := by
  have htriangle := abs_sub_le_of_nearest x m n
  have hmle : |x - m| ≤ 1 / 2 := hm.elim le_of_lt (fun h => h.1.le)
  have hnle : |x - n| ≤ 1 / 2 := hn.elim le_of_lt (fun h => h.1.le)
  have hapart : |m - n| ≤ 1 := by exact_mod_cast (by linarith : ((|m - n| : ℤ) : ℝ) ≤ 1)
  have hstrict : ((|m - n| : ℤ) : ℝ) < 1 → m = n := fun h =>
    sub_eq_zero.1 (Int.abs_lt_one_iff.1 (by exact_mod_cast h))
  obtain hlt | ⟨-, k, rfl⟩ := hm
  · exact hstrict (by linarith)
  · obtain hlt | ⟨-, l, rfl⟩ := hn
    · exact hstrict (by linarith)
    · obtain ⟨hlow, hhigh⟩ := abs_le.1 hapart
      omega

theorem roundHe_eq_iff {x : ℝ} {n : ℤ} : roundHe x = n ↔ NearestEven x n :=
  ⟨fun h => h ▸ nearestEven_roundHe x, (nearestEven_roundHe x).eq⟩

theorem roundHe_neg (x : ℝ) : roundHe (-x) = -roundHe x := by
  have hdist : |-x - ((-roundHe x : ℤ) : ℝ)| = |x - roundHe x| := by
    rw [← abs_neg]; congr 1; push_cast; ring
  rw [roundHe_eq_iff, NearestEven, hdist, even_neg]
  exact nearestEven_roundHe x

theorem roundHe_intCast (n : ℤ) : roundHe (n : ℝ) = n := roundHe_eq_iff.2 (.inl (by simp))

theorem roundHalfEven_eq_roundHe (a : Nat) {b : Nat} (hb : 0 < b) :
    (roundHalfEven a b : ℤ) = roundHe ((a : ℝ) / b) := by
  have hb' : (0 : ℝ) < b := by exact_mod_cast hb
  have hfloor : ⌊(a : ℝ) / b⌋ = ((a / b : Nat) : ℤ) := by
    rw [Int.floor_div_natCast, Int.floor_natCast, Int.natCast_ediv]
  have hbelow : ((a % b : Nat) : ℝ) / b < 1 / 2 ↔ 2 * (a % b) < b := by
    rw [div_lt_div_iff₀ hb' two_pos]
    norm_cast
    omega
  have habove : 1 / 2 < ((a % b : Nat) : ℝ) / b ↔ b < 2 * (a % b) := by
    rw [div_lt_div_iff₀ two_pos hb']
    norm_cast
    omega
  unfold roundHe roundHalfEven
  rw [Int.fract_div_natCast_eq_div_natCast_mod, hfloor]
  simp only [hbelow, habove, Int.even_coe_nat, Nat.even_iff]
  split_ifs <;> simp

/-! ### The entries are exact -/

/-- The scan stops at the integer within 1/2 of the real, which the comparison never leaves at a tie. -/
theorem abs_sub_cosScan_lt {A u q : Nat} (hA : A ≤ 127) (hu : u < q) (h3 : 3 * u ≠ 2 * q) :
    ∀ top ≤ A, A * Real.cos (angle u q) < (top : ℝ) + 1 / 2 →
      |A * Real.cos (angle u q) - cosScan A u q top| < 1 / 2 := by
  have hnonneg : 0 ≤ A * Real.cos (angle u q) := mul_nonneg A.cast_nonneg (cos_angle_pos hu).le
  intro top
  induction top with
  | zero =>
    intro _ hlt
    rw [cosScan, Nat.cast_zero, sub_zero, abs_of_nonneg hnonneg]
    simpa using hlt
  | succ m ih =>
    intro hle hlt
    unfold cosScan
    split_ifs with habove
    · have hgt := (cosAbove_iff hA hle hu h3).1 habove
      push_cast at hlt ⊢
      exact abs_lt.2 ⟨by linarith, by linarith⟩
    · have hnot := (cosAbove_eq_false_iff hA hle hu h3).1 (Bool.eq_false_iff.2 habove)
      exact ih (by omega) hnot

/-- The entry of an angle in the first quadrant (R93, R102). -/
theorem cosRound_eq_roundHe {A u q : Nat} (hA : A ≤ 127) (hq : 0 < q) (hu : u ≤ q) :
    (cosRound A u q : ℤ) = roundHe (A * Real.cos (angle u q)) := by
  unfold cosRound
  split_ifs with hzero hquarter hthird
  · have hcos : Real.cos (angle u q) = 1 := by simp [angle, hzero]
    rw [hcos, mul_one]
    exact (roundHe_intCast A).symm
  · rw [hquarter, cos_angle_quarter hq, mul_zero]
    simpa using (roundHe_intCast 0).symm
  · have hangle : angle u q = Real.pi / 3 := by
      have hthird' : (3 : ℝ) * u = 2 * q := by exact_mod_cast hthird
      have hq' : (q : ℝ) ≠ 0 := by positivity
      unfold angle
      field_simp
      linarith
    rw [hangle, Real.cos_pi_div_three, mul_one_div]
    exact roundHalfEven_eq_roundHe A two_pos
  · have hscan := abs_sub_cosScan_lt hA (by omega) hthird A le_rfl (by
      have hone := Real.cos_le_one (angle u q)
      nlinarith [(A.cast_nonneg : (0 : ℝ) ≤ A)])
    exact (roundHe_eq_iff.2 (.inl (by exact_mod_cast hscan))).symm

theorem cos_angle_mod (u : Nat) {q : Nat} (hq : 0 < q) :
    Real.cos (angle (u % (4 * q)) q) = Real.cos (angle u q) := by
  have hq' : (q : ℝ) ≠ 0 := by positivity
  have hdiv : ((u % (4 * q) : Nat) : ℝ) + 4 * q * ((u / (4 * q) : Nat) : ℝ) = u := by
    exact_mod_cast Nat.mod_add_div u (4 * q)
  rw [← Real.cos_add_nat_mul_two_pi _ (u / (4 * q))]
  congr 1
  unfold angle
  rw [← hdiv]
  field_simp
  ring

theorem angle_sub {v w q : Nat} (h : w ≤ v) : angle (v - w) q = angle v q - angle w q := by
  unfold angle
  rw [Nat.cast_sub h]
  ring

theorem angle_two_mul {q : Nat} (hq : 0 < q) : angle (2 * q) q = Real.pi := by
  have hq' : (q : ℝ) ≠ 0 := by positivity
  unfold angle
  push_cast
  field_simp

theorem angle_four_mul {q : Nat} (hq : 0 < q) : angle (4 * q) q = 2 * Real.pi := by
  have hq' : (q : ℝ) ≠ 0 := by positivity
  unfold angle
  push_cast
  field_simp
  ring

/-- The entry of any angle: each quadrant is the first one turned or reflected, and round_he is odd (R94). -/
theorem carrierEntry_eq_roundHe {A q : Nat} (hA : A ≤ 127) (hq : 0 < q) (u : Nat) :
    carrierEntry A u q = roundHe (A * Real.cos (angle u q)) := by
  have hlt := Nat.mod_lt u (Nat.mul_pos four_pos hq)
  rw [← cos_angle_mod u hq]
  unfold carrierEntry
  dsimp only
  generalize u % (4 * q) = v at hlt
  split_ifs with hfirst hsecond hthird
  · exact cosRound_eq_roundHe hA hq hfirst
  · rw [cosRound_eq_roundHe hA hq (by omega), angle_sub hsecond, angle_two_mul hq, Real.cos_pi_sub, mul_neg, roundHe_neg,
      neg_neg]
  · rw [cosRound_eq_roundHe hA hq (by omega), angle_sub (by omega), angle_two_mul hq, Real.cos_sub_pi, mul_neg,
      roundHe_neg, neg_neg]
  · rw [cosRound_eq_roundHe hA hq (by omega), angle_sub hlt.le, angle_four_mul hq, Real.cos_two_pi_sub]

theorem angle_of_I {FS : Nat} (hFS : 0 < FS) (FC i : Nat) : angle (4 * (i * FC) + FS) FS = entryAngle FS FC i := by
  have hFS' : (FS : ℝ) ≠ 0 := by positivity
  unfold angle entryAngle
  push_cast
  field_simp
  ring

theorem angle_of_Q {FS : Nat} (hFS : 0 < FS) (FC i : Nat) :
    angle (4 * (i * FC) + 2 * FS) FS = entryAngle FS FC i + Real.pi / 2 := by
  have hFS' : (FS : ℝ) ≠ 0 := by positivity
  unfold angle entryAngle
  push_cast
  field_simp
  ring

theorem carrierI_eq_roundHe {FS A : Nat} (hA : A ≤ 127) (hFS : 0 < FS) (FC i : Nat) :
    carrierI FS FC A i = roundHe (A * Real.cos (entryAngle FS FC i)) := by
  rw [carrierI, carrierEntry_eq_roundHe hA hFS, angle_of_I hFS]

theorem carrierQ_eq_roundHe {FS A : Nat} (hA : A ≤ 127) (hFS : 0 < FS) (FC i : Nat) :
    carrierQ FS FC A i = roundHe (-A * Real.sin (entryAngle FS FC i)) := by
  rw [carrierQ, carrierEntry_eq_roundHe hA hFS, angle_of_Q hFS, Real.cos_add_pi_div_two, mul_neg, neg_mul]

/-- Settles O14: the length and the cells of the loaded table are round_he of their reals. -/
theorem buildTableIsExact : Obligations.BuildTableIsExact := by
  intro s fs fc amp hready
  obtain ⟨-, -, -, hpos, hle⟩ := id hready
  have hamp : amp.toNat ≤ 127 := by omega
  refine ⟨_, _, hready.exec_build, rfl, roundHalfEven_eq_roundHe _ hpos, fun i hi => ?_⟩
  rw [← carrierI_eq_roundHe hamp (by omega), ← carrierQ_eq_roundHe hamp (by omega)]
  exact read_write_carrierTable s.lut hi

/-! ### Bounds, the first pair and the length -/

theorem toInt_sampleCell {v : Int} (hv : v.natAbs ≤ 127) : (sampleCell v).toInt = v := by
  unfold sampleCell
  rw [BitVec.toInt_ofInt]
  exact Int.bmod_eq_of_le (by omega) (by omega)

/-- A cell in -A to +A; for A ≤ 127 that leaves out the pattern of -128 (R97). -/
def WithinAmplitude (A : Nat) (c : Byte) : Prop := -(A : ℤ) ≤ c.toInt ∧ c.toInt ≤ A

theorem WithinAmplitude.ne_min {A : Nat} {c : Byte} (hA : A ≤ 127) (h : WithinAmplitude A c) : c ≠ 0x80#8 := by
  rintro rfl
  have hmin : (0x80#8).toInt = -128 := by decide
  have hlow := h.1
  omega

theorem withinAmplitude_sampleCell {A : Nat} (hA : A ≤ 127) {v : Int} (hv : v.natAbs ≤ A) :
    WithinAmplitude A (sampleCell v) := by
  have htoInt := toInt_sampleCell (hv.trans hA)
  constructor <;> omega

theorem carrierTable_withinAmplitude {FS FC A : Nat} (hA : A ≤ 127) :
    ∀ c ∈ carrierTable FS FC A, WithinAmplitude A c := by
  intro c hc
  obtain ⟨i, -, hc⟩ := List.mem_flatMap.1 hc
  simp only [List.mem_cons, List.not_mem_nil, or_false] at hc
  rcases hc with rfl | rfl
  all_goals exact withinAmplitude_sampleCell hA (carrierEntry_natAbs_le ..)

/-- Settles O15: the table fills LUT up to TABLE_LEN with entries of its amplitude. -/
theorem tableEntriesLieWithinAmplitude : Obligations.TableEntriesLieWithinAmplitude := by
  intro s fs fc amp hready
  have hamp : amp.toNat ≤ 127 := by omega
  have hfilled := (Memory.filled_zero s.lut _).write
    (carrierTable_withinAmplitude (FS := fs.toNat) (FC := fc.toNat) hamp)
  rw [Nat.zero_add, carrierTable_length] at hfilled
  refine ⟨_, _, hready.exec_build, rfl, fun a ha => ?_⟩
  obtain ⟨c, hread, hwithin⟩ := hfilled a ha
  exact ⟨c, hread, hwithin.1, hwithin.2, hwithin.ne_min hamp⟩

theorem carrierI_zero {FS : Nat} (hFS : 0 < FS) (FC A : Nat) : carrierI FS FC A 0 = 0 := by
  have hmod : FS % (4 * FS) = FS := Nat.mod_eq_of_lt (by omega)
  simp [carrierI, carrierEntry, cosRound, hmod, hFS.ne']

theorem carrierQ_zero {FS : Nat} (hFS : 0 < FS) (FC A : Nat) : carrierQ FS FC A 0 = -A := by
  have hmod : 2 * FS % (4 * FS) = 2 * FS := Nat.mod_eq_of_lt (by omega)
  have hnot : ¬2 * FS ≤ FS := by omega
  simp [carrierQ, carrierEntry, cosRound, hmod, hnot]

/-- Settles O16: pair 0 stands at a quarter turn, where the cosine is 0 and the negated sine -1. -/
theorem tableStartsAtMinusAmplitude : Obligations.TableStartsAtMinusAmplitude := by
  intro s fs fc amp hready
  obtain ⟨-, -, -, hpos, hle⟩ := id hready
  have hFS : 0 < fs.toNat := by omega
  have hpairs : 0 < pairCount fs.toNat fc.toNat := two_pos.trans_le (two_le_pairCount (Nat.ne_of_gt hpos) hle)
  obtain ⟨hI, hQ⟩ := read_write_carrierTable s.lut (A := amp.toNat) hpairs
  rw [carrierI_zero hFS] at hI
  rw [carrierQ_zero hFS] at hQ
  exact ⟨_, hready.exec_build, hI, hQ⟩

/-- round_he(a/b) stays at or below m exactly below m + 1/2, and at m + 1/2 for an even m. -/
theorem roundHalfEven_le_iff {a b m : Nat} (hb : 0 < b) :
    roundHalfEven a b ≤ m ↔ 2 * a < (2 * m + 1) * b ∨ 2 * a = (2 * m + 1) * b ∧ m % 2 = 0 := by
  have hdiv := Nat.div_add_mod a b
  have hmod := Nat.mod_lt a hb
  unfold roundHalfEven
  generalize a / b = d at hdiv ⊢
  generalize a % b = r at hdiv hmod ⊢
  rcases lt_trichotomy d m with hlt | rfl | hgt
  · have hmul : b * (d + 1) ≤ b * m := Nat.mul_le_mul_left b hlt
    have hbelow : 2 * a < (2 * m + 1) * b := by nlinarith
    split_ifs <;> omega
  · have hmul : (2 * d + 1) * b = 2 * (b * d) + b := by ring
    split_ifs <;> omega
  · have hmul : b * (m + 1) ≤ b * d := Nat.mul_le_mul_left b hgt
    have habove : (2 * m + 1) * b < 2 * a := by nlinarith
    split_ifs <;> omega

/-- Settles O17: each clause compares FS/FC with a half-integer. -/
theorem pairCountIsAtLeastTwo : Obligations.PairCountIsAtLeastTwo := by
  intro s fs fc amp hready
  obtain ⟨-, -, -, hpos, hle⟩ := id hready
  have htwo := two_le_pairCount (by omega) hle
  have hmax : pairCount fs.toNat fc.toNat ≤ fs.toNat := (roundHalfEven_le_iff hpos).2 (.inl (by nlinarith))
  refine ⟨_, _, hready.exec_build, rfl, htwo, by omega, ?_, hmax, fun hone => hmax.antisymm ?_⟩
  · have hiff := roundHalfEven_le_iff (a := fs.toNat) (m := 2) hpos
    change pairCount _ _ ≤ 2 ↔ _ at hiff
    omega
  · calc fs.toNat = fs.toNat / fc.toNat := by rw [hone, Nat.div_one]
      _ ≤ pairCount fs.toNat fc.toNat := div_le_roundHalfEven fs.toNat fc.toNat

/-! ### Half a turn -/

theorem carrierEntry_mod (A u q : Nat) : carrierEntry A (u % (4 * q)) q = carrierEntry A u q := by
  unfold carrierEntry
  rw [Nat.mod_mod]

theorem carrierEntry_add_full_turns (A u q k : Nat) : carrierEntry A (u + 4 * q * k) q = carrierEntry A u q := by
  rw [← carrierEntry_mod, Nat.add_mul_mod_self_left, carrierEntry_mod]

/-- Half a turn takes the first quadrant to the third and the second to the fourth, where the entry has the other
sign. -/
theorem carrierEntry_add_half_turn_of_lt {u q : Nat} (A : Nat) (hu : u < 2 * q) :
    carrierEntry A (u + 2 * q) q = -carrierEntry A u q := by
  have hmod : u % (4 * q) = u := Nat.mod_eq_of_lt (by omega)
  have hmod' : (u + 2 * q) % (4 * q) = u + 2 * q := Nat.mod_eq_of_lt (by omega)
  simp only [carrierEntry, hmod, hmod']
  rw [if_neg (by omega)]
  by_cases hfirst : u ≤ q
  · rw [if_pos hfirst]
    by_cases hzero : u = 0
    · subst hzero
      rw [if_pos (by omega), Nat.zero_add, Nat.sub_self]
    · rw [if_neg (by omega), if_pos (by omega), Nat.add_sub_cancel]
  · rw [if_neg (by omega), if_neg (by omega), if_neg hfirst, if_pos hu.le, neg_neg]
    congr 2
    omega

/-- The other two quadrants are a further half turn on. -/
theorem carrierEntry_add_half_turn {q : Nat} (hq : 0 < q) (A u : Nat) :
    carrierEntry A (u + 2 * q) q = -carrierEntry A u q := by
  have hlt := Nat.mod_lt u (Nat.mul_pos four_pos hq)
  have hdiv := Nat.mod_add_div u (4 * q)
  generalize u % (4 * q) = v at hlt hdiv
  generalize u / (4 * q) = k at hdiv
  subst hdiv
  rw [add_right_comm, carrierEntry_add_full_turns, carrierEntry_add_full_turns]
  by_cases hv : v < 2 * q
  · exact carrierEntry_add_half_turn_of_lt A hv
  · obtain ⟨w, rfl⟩ := Nat.exists_eq_add_of_le' (Nat.not_lt.1 hv)
    have hfull : w + 2 * q + 2 * q = w + 4 * q * 1 := by ring
    rw [hfull, carrierEntry_add_full_turns, carrierEntry_add_half_turn_of_lt A (by omega), neg_neg]

/-- Pairs i and i + j stand half a turn apart, whatever the phase `w` of the component. -/
theorem carrierEntry_half_turn_apart {FS FC j : Nat} (hFS : 0 < FS) (hturn : 2 * (j * FC) % (2 * FS) = FS)
    (A i w : Nat) :
    carrierEntry A (4 * ((i + j) * FC) + w) FS = -carrierEntry A (4 * (i * FC) + w) FS := by
  have hdiv := Nat.mod_add_div (2 * (j * FC)) (2 * FS)
  rw [hturn] at hdiv
  generalize 2 * (j * FC) / (2 * FS) = k at hdiv
  have hangle : 4 * ((i + j) * FC) + w = 4 * (i * FC) + w + 2 * FS + 4 * FS * k :=
    calc 4 * ((i + j) * FC) + w = 4 * (i * FC) + w + 2 * (2 * (j * FC)) := by ring
      _ = 4 * (i * FC) + w + 2 * FS + 4 * FS * k := by rw [← hdiv]; ring
  rw [hangle, carrierEntry_add_full_turns, carrierEntry_add_half_turn hFS]

/-- Settles O18: both components turn by the same half turn. -/
theorem halfTurnNegatesEntries : Obligations.HalfTurnNegatesEntries := by
  intro FS FC A i j hFS hturn
  exact ⟨carrierEntry_half_turn_apart hFS hturn A i FS, carrierEntry_half_turn_apart hFS hturn A i (2 * FS)⟩

/-! ### What changes a result (R100) -/

/-- The results of the three commands: the table, the waveform and the covering sequence. -/
def State.results (s : State) :=
  (s.tableResult, s.waveformResult, s.coveringResult)

theorem State.results_eq_iff {s t : State} : t.results = s.results ↔
    t.tableResult = s.tableResult ∧ t.waveformResult = s.waveformResult ∧ t.coveringResult = s.coveringResult := by
  simp only [State.results, Prod.mk.injEq]

theorem asBits_eq_some {w : Nat} {v : Int} {b : BitVec w} (h : asBits w v = some b) : v = b.toNat := by
  unfold asBits at h
  split at h
  · rename_i hfits
    cases h
    have hpow : ((2 ^ w : Nat) : Int) = 2 ^ w := by push_cast; rfl
    rw [BitVec.toNat_ofInt, hpow, Int.emod_eq_of_lt hfits.1 hfits.2, Int.toNat_of_nonneg hfits.1]
  · cases h

theorem hostWriteReg_results {r : Reg} (hr : r ≠ .cmd) {v : Int} {s t : State} (h : hostWriteReg r v s = .next t) :
    t.results = s.results := by
  obtain rfl | ⟨_, rfl⟩ | ⟨_, rfl⟩ | ⟨_, rfl⟩ | ⟨_, rfl⟩ | ⟨_, rfl⟩ | ⟨_, rfl⟩ | ⟨_, rfl⟩ | ⟨_, rfl⟩ | ⟨_, rfl⟩ :=
    hostWriteReg_cases hr h
  all_goals rfl

/-- A host write of CMD that goes on is one of a byte, and runs its command (R38). -/
theorem hostWrite_cmd_runs {v : Int} {s t : State} (hcmd : s.cmd = none) (h : hostWrite .cmd v s = .next t) :
    ∃ c : Byte, v = c.toNat ∧ exec (decodeByte .cmd8 c) s = .next t := by
  cases hv : asBits 8 v with
  | none => simp [hostWrite, hostWriteReg, hv] at h
  | some c =>
    obtain rfl := asBits_eq_some hv
    exact ⟨c, rfl, (hostWrite_cmd c hcmd).symm.trans h⟩

/-- What a host action does to the results: nothing, unless it is a reset or runs a command (R181, R190). -/
theorem hostStep_results {a : HostAction} {s t : State} (hcmd : s.cmd = none) (h : hostStep a s = .next t) :
    t.results = s.results ∨ a = .reset ∨
      ∃ c : Byte, a = .writeReg .cmd c.toNat ∧ exec (decodeByte .cmd8 c) s = .next t := by
  cases a with
  | writeReg r v =>
    by_cases hr : r = .cmd
    · subst hr
      obtain ⟨c, rfl, hrun⟩ := hostWrite_cmd_runs hcmd h
      exact .inr (.inr ⟨c, rfl, hrun⟩)
    · rw [hostStep, hostWrite_of_ne hr] at h
      exact .inl (hostWriteReg_results hr h)
  | readReg r => obtain ⟨_, rfl⟩ := hostReadReg_cases h; exact .inl rfl
  | writeCell sp i c => obtain ⟨_, rfl⟩ | ⟨_, rfl⟩ := hostWriteCell_cases h <;> exact .inl rfl
  | readCell sp i => obtain ⟨_, rfl⟩ := hostReadCell_cases h; exact .inl rfl
  | encode msg map => obtain rfl := hostEncode_cases h; exact .inl rfl
  | reset => exact .inr (.inl rfl)

/-- What a step between commands does to the results: nothing, unless it is a reset or runs a command, from a state with
the same results. -/
theorem idle_step_results {s t : State} (hidle : s.engine = .idle) (h : step s = .next t) :
    t.results = s.results ∨ s.isReset ∨
      ∃ c u, s.runsCommand c ∧ u.results = s.results ∧ exec (decodeByte .cmd8 c) u = .next t := by
  cases hcmd : s.cmd with
  | some c =>
    rw [stepRunsCommandInCmd s c hidle hcmd] at h
    exact .inr (.inr ⟨c, { s with cmd := none }, ⟨hidle, .inl hcmd⟩, rfl, h⟩)
  | none =>
    cases hpending : s.host.pending with
    | nil =>
      simp only [step, hidle, idleStep, hcmd, hpending] at h
      cases h
      exact .inl rfl
    | cons a rest =>
      rw [step_eq_hostStep ⟨hidle, hcmd, hpending⟩] at h
      obtain hsame | rfl | ⟨c, rfl, hrun⟩ := hostStep_results (s := s.withPending rest) hcmd h
      · exact .inl hsame
      · exact .inr (.inl ⟨hidle, hcmd, rest, hpending⟩)
      · exact .inr (.inr ⟨c, s.withPending rest, ⟨hidle, .inr ⟨hcmd, rest, hpending⟩⟩, rfl, hrun⟩)

/-- The command codes and what each decodes to (R76, R77). -/
theorem decodeByte_cmd8_cases (d : Byte) :
    d = 0x01#8 ∧ decodeByte .cmd8 d = .build ∨ d = 0x02#8 ∧ decodeByte .cmd8 d = .generate ∨
      d = 0x03#8 ∧ decodeByte .cmd8 d = .debruijn ∨ decodeByte .cmd8 d = .reservedCmd d := by
  simp only [decodeByte, decodeCommand]
  split_ifs with hbuild hgenerate hdebruijn
  · exact .inl ⟨hbuild, rfl⟩
  · exact .inr (.inl ⟨hgenerate, rfl⟩)
  · exact .inr (.inr (.inl ⟨hdebruijn, rfl⟩))
  · exact .inr (.inr (.inr rfl))

/-- Each of the three commands keeps the results of the other two; a reserved code answers no next state (R77). -/
theorem exec_command_results {c : Byte} {s t : State} (h : exec (decodeByte .cmd8 c) s = .next t) :
    (c ≠ 0x01#8 → t.tableResult = s.tableResult) ∧ (c ≠ 0x02#8 → t.waveformResult = s.waveformResult) ∧
      (c ≠ 0x03#8 → t.coveringResult = s.coveringResult) := by
  obtain ⟨rfl, hi⟩ | ⟨rfl, hi⟩ | ⟨rfl, hi⟩ | hi := decodeByte_cmd8_cases c
  all_goals rw [hi] at h
  · exact ⟨fun hne => absurd rfl hne, fun _ => exec_waveformResult (.inl rfl) h,
      fun _ => exec_coveringResult (by decide) h⟩
  · exact ⟨fun _ => exec_tableResult (by decide) h, fun hne => absurd rfl hne, fun _ => exec_coveringResult (by decide) h⟩
  · exact ⟨fun _ => exec_tableResult (by decide) h, fun _ => exec_waveformResult (.inr (.inl rfl)) h,
      fun hne => absurd rfl hne⟩
  · cases h

/-- A step between commands that is no reset keeps every result whose command it does not run (R100, R191). -/
theorem idle_step_keeps_results {s t : State} (hidle : s.engine = .idle) (h : step s = .next t) (hreset : ¬s.isReset) :
    (¬s.runsCommand 0x01#8 → t.tableResult = s.tableResult) ∧
      (¬s.runsCommand 0x02#8 → t.waveformResult = s.waveformResult) ∧
      (¬s.runsCommand 0x03#8 → t.coveringResult = s.coveringResult) := by
  obtain hsame | hno | ⟨c, u, hruns, hu, hexec⟩ := idle_step_results hidle h
  · obtain ⟨htable, hwaveform, hcovering⟩ := State.results_eq_iff.1 hsame
    exact ⟨fun _ => htable, fun _ => hwaveform, fun _ => hcovering⟩
  · exact absurd hno hreset
  · obtain ⟨hutable, huwaveform, hucovering⟩ := State.results_eq_iff.1 hu
    obtain ⟨htable, hwaveform, hcovering⟩ := exec_command_results hexec
    have hother : ∀ {d : Byte}, ¬s.runsCommand d → c ≠ d := fun hd hcd => hd (hcd ▸ hruns)
    exact ⟨fun hd => (htable (hother hd)).trans hutable, fun hd => (hwaveform (hother hd)).trans huwaveform,
      fun hd => (hcovering (hother hd)).trans hucovering⟩

/-- Settles O56, result by result. -/
theorem resultsChangeOnlyByTheirCommandOrReset : Obligations.ResultsChangeOnlyByTheirCommandOrReset := by
  intro s t hidle h hreset
  obtain ⟨htable, hwaveform, hcovering⟩ := idle_step_keeps_results hidle h hreset
  refine ⟨fun hno => ?_, fun hno => ?_, fun hno => ?_⟩
  · obtain ⟨hlut, hpairs, -⟩ := State.tableResult_eq_iff.1 (htable hno)
    exact ⟨hlut, hpairs⟩
  · obtain ⟨hout, houtLen, hevt, hevtCount, -⟩ := State.waveformResult_eq_iff.1 (hwaveform hno)
    exact ⟨hout, houtLen, hevt, hevtCount⟩
  · obtain ⟨hseq, hseqLen, -⟩ := State.coveringResult_eq_iff.1 (hcovering hno)
    exact ⟨hseq, hseqLen⟩

end Sys2Proof.Machine

/-! ENCODE of 41_symbol_encoder.md: what one character becomes (R110, R112), how a string is made of that (R111, R115),
and that the instruction leaves OOKGEN as it was (R110, R113). -/

namespace Sys2Proof.Machine

/-! ### One character -/

theorem encodeChar_of_lookup_some {map : Mapping} {c : Byte} {r : List Byte} (h : map.lookup c = some r) :
    encodeChar map c = r := by
  rw [encodeChar, h]

theorem encodeChar_of_lookup_none {map : Mapping} {c : Byte} (h : map.lookup c = none) : encodeChar map c = [c] := by
  rw [encodeChar, h]

/-! ### A string -/

@[simp] theorem encodeString_nil (map : Mapping) : encodeString [] map = [] := rfl

@[simp] theorem encodeString_cons (c : Byte) (msg : List Byte) (map : Mapping) :
    encodeString (c :: msg) map = encodeChar map c ++ encodeString msg map := rfl

/-- R111: no character's replacement depends on its neighbours. -/
theorem encodeString_append (m₁ m₂ : List Byte) (map : Mapping) :
    encodeString (m₁ ++ m₂) map = encodeString m₁ map ++ encodeString m₂ map :=
  List.flatMap_append

/-- R115, through what each character becomes. -/
theorem length_encodeString (msg : List Byte) (map : Mapping) :
    (encodeString msg map).length = (msg.map fun c => (encodeChar map c).length).sum :=
  List.length_flatMap

/-! ### The instruction -/

theorem exec_encode (msg : List Byte) (map : Mapping) (s : State) :
    exec (.encode msg map) s = .next { s with host := { s.host with encoded := some (encodeString msg map) } } := rfl

/-- Settles O40, by the equation of a head character and the two things it can become. -/
theorem encodeReplacesEachCharacter : Obligations.EncodeReplacesEachCharacter := by
  refine ⟨fun s msg map => exec_encode msg map s, fun map => ⟨encodeString_nil map, fun c msg => ⟨?_, ?_⟩⟩⟩
  · intro r hkey
    rw [encodeString_cons, encodeChar_of_lookup_some hkey]
  · intro hnokey
    rw [encodeString_cons, encodeChar_of_lookup_none hnokey, List.singleton_append]

/-- Settles O41: the encoding is a concatenation over the characters, so its length is a sum over them. -/
theorem encodeDistributesOverConcatenation : Obligations.EncodeDistributesOverConcatenation := by
  intro map m₁ m₂
  refine ⟨encodeString_nil map, encodeString_append m₁ m₂ map, ?_⟩
  rw [length_encodeString]
  congr 2
  funext c
  cases hc : map.lookup c with
  | some r => rw [encodeChar_of_lookup_some hc]
  | none => rw [encodeChar_of_lookup_none hc, List.length_singleton]

end Sys2Proof.Machine

/-! The waveform of 42_waveform.md: what each symbol appends, reports and leaves (R121 to R125, R128), and GENERATE as
the endlessly repeated table gated by its symbols (R120, R130), up to the first malformed one in strict mode (R173). -/

namespace Sys2Proof.Machine

/-! ### What one symbol does -/

/-- Settles O5: the turn of GENERATE's loop at SPC is the symbol step of the cell there. -/
theorem stepRunsSymbolAtSpc : Obligations.StepRunsSymbolAtSpc := by
  intro s c count hgen hcount hspc hread
  calc step s = symbolFetch s := step_of_generating hgen
    _ = symbolStep (decodeSymbol c) s := symbolFetch_of_symbol hcount hspc hread
    _ = exec (decodeByte .sym8 c) s := (exec_toInstr _ s).symm

theorem execActive_of_entries {s : State} {se l : Nat} {vs : List Byte} (hse : s.symEntries = some se)
    (hl : s.tableLen = some l) (hvs : s.activeEntries se l = some vs) :
    execActive s = .next ((s.appendOut vs).advance se) := by
  simp only [execActive, hse, hl, hvs]

theorem execInactive_of_entries {s : State} {se : Nat} (hse : s.symEntries = some se) :
    execInactive s = .next ((s.appendOut (silence se)).advance se) := by
  simp only [execInactive, hse]

theorem execPause_of_entries {s : State} {pe : Nat} (hpe : s.pauseEntries = some pe) :
    execPause s = .next ((s.appendOut (silence pe)).advance pe) := by
  simp only [execPause, hpe]

theorem execMalformed_of_permissive {s : State} (hstrict : s.strict = false) (c : Byte) :
    execMalformed c s = .next ((s.reportMalformed c).advance 0) := by
  simp [execMalformed, hstrict]

theorem execMalformed_of_strict {s : State} (hstrict : s.strict = true) (c : Byte) :
    execMalformed c s = .next (s.reportMalformed c).strictAbort := by
  simp [execMalformed, hstrict]

theorem State.symEntries_of_symbolLen {s : State} {sl : Word} (h : s.symbolLen = some sl) :
    s.symEntries = some (2 * sl.toNat) := by
  rw [State.symEntries, h, Option.map_some]

theorem State.pauseEntries_of_pauseLen {s : State} {pl : Word} (h : s.pauseLen = some pl) :
    s.pauseEntries = some (2 * pl.toNat) := by
  rw [State.pauseEntries, h, Option.map_some]

/-- A symbol that appends `m` entries changes OUT, its length and the two counters alone (R121). -/
theorem State.appendOut_advance_eq {vs : List Byte} {m : Nat} (s : State) (hlen : vs.length = m) :
    (s.appendOut vs).advance m =
      { s with out := s.out.write s.outLen vs, outLen := s.outLen + m, ctr := s.ctr + m, spc := s.spc + 1 } := by
  subst hlen
  rfl

theorem silence_getElem? {n i : Nat} (hi : i < n) : (silence n)[i]? = some 0#8 :=
  List.getElem?_replicate_of_lt hi

/-- Settles O19: the entries exist since every phase index lies in the filled table, and they are written at OUT_LEN. -/
theorem activeAppendsCarrier : Obligations.ActiveAppendsCarrier := by
  refine ⟨rfl, fun s sl n hsl hpairs hpos hfilled => ?_⟩
  have htable : s.TableWritten n := ⟨hpairs, hpos, hfilled⟩
  obtain ⟨vs, hvs⟩ := State.activeEntries_some (se := 2 * sl.toNat) (Nat.mul_pos two_pos hpos) hfilled
  have hlen : vs.length = 2 * sl.toNat := State.activeEntries_length hvs
  refine ⟨_, execActive_of_entries (State.symEntries_of_symbolLen hsl) htable.tableLen_eq hvs, fun i hi => ?_,
    fun a ha => ?_, State.appendOut_advance_eq s hlen⟩
  · calc (s.out.write s.outLen vs).read (s.outLen + i) = vs[i]? := Memory.read_write_same _ (hi.trans_eq hlen.symm)
      _ = s.lut.read ((i + s.ctr) % (2 * n)) := (State.activeEntries_get hvs hi).2.symm
  · exact Memory.read_write_other _ (hlen ▸ ha)

/-- What OUT reads as after a span of `m` zeros at its end (R123, R124). -/
theorem State.read_appendOut_silence (s : State) (m : Nat) :
    (∀ i < m, (s.appendOut (silence m)).out.read (s.outLen + i) = some 0#8) ∧
      ∀ a, a < s.outLen ∨ s.outLen + m ≤ a → (s.appendOut (silence m)).out.read a = s.out.read a := by
  have hlen := silence_length m
  refine ⟨fun i hi => ?_, fun a ha => Memory.read_write_other _ (hlen.symm ▸ ha)⟩
  calc (s.out.write s.outLen (silence m)).read (s.outLen + i)
      = (silence m)[i]? := Memory.read_write_same _ (hi.trans_eq hlen.symm)
    _ = some 0#8 := silence_getElem? hi

/-- Settles O20: a span of SE zeros at OUT_LEN. -/
theorem inactiveAppendsSilence : Obligations.InactiveAppendsSilence := by
  refine ⟨rfl, fun s sl hsl => ?_⟩
  obtain ⟨hspan, hother⟩ := s.read_appendOut_silence (2 * sl.toNat)
  exact ⟨_, execInactive_of_entries (State.symEntries_of_symbolLen hsl), hspan, hother,
    State.appendOut_advance_eq s (silence_length _)⟩

/-- Settles O21: a span of PE zeros at OUT_LEN. -/
theorem pauseAppendsSilence : Obligations.PauseAppendsSilence := by
  refine ⟨rfl, fun s pl hpl => ?_⟩
  obtain ⟨hspan, hother⟩ := s.read_appendOut_silence (2 * pl.toNat)
  exact ⟨_, execPause_of_entries (State.pauseEntries_of_pauseLen hpl), hspan, hother,
    State.appendOut_advance_eq s (silence_length _)⟩

/-- Settles O22: one record is written at EVT_COUNT. -/
theorem malformedIsReported : Obligations.MalformedIsReported := fun _ c hstrict =>
  ⟨_, execMalformed_of_permissive hstrict c, Memory.read_write_single _ _ _,
    fun _ ha => Memory.read_write_single_of_ne _ ha _, rfl⟩

/-- Settles O23: the record is written as in permissive mode, and the abort then empties OUT. -/
theorem malformedAbortsInStrictMode : Obligations.MalformedAbortsInStrictMode := fun _ c hstrict =>
  ⟨_, execMalformed_of_strict hstrict c, Memory.read_write_single _ _ _,
    fun _ ha => Memory.read_write_single_of_ne _ ha _, Memory.read_nil, rfl⟩

theorem phaseIndices_mod (ctr se l : Nat) : phaseIndices (ctr % l) se l = phaseIndices ctr se l := by
  simp only [phaseIndices, Nat.add_mod_mod]

/-- Settles O24: CTR enters through the phase indices alone. -/
theorem activeReadsPhaseModuloTable : Obligations.ActiveReadsPhaseModuloTable := by
  refine fun s se l i => ⟨(Nat.add_mod_mod i s.ctr l).symm, ?_⟩
  simp only [State.activeEntries, phaseIndices_mod]

/-! ### A GENERATE that fails -/

/-- The causes of R120 and R162. -/
def State.GenerateFails (s : State) : Prop :=
  s.status.lutValid = false ∨ s.symbolLen = none ∨ s.pauseLen = none ∨ s.symCount = none

theorem execGenerate_of_fails {s : State} (h : s.GenerateFails) : execGenerate s = .next s.raiseInvalidParameter := by
  obtain hvalid | hsl | hpl | hcount := h
  · simp [execGenerate, hvalid]
  · simp [execGenerate, hsl]
  · simp [execGenerate, hpl]
  · simp [execGenerate, hcount]

/-- Between commands the entry of InvalidParameter changes DONE and ERR alone (R164). -/
theorem State.raiseInvalidParameter_of_idle {s : State} (hidle : s.engine = .idle) :
    s.raiseInvalidParameter = { s with status := { s.status with done := false, err := .invalidParameter } } := by
  simp only [State.raiseInvalidParameter, Status.fail, ← hidle]

/-- Settles O25: every cause ends in the error's entry. -/
theorem generateFailureChangesOnlyStatus : Obligations.GenerateFailureChangesOnlyStatus := fun _ hidle hfails =>
  (execGenerate_of_fails hfails).trans (congrArg _ (State.raiseInvalidParameter_of_idle hidle))

/-! ### Gates and reports of a string -/

theorem gate_append (se pe : Nat) (cs ds : List Byte) : gate se pe (cs ++ ds) = gate se pe cs ++ gate se pe ds := by
  induction cs with
  | nil => rfl
  | cons c cs ih => simp only [List.cons_append, gate, ih, List.append_assoc]

theorem reports_singleton (pos : Nat) (c : Byte) :
    reports pos [c] = if isMalformedCode c then [{ pos := pos, symc := c }] else [] := by
  cases hcode : isMalformedCode c with
  | true => simp [reports, decodeSymbol_of_isMalformedCode hcode]
  | false =>
    cases hx : decodeSymbol c with
    | active | inactive | pause => simp [reports, hx]
    | malformed x =>
      obtain rfl := eq_of_decodeSymbol_malformed hx
      simp [isMalformedCode_of_decodeSymbol hx] at hcode

theorem reports_cons (pos : Nat) (c : Byte) (cs : List Byte) :
    reports pos (c :: cs) = reports pos [c] ++ reports (pos + 1) cs := by
  cases hx : decodeSymbol c <;> simp [reports, hx]

theorem reports_append (pos : Nat) (cs ds : List Byte) :
    reports pos (cs ++ ds) = reports pos cs ++ reports (pos + cs.length) ds := by
  induction cs generalizing pos with
  | nil => rfl
  | cons c cs ih =>
    rw [List.cons_append, reports_cons, ih, reports_cons pos c cs, List.append_assoc, List.length_cons,
      Nat.add_assoc, Nat.add_comm 1]

/-- A string with something to report has a first malformed character (R128). -/
theorem exists_first_malformed {pos : Nat} {cs : List Byte} (h : reports pos cs ≠ []) :
    ∃ before c after, cs = before ++ c :: after ∧ reports pos before = [] ∧ isMalformedCode c = true := by
  induction cs generalizing pos with
  | nil => exact absurd rfl h
  | cons c cs ih =>
    cases hc : isMalformedCode c with
    | true => exact ⟨[], c, cs, rfl, rfl, hc⟩
    | false =>
      have hnone : reports pos [c] = [] := by simp [reports_singleton, hc]
      rw [reports_cons, hnone, List.nil_append] at h
      obtain ⟨before, d, after, rfl, hbefore, hd⟩ := ih h
      exact ⟨c :: before, d, after, rfl, by rw [reports_cons, hnone, hbefore]; rfl, hd⟩

/-- R134, symbol by symbol: each adds its own span to the length and one to its own count. -/
theorem length_gate (se pe : Nat) (cs : List Byte) :
    (gate se pe cs).length = se * (cs.count 0x31#8 + cs.count 0x30#8) + pe * cs.count 0x70#8 := by
  induction cs with
  | nil => rfl
  | cons c cs ih =>
    rw [gate, List.length_append, ih]
    unfold decodeSymbol
    split_ifs <;> grind

/-! ### An index space that holds a list -/

/-- A cell written after those that hold a list makes it one longer (00_scope.md R13). -/
theorem Memory.read_write_end {α : Type} {m : Memory α} {vs : List α} (hm : ∀ e, m.read e = vs[e]?) (v : α) (e : Nat) :
    (m.write vs.length [v]).read e = (vs ++ [v])[e]? := by
  rcases lt_trichotomy e vs.length with hlt | rfl | hgt
  · rw [Memory.read_write_single_of_ne _ hlt.ne, hm, List.getElem?_append_left hlt]
  · rw [Memory.read_write_single, List.getElem?_concat_length]
  · rw [Memory.read_write_single_of_ne _ hgt.ne', hm, List.getElem?_eq_none hgt.le,
      List.getElem?_eq_none (by simpa using hgt)]

/-! ### The repeated table under a gate -/

/-- Entry `e` of the `l` cells of `lut` endlessly repeated and gated by `g` (R130). -/
def gatedEntry (lut : Memory Byte) (l : Nat) (g : List Bool) (e : Nat) : Option Byte :=
  match g[e]? with
  | some true => lut.read (e % l)
  | some false => some 0#8
  | none => none

theorem gatedEntry_of_length_le {lut : Memory Byte} {l e : Nat} {g : List Bool} (h : g.length ≤ e) :
    gatedEntry lut l g e = none := by
  rw [gatedEntry, List.getElem?_eq_none h]

theorem gatedEntry_append_left {lut : Memory Byte} {l e : Nat} {g : List Bool} (h : e < g.length) (b : List Bool) :
    gatedEntry lut l (g ++ b) e = gatedEntry lut l g e := by
  rw [gatedEntry, List.getElem?_append_left h, gatedEntry]

theorem gatedEntry_append_replicate {lut : Memory Byte} {l m i : Nat} (hi : i < m) (g : List Bool) (on : Bool) :
    gatedEntry lut l (g ++ List.replicate m on) (g.length + i) =
      if on then lut.read ((g.length + i) % l) else some 0#8 := by
  rw [gatedEntry, List.getElem?_append_right (Nat.le_add_right _ _), Nat.add_sub_cancel_left,
    List.getElem?_replicate_of_lt hi]
  cases on <;> rfl

/-- The gated table reads LUT below `l` alone (R59). -/
theorem gatedEntry_congr {lut lut' : Memory Byte} {l : Nat} (hl : 0 < l) (h : ∀ i < l, lut.read i = lut'.read i)
    (g : List Bool) (e : Nat) : gatedEntry lut l g e = gatedEntry lut' l g e := by
  rw [gatedEntry, gatedEntry, h _ (Nat.mod_lt e hl)]

/-- A span of `m` entries written after a gated table extends its gate. -/
theorem read_write_gatedEntry {out lut : Memory Byte} {l m : Nat} {g : List Bool} {on : Bool} {vs : List Byte}
    (hout : ∀ e, out.read e = gatedEntry lut l g e) (hlen : vs.length = m)
    (hvs : ∀ i < m, vs[i]? = if on then lut.read ((g.length + i) % l) else some 0#8) (e : Nat) :
    (out.write g.length vs).read e = gatedEntry lut l (g ++ List.replicate m on) e := by
  rcases lt_or_ge e g.length with hlt | hge
  · rw [Memory.read_write_other _ (.inl hlt), hout, gatedEntry_append_left hlt]
  · obtain ⟨i, rfl⟩ := Nat.exists_eq_add_of_le hge
    rcases lt_or_ge i m with hi | hi
    · rw [Memory.read_write_same _ (hi.trans_eq hlen.symm), hvs i hi, gatedEntry_append_replicate hi]
    · rw [Memory.read_write_other _ (.inr (by omega)), hout, gatedEntry_of_length_le hge,
        gatedEntry_of_length_le (by simpa using hi)]

/-! ### GENERATE after some of its symbols -/

/-- Where a GENERATE begun on `s` stands after the symbols `done`, none of which ended it: OUT is the gated table, EVT
the reports so far, CTR = OUT_LEN (R127), and nothing else has changed. -/
structure State.Expands (s : State) (n : Nat) (sl pl : Word) (done : List Byte) (u : State) : Prop where
  out_read : ∀ e, u.out.read e = gatedEntry s.lut (2 * n) (gate (2 * sl.toNat) (2 * pl.toNat) done) e
  evt_read : ∀ e, u.evt.read e = (reports 0 done)[e]?
  frame : u =
    { s with
      out := u.out
      outLen := (gate (2 * sl.toNat) (2 * pl.toNat) done).length
      evt := u.evt
      evtCount := (reports 0 done).length
      status := s.status.setMalformed (decide (0 < (reports 0 done).length))
      ctr := (gate (2 * sl.toNat) (2 * pl.toNat) done).length
      spc := done.length
      engine := .generating }

section
variable {s u : State} {n : Nat} {sl pl : Word} {done : List Byte}

theorem State.expands_beginGenerate (s : State) (n : Nat) (sl pl : Word) : s.Expands n sl pl [] s.beginGenerate :=
  ⟨fun _ => rfl, fun _ => rfl, rfl⟩

theorem State.Expands.strict_eq (h : s.Expands n sl pl done u) : u.strict = s.strict := by rw [h.frame]

theorem State.Expands.symbolLen_eq (h : s.Expands n sl pl done u) : u.symbolLen = s.symbolLen := by rw [h.frame]

theorem State.Expands.pauseLen_eq (h : s.Expands n sl pl done u) : u.pauseLen = s.pauseLen := by rw [h.frame]

theorem State.Expands.nPairs_eq (h : s.Expands n sl pl done u) : u.nPairs = s.nPairs := by rw [h.frame]

theorem State.Expands.lut_eq (h : s.Expands n sl pl done u) : u.lut = s.lut := by rw [h.frame]

theorem State.Expands.sym_eq (h : s.Expands n sl pl done u) : u.sym = s.sym := by rw [h.frame]

theorem State.Expands.spc_eq (h : s.Expands n sl pl done u) : u.spc = done.length := congrArg State.spc h.frame

theorem State.Expands.engine_eq (h : s.Expands n sl pl done u) : u.engine = .generating :=
  congrArg State.engine h.frame

theorem State.Expands.outLen_eq (h : s.Expands n sl pl done u) :
    u.outLen = (gate (2 * sl.toNat) (2 * pl.toNat) done).length := congrArg State.outLen h.frame

theorem State.Expands.ctr_eq (h : s.Expands n sl pl done u) :
    u.ctr = (gate (2 * sl.toNat) (2 * pl.toNat) done).length := congrArg State.ctr h.frame

theorem State.Expands.evtCount_eq (h : s.Expands n sl pl done u) : u.evtCount = (reports 0 done).length :=
  congrArg State.evtCount h.frame

/-- A symbol with a span of `m` entries, all on or all off, and nothing to report. -/
theorem State.Expands.appendOut_advance {c : Byte} {m : Nat} {on : Bool} {vs : List Byte}
    (h : s.Expands n sl pl done u) (hgate : gate (2 * sl.toNat) (2 * pl.toNat) [c] = List.replicate m on)
    (hreports : reports done.length [c] = []) (hlen : vs.length = m)
    (hvs : ∀ i < m, vs[i]? = if on then s.lut.read ((u.outLen + i) % (2 * n)) else some 0#8) :
    s.Expands n sl pl (done ++ [c]) ((u.appendOut vs).advance m) := by
  have hgate' := gate_append (2 * sl.toNat) (2 * pl.toNat) done [c]
  rw [hgate] at hgate'
  have hreports' : reports 0 (done ++ [c]) = reports 0 done := by
    rw [reports_append, Nat.zero_add, hreports, List.append_nil]
  refine ⟨fun e => ?_, fun e => ?_, ?_⟩
  · rw [hgate', State.advance_out, State.appendOut_out, h.outLen_eq]
    rw [h.outLen_eq] at hvs
    exact read_write_gatedEntry h.out_read hlen hvs e
  · rw [hreports']
    exact h.evt_read e
  · rw [State.appendOut_advance_eq u hlen, hgate', hreports', h.frame]
    simp

/-- A reported symbol in permissive mode. -/
theorem State.Expands.reportMalformed_advance {c : Byte} (h : s.Expands n sl pl done u)
    (hc : isMalformedCode c = true) : s.Expands n sl pl (done ++ [c]) ((u.reportMalformed c).advance 0) := by
  have hgate : gate (2 * sl.toNat) (2 * pl.toNat) (done ++ [c]) = gate (2 * sl.toNat) (2 * pl.toNat) done := by
    rw [gate_append]
    simp [gate, decodeSymbol_of_isMalformedCode hc]
  have hreports : reports 0 (done ++ [c]) = reports 0 done ++ [{ pos := u.spc, symc := c }] := by
    rw [reports_append, reports_singleton, if_pos hc, Nat.zero_add, h.spc_eq]
  refine ⟨fun e => ?_, fun e => ?_, ?_⟩
  · rw [hgate]
    exact h.out_read e
  · rw [hreports, State.advance_evt, State.reportMalformed_evt, h.evtCount_eq]
    exact Memory.read_write_end h.evt_read _ e
  · rw [hgate, hreports, h.frame]
    simp [State.reportMalformed, State.advance, Status.setMalformed]

theorem State.ReadyToGenerate.tableWritten {cs : List Byte} (hready : s.ReadyToGenerate n sl pl cs) :
    s.TableWritten n :=
  ⟨hready.pairs, hready.pairs_pos, hready.table⟩

theorem State.Expands.tableWritten (h : s.Expands n sl pl done u) (htable : s.TableWritten n) : u.TableWritten n :=
  ⟨h.nPairs_eq.trans htable.pairs, htable.pairs_pos, h.lut_eq ▸ htable.cells⟩

/-- The next symbol of a ready GENERATE, where it does not abort (R121). -/
theorem State.Expands.symbolStep_next {cs : List Byte} {c : Byte} (h : s.Expands n sl pl done u)
    (hready : s.ReadyToGenerate n sl pl cs) (hc : s.strict = false ∨ reports done.length [c] = []) :
    ∃ v, symbolStep (decodeSymbol c) u = .next v ∧ s.Expands n sl pl (done ++ [c]) v := by
  have hse := State.symEntries_of_symbolLen (h.symbolLen_eq.trans hready.symbolLen)
  have hpe := State.pauseEntries_of_pauseLen (h.pauseLen_eq.trans hready.pauseLen)
  have htable := h.tableWritten hready.tableWritten
  cases hx : decodeSymbol c with
  | active =>
    have hpos := Nat.mul_pos two_pos htable.pairs_pos
    obtain ⟨vs, hvs⟩ := State.activeEntries_some (se := 2 * sl.toNat) hpos htable.cells
    refine ⟨_, execActive_of_entries hse htable.tableLen_eq hvs,
      h.appendOut_advance (on := true) (by simp [gate, hx]) (by simp [reports, hx]) (State.activeEntries_length hvs)
        fun i hi => ?_⟩
    rw [← (State.activeEntries_get hvs hi).2, h.lut_eq, if_pos rfl, h.ctr_eq, h.outLen_eq, Nat.add_comm i]
  | inactive =>
    exact ⟨_, execInactive_of_entries hse, h.appendOut_advance (on := false) (by simp [gate, hx])
      (by simp [reports, hx]) (silence_length _) fun _ hi => silence_getElem? hi⟩
  | pause =>
    exact ⟨_, execPause_of_entries hpe, h.appendOut_advance (on := false) (by simp [gate, hx])
      (by simp [reports, hx]) (silence_length _) fun _ hi => silence_getElem? hi⟩
  | malformed x =>
    obtain rfl := eq_of_decodeSymbol_malformed hx
    have hstrict : s.strict = false := hc.resolve_right (by simp [reports, hx])
    exact ⟨_, execMalformed_of_permissive (h.strict_eq.trans hstrict) x,
      h.reportMalformed_advance (isMalformedCode_of_decodeSymbol hx)⟩

theorem State.Expands.read_next {c : Byte} {rest : List Byte} (h : s.Expands n sl pl done u)
    (hsym : s.holdsSymbols (done ++ c :: rest)) : u.sym.read u.spc = some c := by
  rw [h.sym_eq, h.spc_eq, hsym.2 _ (by simp)]
  simp

/-- GENERATE comes to the end of every front part of its string with nothing in it to abort at; by induction on that
part, symbol after symbol. -/
theorem State.ReadyToGenerate.exec_generate_front {front : List Byte} : ∀ {rest : List Byte},
    s.ReadyToGenerate n sl pl (front ++ rest) → (s.strict = false ∨ reports 0 front = []) →
    ∃ u, s.Expands n sl pl front u ∧ exec .generate s = generateLoop rest.length u := by
  induction front using List.reverseRecOn with
  | nil =>
    intro rest hready _
    exact ⟨s.beginGenerate, s.expands_beginGenerate n sl pl,
      execGenerate_of_preconditions hready.valid hready.symbolLen hready.pauseLen hready.symbols.1⟩
  | append_singleton front c ih =>
    intro rest hready hgoes
    rw [List.append_assoc, List.singleton_append] at hready
    simp only [reports_append, List.append_eq_nil_iff, Nat.zero_add] at hgoes
    obtain ⟨u, hu, hexec⟩ := ih hready (hgoes.imp_right And.left)
    obtain ⟨v, hv, hnext⟩ := hu.symbolStep_next hready (hgoes.imp_right And.right)
    refine ⟨v, hnext, ?_⟩
    rw [hexec, List.length_cons, generateLoop_succ_of_symbol (hu.read_next hready.symbols), hv, andThen_next,
      if_pos hnext.engine_eq]

/-- A GENERATE that nothing aborts expands its whole string (R120). -/
theorem State.ReadyToGenerate.exec_generate {cs : List Byte} (hready : s.ReadyToGenerate n sl pl cs)
    (hgoes : s.strict = false ∨ reports 0 cs = []) :
    ∃ u, s.Expands n sl pl cs u ∧ exec .generate s = .next u.finishGenerate :=
  State.ReadyToGenerate.exec_generate_front (rest := []) (by rwa [List.append_nil]) hgoes

/-- In strict mode GENERATE expands what stands before the first malformed symbol, and aborts there (R128). -/
theorem State.ReadyToGenerate.exec_generate_abort {before after : List Byte} {c : Byte}
    (hready : s.ReadyToGenerate n sl pl (before ++ c :: after)) (hstrict : s.strict = true)
    (hbefore : reports 0 before = []) (hc : isMalformedCode c = true) :
    ∃ u, s.Expands n sl pl before u ∧ exec .generate s = .next (u.reportMalformed c).strictAbort := by
  obtain ⟨u, hu, hexec⟩ := hready.exec_generate_front (.inr hbefore)
  have hstep : symbolStep (decodeSymbol c) u = .next (u.reportMalformed c).strictAbort := by
    rw [decodeSymbol_of_isMalformedCode hc]
    exact execMalformed_of_strict (hu.strict_eq.trans hstrict) c
  refine ⟨u, hu, ?_⟩
  rw [hexec, List.length_cons, generateLoop_succ_of_symbol (hu.read_next hready.symbols), hstep, andThen_next,
    State.strictAbort_engine, if_neg (by decide)]

end

/-! ### The results of GENERATE -/

/-- Settles O26: GENERATE expands the whole string, and the end of the command adds the flags. -/
theorem generateGatesTheRepeatedTable : Obligations.GenerateGatesTheRepeatedTable := by
  intro s n sl pl cs hready hgoes
  obtain ⟨u, hu, hexec⟩ := hready.exec_generate hgoes
  refine ⟨_, hexec, hu.out_read, hu.evt_read, ?_⟩
  rw [hu.frame]
  rfl

/-- Settles O27: up to the malformed symbol nothing is reported, so its record is the first. -/
theorem generateStopsAtFirstMalformedInStrictMode : Obligations.GenerateStopsAtFirstMalformedInStrictMode := by
  intro s n sl pl before after c hready hstrict hbefore hc
  obtain ⟨u, hu, hexec⟩ := hready.exec_generate_abort hstrict hbefore hc
  have hcount : u.evtCount = 0 := by rw [hu.evtCount_eq, hbefore, List.length_nil]
  have hevt : (u.reportMalformed c).strictAbort.evt = u.evt.write 0 [{ pos := before.length, symc := c }] := by
    rw [State.strictAbort_evt, State.reportMalformed_evt, hcount, hu.spc_eq]
  refine ⟨_, hexec, Memory.read_nil, ?_, fun e he => ?_, ?_⟩
  · rw [hevt, Memory.read_write_single]
  · rw [hevt, Memory.read_write_single_of_ne _ he.ne', hu.evt_read, hbefore, List.getElem?_nil]
  · rw [hu.frame, hbefore]
    rfl

/-- Settles O28: OUT_LEN is the length of the gate. -/
theorem generateOutputLengthCountsSymbols : Obligations.GenerateOutputLengthCountsSymbols := by
  intro s n sl pl cs hready hgoes
  obtain ⟨u, hu, hexec⟩ := hready.exec_generate hgoes
  exact ⟨_, hexec, hu.outLen_eq.trans (length_gate _ _ cs)⟩

/-- Settles O29: both states expand the whole string, or both abort at its first malformed symbol. -/
theorem generateForgetsEarlierResults : Obligations.GenerateForgetsEarlierResults := by
  intro s s' n sl pl cs hready hready' hstrict hlut
  by_cases hgoes : s.strict = false ∨ reports 0 cs = []
  · obtain ⟨u, hu, hexec⟩ := hready.exec_generate hgoes
    obtain ⟨u', hu', hexec'⟩ := hready'.exec_generate (hstrict ▸ hgoes)
    refine ⟨_, _, hexec, hexec', hu.outLen_eq.trans hu'.outLen_eq.symm, fun e => ?_,
      hu.evtCount_eq.trans hu'.evtCount_eq.symm, fun e => (hu.evt_read e).trans (hu'.evt_read e).symm, rfl, rfl, ?_,
      rfl⟩
    · calc u.out.read e = gatedEntry s.lut (2 * n) _ e := hu.out_read e
        _ = gatedEntry s'.lut (2 * n) _ e := gatedEntry_congr (Nat.mul_pos two_pos hready.pairs_pos) hlut _ e
        _ = u'.out.read e := (hu'.out_read e).symm
    · rw [hu.frame, hu'.frame]
      rfl
  · obtain ⟨hnotPermissive, hreports⟩ := not_or.1 hgoes
    have hs : s.strict = true := Bool.eq_true_of_not_eq_false hnotPermissive
    obtain ⟨before, c, after, rfl, hbefore, hc⟩ := exists_first_malformed hreports
    obtain ⟨t, ht, hout, hfirst, hevt, hframe⟩ :=
      generateStopsAtFirstMalformedInStrictMode s n sl pl before after c hready hs hbefore hc
    obtain ⟨t', ht', hout', hfirst', hevt', hframe'⟩ :=
      generateStopsAtFirstMalformedInStrictMode s' n sl pl before after c hready' (hstrict ▸ hs) hbefore hc
    have hevts : ∀ e, t.evt.read e = t'.evt.read e := by
      intro e
      rcases Nat.eq_zero_or_pos e with rfl | he
      · exact hfirst.trans hfirst'.symm
      · exact (hevt e he).trans (hevt' e he).symm
    refine ⟨t, t', ht, ht', ?_, fun e => (hout e).trans (hout' e).symm, ?_, hevts, ?_, ?_, ?_, ?_⟩ <;>
      rw [hframe, hframe']

end Sys2Proof.Machine

/-! Necklaces and Lyndon words: what 43_debruijn.md R150 says the recursion of R143 goes through. A word of length p is
held as the sequence that repeats it for ever, so that a rotation is a shift and no proof speaks of a word's end. -/

namespace Sys2Proof.Machine

/-! ### Sequences in lexicographic order -/

/-- The sequence from index `s` on: of a repeated word, its rotation by `s`. -/
def shift (s : Nat) (u : Nat → Nat) : Nat → Nat := fun i => u (i + s)

/-- The word `u[0 .. n)` repeated for ever. -/
def repeatFirst (n : Nat) (u : Nat → Nat) : Nat → Nat := fun i => u (i % n)

theorem shift_shift (s t : Nat) (u : Nat → Nat) : shift s (shift t u) = shift (s + t) u :=
  funext fun i => congrArg u (Nat.add_assoc i s t)

theorem periodic_shift {n : Nat} {u : Nat → Nat} (h : Function.Periodic u n) (s : Nat) :
    Function.Periodic (shift s u) n :=
  fun i => (congrArg u (Nat.add_right_comm i n s)).trans (h (i + s))

theorem shift_mod {n : Nat} {u : Nat → Nat} (h : Function.Periodic u n) (s : Nat) : shift (s % n) u = shift s u :=
  funext fun i => by
    rw [shift, shift, ← h.map_mod_nat, Nat.add_mod_mod, h.map_mod_nat]

theorem shift_self {n : Nat} {u : Nat → Nat} (h : Function.Periodic u n) : shift n u = u := funext h

/-- A rotation is undone by another. -/
theorem shift_mul_sub_shift {n s : Nat} {u : Nat → Nat} (hn : 0 < n) (h : Function.Periodic u n) :
    shift (n * s - s) (shift s u) = u := by
  rw [shift_shift, Nat.sub_add_cancel (Nat.le_mul_of_pos_left s hn), ← shift_mod h, Nat.mul_mod_right]
  rfl

theorem periodic_of_dvd {p n : Nat} {u : Nat → Nat} (h : Function.Periodic u p) (hpn : p ∣ n) :
    Function.Periodic u n := by
  obtain ⟨e, rfl⟩ := hpn
  intro i
  rw [← h.map_mod_nat, Nat.add_mul_mod_self_left, h.map_mod_nat]

theorem periodic_repeatFirst (n : Nat) (u : Nat → Nat) : Function.Periodic (repeatFirst n u) n :=
  fun i => congrArg u (Nat.add_mod_right i n)

theorem repeatFirst_of_lt {n i : Nat} (hi : i < n) (u : Nat → Nat) : repeatFirst n u i = u i :=
  congrArg u (Nat.mod_eq_of_lt hi)

/-- Two sequences of period `n` that agree below `n` are one. -/
theorem eq_of_periodic {n : Nat} (hn : 0 < n) {u v : Nat → Nat} (hu : Function.Periodic u n)
    (hv : Function.Periodic v n) (h : ∀ i < n, u i = v i) : u = v :=
  funext fun i => by rw [← hu.map_mod_nat, h _ (Nat.mod_lt i hn), hv.map_mod_nat]

theorem lex_lt_iff {u v : Nat → Nat} : toLex u < toLex v ↔ ∃ i, (∀ j < i, u j = v j) ∧ u i < v i := Iff.rfl

theorem le_at_of_lex_le {u v : Nat → Nat} {e : Nat} (h : toLex u ≤ toLex v) (hagree : ∀ i < e, u i = v i) :
    u e ≤ v e := by
  by_contra hlt
  exact absurd h (not_le_of_gt (lex_lt_iff.2 ⟨e, fun i hi => (hagree i hi).symm, Nat.not_le.1 hlt⟩))

/-- Where the first sequence is not the greater one and they agree below `r`, the rests from `r` on compare so too. -/
theorem shift_lex_le_shift {u v : Nat → Nat} {r : Nat} (h : toLex u ≤ toLex v) (hagree : ∀ i < r, u i = v i) :
    toLex (shift r u) ≤ toLex (shift r v) := by
  rcases h.eq_or_lt with heq | hlt
  · rw [toLex.injective heq]
  · obtain ⟨i, hbefore, hi⟩ := lex_lt_iff.1 hlt
    have hri : r ≤ i := Nat.not_lt.1 fun hir => hi.ne (hagree i hir)
    refine (lex_lt_iff.2 ⟨i - r, fun j hj => hbefore (j + r) (by omega), ?_⟩).le
    show u (i - r + r) < v (i - r + r)
    rwa [Nat.sub_add_cancel hri]

/-- What lies between two sequences that agree below `d` agrees with them there. -/
theorem agree_of_lex_between {u v w : Nat → Nat} {d : Nat} (huv : toLex u ≤ toLex v) (hvw : toLex v ≤ toLex w)
    (hagree : ∀ i < d, w i = u i) : ∀ i < d, v i = u i := by
  intro i
  induction i using Nat.strong_induction_on with
  | _ i ih =>
    intro hi
    have hlow := le_at_of_lex_le huv fun j hj => (ih j hj (hj.trans hi)).symm
    have hhigh := le_at_of_lex_le hvw fun j hj => (ih j hj (hj.trans hi)).trans (hagree j (hj.trans hi)).symm
    exact le_antisymm (hhigh.trans (hagree i hi).le) hlow

/-! ### Necklaces and Lyndon words -/

/-- No rotation of the repeated word is smaller. -/
def IsNecklace (u : Nat → Nat) : Prop := ∀ s, toLex u ≤ toLex (shift s u)

/-- `u` repeats a word of length `p` that is smaller than each of its other rotations: a Lyndon word. -/
structure IsLyndon (p : Nat) (u : Nat → Nat) : Prop where
  pos : 0 < p
  periodic : Function.Periodic u p
  lt_shift : ∀ s, 0 < s → s < p → toLex u < toLex (shift s u)

theorem IsLyndon.isNecklace {p : Nat} {u : Nat → Nat} (h : IsLyndon p u) : IsNecklace u := by
  intro s
  rw [← shift_mod h.periodic]
  rcases Nat.eq_zero_or_pos (s % p) with hs | hs
  · rw [hs]
    exact le_rfl
  · exact (h.lt_shift _ hs (Nat.mod_lt s h.pos)).le

theorem isLyndon_const (c : Nat) : IsLyndon 1 (fun _ => c) :=
  ⟨one_pos, fun _ => rfl, fun _ hs hs' => absurd hs' (Nat.not_lt.2 hs)⟩

theorem IsNecklace.zero_le {u : Nat → Nat} (h : IsNecklace u) (i : Nat) : u 0 ≤ u i := by
  have hfirst := le_at_of_lex_le (e := 0) (h i) (fun _ hj => absurd hj (Nat.not_lt_zero _))
  rwa [shift, Nat.zero_add] at hfirst

/-- A sequence that leaves a necklace upwards at index `d` is smaller than its own shifts by up to `d`: the one step
behind R143's loop and behind the order of its results. -/
theorem IsNecklace.lt_shift_of_raise {u w : Nat → Nat} {d s : Nat} (hu : IsNecklace u) (hagree : ∀ i < d, w i = u i)
    (hraise : u d < w d) (hs : 0 < s) (hsd : s ≤ d) : toLex w < toLex (shift s w) := by
  by_cases hall : ∀ i < d - s, u i = u (i + s)
  · refine lex_lt_iff.2 ⟨d - s, fun i hi => ?_, ?_⟩
    · rw [shift, hagree i (by omega), hagree (i + s) (by omega), hall i hi]
    · have hle := le_at_of_lex_le (hu s) hall
      rw [shift, Nat.sub_add_cancel hsd] at hle
      rw [shift, Nat.sub_add_cancel hsd, hagree (d - s) (by omega)]
      exact hle.trans_lt hraise
  · have hmismatch : ∃ i, i < d - s ∧ u i ≠ u (i + s) := by simpa using hall
    obtain ⟨hi, hne⟩ := Nat.find_spec hmismatch
    have hbefore : ∀ j < Nat.find hmismatch, u j = u (j + s) := fun j hj => by
      have hmin := Nat.find_min hmismatch hj
      rw [not_and, not_not] at hmin
      exact hmin (hj.trans hi)
    refine lex_lt_iff.2 ⟨Nat.find hmismatch, fun j hj => ?_, ?_⟩
    · rw [shift, hagree j (by omega), hagree (j + s) (by omega), hbefore j hj]
    · rw [shift, hagree _ (by omega), hagree _ (by omega)]
      exact lt_of_le_of_ne (le_at_of_lex_le (hu s) hbefore) hne

/-- Every word of length `n` is a rotation of a necklace. -/
theorem exists_isNecklace_shift {n : Nat} (hn : 0 < n) {w : Nat → Nat} (hw : Function.Periodic w n) :
    ∃ s, IsNecklace (shift s w) := by
  obtain ⟨s, -, hmin⟩ := (Finset.range n).exists_min_image (fun s => toLex (shift s w)) ⟨0, Finset.mem_range.2 hn⟩
  refine ⟨s, fun t => ?_⟩
  rw [shift_shift, ← shift_mod hw (t + s)]
  exact hmin _ (Finset.mem_range.2 (Nat.mod_lt _ hn))

/-- Two rotations of Lyndon words are equal only where the words and the places are (R150). -/
theorem IsLyndon.eq_of_shift_eq {p q n s t : Nat} {u v : Nat → Nat} (hu : IsLyndon p u) (hv : IsLyndon q v)
    (hpn : p ∣ n) (hqn : q ∣ n) (hn : 0 < n) (h : shift s u = shift t v) : u = v := by
  have hle : toLex u ≤ toLex v := by
    rw [← shift_mul_sub_shift (s := t) hn (periodic_of_dvd hv.periodic hqn), ← h, shift_shift]
    exact hu.isNecklace _
  have hge : toLex v ≤ toLex u := by
    rw [← shift_mul_sub_shift (s := s) hn (periodic_of_dvd hu.periodic hpn), h, shift_shift]
    exact hv.isNecklace _
  exact toLex.injective (le_antisymm hle hge)

theorem IsLyndon.shift_inj {p s t : Nat} {u : Nat → Nat} (hu : IsLyndon p u) (hs : s < p) (ht : t < p)
    (h : shift s u = shift t u) : s = t := by
  wlog hst : s < t generalizing s t
  · rcases Nat.lt_or_eq_of_le (Nat.not_lt.1 hst) with hts | hts
    · exact (this ht hs h.symm hts).symm
    · exact hts.symm
  have hback : shift (p - t + s) u = u := by
    rw [← shift_shift, h, shift_shift, Nat.sub_add_cancel ht.le, ← shift_mod hu.periodic, Nat.mod_self]
    rfl
  exact absurd (congrArg toLex hback).symm (hu.lt_shift (p - t + s) (by omega) (by omega)).ne

/-- The last place below `n` where a repeated word is not at its top symbol `m`; it lies in the last repetition. -/
theorem IsLyndon.exists_last_low {p n m : Nat} {u : Nat → Nat} (hu : IsLyndon p u) (hpn : p ∣ n) (hn : 0 < n)
    (hle : ∀ i, u i ≤ m) (hlow : ∃ i, u i < m) :
    ∃ d < n, n - p ≤ d ∧ u d < m ∧ ∀ i, d < i → i < n → u i = m := by
  obtain ⟨i, hi⟩ := hlow
  have hplace : n - p + i % p < n := by
    have := Nat.mod_lt i hu.pos
    have := Nat.le_of_dvd hn hpn
    omega
  have hvalue : u (n - p + i % p) < m := by
    rwa [← hu.periodic.map_mod_nat, Nat.add_mod_mod, Nat.add_mod,
      Nat.mod_eq_zero_of_dvd (Nat.dvd_sub hpn dvd_rfl), Nat.zero_add, Nat.mod_mod, hu.periodic.map_mod_nat]
  have hbound : n - p + i % p ≤ n - 1 := by omega
  refine ⟨Nat.findGreatest (fun d => u d < m) (n - 1), ?_, ?_, ?_, fun j hj hjn => ?_⟩
  · exact (Nat.findGreatest_le _).trans_lt (by omega)
  · exact (Nat.le_add_right _ _).trans (Nat.le_findGreatest hbound hvalue)
  · exact Nat.findGreatest_spec (P := fun d => u d < m) hbound hvalue
  · exact le_antisymm (hle j) (Nat.not_lt.1 (Nat.findGreatest_is_greatest (P := fun d => u d < m) hj (by omega)))

/-- The word that follows `u` below `d` and is at the top symbol `m` from there on. -/
def toppedFrom (n m d : Nat) (u : Nat → Nat) : Nat → Nat := repeatFirst n (fun i => if i < d then u i else m)

section
variable {n m d : Nat} {u : Nat → Nat}

theorem periodic_toppedFrom (n m d : Nat) (u : Nat → Nat) : Function.Periodic (toppedFrom n m d u) n :=
  periodic_repeatFirst n _

theorem toppedFrom_of_lt (hd : d < n) {i : Nat} (hi : i < d) : toppedFrom n m d u i = u i :=
  (repeatFirst_of_lt (hi.trans hd) _).trans (if_pos hi)

theorem toppedFrom_of_le {i : Nat} (hi : i < n) (hd : d ≤ i) : toppedFrom n m d u i = m :=
  (repeatFirst_of_lt hi _).trans (if_neg (Nat.not_lt.2 hd))

theorem toppedFrom_le (hle : ∀ i, u i ≤ m) (i : Nat) : toppedFrom n m d u i ≤ m := by
  simp only [toppedFrom, repeatFirst]
  split
  · exact hle _
  · exact le_rfl

theorem lt_toppedFrom (hd : d < n) (hlow : u d < m) : toLex u < toLex (toppedFrom n m d u) :=
  lex_lt_iff.2 ⟨d, fun _ hi => (toppedFrom_of_lt hd hi).symm, by rwa [toppedFrom_of_le hd le_rfl]⟩

/-- Raising a symbol of a necklace and all after it to the top gives a necklace. -/
theorem isNecklace_toppedFrom (hu : IsNecklace u) (hd : d < n) (hlow : u d < m) : IsNecklace (toppedFrom n m d u) := by
  intro s
  rw [← shift_mod (periodic_toppedFrom n m d u)]
  have hs : s % n < n := Nat.mod_lt s (Nat.zero_lt_of_lt hd)
  rcases Nat.eq_zero_or_pos d with rfl | hpos
  · have hconst : toppedFrom n m 0 u = fun _ => m := funext fun i => by simp [toppedFrom, repeatFirst]
    rw [hconst]
    exact le_rfl
  · rcases Nat.eq_zero_or_pos (s % n) with h0 | h0
    · rw [h0]
      exact le_rfl
    · rcases le_or_gt (s % n) d with hsd | hsd
      · exact (hu.lt_shift_of_raise (fun i hi => toppedFrom_of_lt hd hi)
          (by rwa [toppedFrom_of_le hd le_rfl]) h0 hsd).le
      · refine le_of_lt (lex_lt_iff.2 ⟨0, fun _ hj => absurd hj (Nat.not_lt_zero _), ?_⟩)
        rw [toppedFrom_of_lt hd hpos, shift, Nat.zero_add, toppedFrom_of_le hs hsd.le]
        exact (hu.zero_le d).trans_lt hlow

end

end Sys2Proof.Machine

/-! The covering sequence as the Lyndon words whose length divides n, in increasing order (43_debruijn.md R150): every
word of length n is a cyclic window of it exactly once, and its length is k^n (R146). -/

namespace Sys2Proof.Machine

/-- A period and the sequence that has it: a word repeated for ever. -/
abbrev Repeated := Nat × (Nat → Nat)

/-- The words one after the other. -/
def spell (ws : List Repeated) : List Nat := ws.flatMap fun x => (List.range x.1).map x.2

@[simp] theorem spell_nil : spell [] = [] := rfl

@[simp] theorem spell_cons (x : Repeated) (ws : List Repeated) :
    spell (x :: ws) = (List.range x.1).map x.2 ++ spell ws := rfl

@[simp] theorem spell_append (ws ws' : List Repeated) : spell (ws ++ ws') = spell ws ++ spell ws' :=
  List.flatMap_append

theorem spell_cons_of_lt {i : Nat} (x : Repeated) (ws : List Repeated) (hi : i < x.1) :
    (spell (x :: ws))[i]? = some (x.2 i) := by
  rw [spell_cons, List.getElem?_append_left (by simpa using hi), List.getElem?_map, List.getElem?_range hi]
  rfl

theorem spell_cons_add (x : Repeated) (ws : List Repeated) (i : Nat) :
    (spell (x :: ws))[x.1 + i]? = (spell ws)[i]? := by
  rw [spell_cons, List.getElem?_append_right (by simp)]
  simp

theorem spell_append_add (ws ws' : List Repeated) (i : Nat) :
    (spell (ws ++ ws'))[(spell ws).length + i]? = (spell ws')[i]? := by
  rw [spell_append, List.getElem?_append_right (Nat.le_add_right _ _), Nat.add_sub_cancel_left]

/-- `ws` lists, in increasing order, the Lyndon words over {0, ..., k-1} whose length divides `n` (R150). -/
structure ListsLyndonWords (k n : Nat) (ws : List Repeated) : Prop where
  rising : ws.Pairwise fun x y => toLex x.2 < toLex y.2
  lyndon : ∀ x ∈ ws, IsLyndon x.1 x.2
  divides : ∀ x ∈ ws, x.1 ∣ n
  below : ∀ x ∈ ws, ∀ i, x.2 i < k
  complete : ∀ u, IsNecklace u → Function.Periodic u n → (∀ i, u i < k) → ∃ x ∈ ws, x.2 = u

/-- `w` stands in the cyclic sequence `S` from place `x` on, for `n` places. -/
def StandsAt (S : List Nat) (n x : Nat) (w : Nat → Nat) : Prop := ∀ y < n, S[(x + y) % S.length]? = some (w y)

/-- A place that needs no wrap. -/
theorem standsAt_of_getElem? {S : List Nat} {n x : Nat} {w : Nat → Nat} (h : ∀ y < n, S[x + y]? = some (w y)) :
    StandsAt S n x w := by
  intro y hy
  obtain ⟨hlt, -⟩ := List.getElem?_eq_some_iff.1 (h y hy)
  rw [Nat.mod_eq_of_lt hlt, h y hy]

section
variable {k n d : Nat} {ws front rest : List Repeated} {x y : Repeated}

/-! ### From a word to the next -/

theorem ListsLyndonWords.le_top (h : ListsLyndonWords k n ws) (hx : x ∈ ws) (i : Nat) : x.2 i ≤ k - 1 :=
  Nat.le_sub_one_of_lt (h.below x hx i)

theorem ListsLyndonWords.exists_last_low (h : ListsLyndonWords k n ws) (hn : 0 < n) (hx : x ∈ ws)
    (hlow : ∃ i, x.2 i < k - 1) :
    ∃ d < n, n - x.1 ≤ d ∧ x.2 d < k - 1 ∧ ∀ i, d < i → i < n → x.2 i = k - 1 :=
  (h.lyndon x hx).exists_last_low (h.divides x hx) hn (h.le_top hx) hlow

/-- After a word that is not all at the top symbol there comes one, and it agrees with it below any such place `d`: what
follows the word below `d` and is at the top from there on is a necklace above it. -/
theorem ListsLyndonWords.next_agrees (h : ListsLyndonWords k n ws) (hws : ws = front ++ x :: rest) (hd : d < n)
    (hlow : x.2 d < k - 1) : ∃ y rest', rest = y :: rest' ∧ ∀ i < d, y.2 i = x.2 i := by
  have hx : x ∈ ws := by simp [hws]
  obtain ⟨z, hz, hztop⟩ := h.complete _ (isNecklace_toppedFrom (h.lyndon x hx).isNecklace hd hlow)
    (periodic_toppedFrom n (k - 1) d x.2) fun i => (toppedFrom_le (h.le_top hx) i).trans_lt (by omega)
  have hxz : toLex x.2 < toLex z.2 := hztop ▸ lt_toppedFrom hd hlow
  have hrising := hws ▸ h.rising
  obtain ⟨-, hxrest, hfront⟩ := List.pairwise_append.1 hrising
  obtain ⟨-, hrest⟩ := List.pairwise_cons.1 hxrest
  have hzrest : z ∈ rest := by
    rcases List.mem_append.1 (hws ▸ hz) with hzf | hzx
    · exact absurd (hfront z hzf x List.mem_cons_self) (lt_asymm hxz)
    · rcases List.mem_cons.1 hzx with rfl | hzr
      · exact absurd hxz (lt_irrefl _)
      · exact hzr
  cases rest with
  | nil => exact absurd hzrest List.not_mem_nil
  | cons y rest' =>
    have hxy := (List.pairwise_cons.1 hxrest).1 y List.mem_cons_self
    have hyz : toLex y.2 ≤ toLex z.2 := by
      rcases List.mem_cons.1 hzrest with rfl | hzr
      · exact le_rfl
      · exact ((List.pairwise_cons.1 hrest).1 z hzr).le
    refine ⟨y, rest', rfl, agree_of_lex_between hxy.le hyz fun i hi => ?_⟩
    rw [hztop, toppedFrom_of_lt hd hi]

/-- What is spelled from a word on goes on with its repetition, up to `d` places past the word. -/
theorem ListsLyndonWords.spell_repeats (h : ListsLyndonWords k n ws) (hn : 0 < n) :
    ∀ {rest front : List Repeated} {x : Repeated} {d i : Nat}, ws = front ++ x :: rest → d < n → x.2 d < k - 1 →
      i < x.1 + d → (spell (x :: rest))[i]? = some (x.2 i) := by
  intro rest
  induction rest with
  | nil =>
    intro front x d i hws hd hlow _
    obtain ⟨y, rest', hnil, -⟩ := h.next_agrees hws hd hlow
    cases hnil
  | cons y rest ih =>
    intro front x d i hws hd hlow hi
    rcases Nat.lt_or_ge i x.1 with hix | hix
    · exact spell_cons_of_lt _ _ hix
    · obtain ⟨j, rfl⟩ := Nat.exists_eq_add_of_le hix
      obtain ⟨_, _, hcons, hagree⟩ := h.next_agrees hws hd hlow
      cases hcons
      have hx : x ∈ ws := by simp [hws]
      have hy : y ∈ ws := by simp [hws]
      have hjd : j < d := by omega
      have hylow : ∃ i, y.2 i < k - 1 := by
        refine ⟨0, ?_⟩
        rw [hagree 0 (by omega)]
        exact ((h.lyndon x hx).isNecklace.zero_le d).trans_lt hlow
      obtain ⟨e, hen, hey, helow, -⟩ := h.exists_last_low hn hy hylow
      rw [spell_cons_add, ih (front := front ++ [x]) (by simp [hws]) hen helow (by omega), hagree j hjd,
        Nat.add_comm, (h.lyndon x hx).periodic]

/-! ### The last word -/

theorem IsLyndon.period_const {p c : Nat} (h : IsLyndon p fun _ => c) : p = 1 := by
  by_contra hp
  have hpos := h.pos
  exact absurd (h.lt_shift 1 one_pos (by omega)) (lt_irrefl _)

/-- A word that another one follows is not all at the top symbol. -/
theorem ListsLyndonWords.low_of_next (h : ListsLyndonWords k n ws) (hws : ws = front ++ x :: y :: rest) :
    ∃ i, x.2 i < k - 1 := by
  have hy : y ∈ ws := by simp [hws]
  have hxy : toLex x.2 < toLex y.2 := by
    have hrising := hws ▸ h.rising
    obtain ⟨-, hxrest, -⟩ := List.pairwise_append.1 hrising
    exact (List.pairwise_cons.1 hxrest).1 y List.mem_cons_self
  obtain ⟨i, -, hi⟩ := lex_lt_iff.1 hxy
  exact ⟨i, hi.trans_le (h.le_top hy i)⟩

/-- The last word is the top symbol by itself, and the one before it has the length `n` and is at the top from index 1
on. -/
theorem ListsLyndonWords.last_two (h : ListsLyndonWords k n ws) (hn : 0 < n) (hk : 2 ≤ k) :
    ∃ front u, ws = front ++ [(n, u), (1, fun _ => k - 1)] ∧ ∀ i, 1 ≤ i → i < n → u i = k - 1 := by
  obtain ⟨⟨p, u⟩, htop, rfl⟩ := h.complete _ (isLyndon_const (k - 1)).isNecklace (fun _ => rfl) fun _ => by omega
  obtain rfl : p = 1 := (h.lyndon _ htop).period_const
  obtain ⟨⟨q, v⟩, hzero, rfl⟩ := h.complete _ (isLyndon_const 0).isNecklace (fun _ => rfl) fun _ => by omega
  obtain ⟨front, rest, hws⟩ := List.append_of_mem htop
  obtain rfl : rest = [] := by
    cases rest with
    | nil => rfl
    | cons y rest =>
      obtain ⟨i, hi⟩ := h.low_of_next hws
      exact absurd hi (lt_irrefl _)
  rcases List.eq_nil_or_concat front with rfl | ⟨front, ⟨q', w⟩, rfl⟩
  · have heq : (q, fun _ : Nat => 0) = (1, fun _ => k - 1) := by simpa [hws] using hzero
    have := congrFun (congrArg Prod.snd heq) 0
    simp only at this
    omega
  · rw [List.concat_eq_append, List.append_assoc] at hws
    have hmem : (q', w) ∈ ws := by simp [hws]
    obtain ⟨d, hdn, hd, hlow, hafter⟩ := h.exists_last_low hn hmem (h.low_of_next hws)
    obtain ⟨_, _, hcons, hagree⟩ := h.next_agrees hws hdn hlow
    cases hcons
    obtain rfl : d = 0 := by
      by_contra hne
      have hfirst := (h.lyndon _ hmem).isNecklace.zero_le d
      have htop0 := hagree 0 (by omega)
      simp only at hfirst htop0 hlow
      omega
    obtain rfl : q' = n := by
      have hle := Nat.le_of_dvd hn (h.divides _ hmem)
      simp only at hd hle
      omega
    exact ⟨front, w, hws, fun i hi => hafter i (by omega)⟩

theorem ListsLyndonWords.ends_at_top (h : ListsLyndonWords k n ws) (hn : 0 < n) (hk : 2 ≤ k) :
    n ≤ (spell ws).length ∧ ∀ i < n, (spell ws)[(spell ws).length - n + i]? = some (k - 1) := by
  obtain ⟨front, u, rfl, hu⟩ := h.last_two hn hk
  have hlength : (spell (front ++ [(n, u), (1, fun _ => k - 1)])).length = (spell front).length + (n + 1) := by simp
  refine ⟨by omega, fun i hi => ?_⟩
  rw [hlength, show (spell front).length + (n + 1) - n + i = (spell front).length + (1 + i) by omega, spell_append_add]
  rcases Nat.lt_or_ge (1 + i) n with hin | hin
  · rw [spell_cons_of_lt _ _ hin, ← hu _ (Nat.le_add_right 1 i) hin]
  · rw [show 1 + i = n + 0 by omega, spell_cons_add, spell_cons_of_lt _ _ one_pos]

/-! ### Every word stands in the sequence -/

/-- Before the first word that begins with `z[0 .. e)` there stand n - e top symbols, at the beginning cyclically: the
word before it is at the top from `e` on. -/
theorem ListsLyndonWords.top_before (h : ListsLyndonWords k n ws) (hn : 0 < n) (hk : 2 ≤ k) {e : Nat} (he : e ≤ n)
    {z : Repeated} (hws : ws = front ++ z :: rest) (hfirst : ∀ x ∈ front, ¬∀ i < e, x.2 i = z.2 i) :
    ∃ c, (∀ i < n - e, (spell ws)[(c + i) % (spell ws).length]? = some (k - 1)) ∧
      ∀ i, (c + (n - e + i)) % (spell ws).length = ((spell front).length + i) % (spell ws).length := by
  rcases List.eq_nil_or_concat front with rfl | ⟨front, y, rfl⟩
  · obtain ⟨hlength, htop⟩ := h.ends_at_top hn hk
    refine ⟨(spell ws).length - (n - e), fun i hi => ?_, fun i => ?_⟩
    · rw [Nat.mod_eq_of_lt (by omega), ← htop (e + i) (by omega)]
      congr 1
      omega
    · rw [← Nat.add_assoc, Nat.sub_add_cancel (by omega), Nat.add_mod_left, spell_nil, List.length_nil, Nat.zero_add]
  · rw [List.concat_eq_append] at hws hfirst ⊢
    have hsplit : ws = front ++ y :: z :: rest := by simp [hws]
    have hy : y ∈ ws := by simp [hsplit]
    obtain ⟨d, hdn, hdp, hlow, hafter⟩ := h.exists_last_low hn hy (h.low_of_next hsplit)
    obtain ⟨_, _, hcons, hagree⟩ := h.next_agrees hsplit hdn hlow
    cases hcons
    have hde : d < e := by
      by_contra hed
      exact hfirst y (by simp) fun i hi => (hagree i (by omega)).symm
    have hdvd := h.divides y hy
    have hpn := Nat.le_of_dvd hn hdvd
    refine ⟨(spell front).length + (y.1 - (n - e)), fun i hi => ?_, fun i => ?_⟩
    · have hvalue : (spell ws)[(spell front).length + (y.1 - (n - e) + i)]? = some (k - 1) := by
        rw [hsplit, spell_append_add, spell_cons_of_lt _ _ (by omega),
          ← periodic_of_dvd (h.lyndon y hy).periodic (Nat.dvd_sub hdvd dvd_rfl),
          hafter _ (by omega) (by omega)]
      rw [Nat.add_assoc, Nat.mod_eq_of_lt (List.getElem?_eq_some_iff.1 hvalue).1, hvalue]
    · congr 1
      simp only [spell_append, spell_cons, spell_nil, List.length_append, List.length_map, List.length_range,
        List.length_nil]
      omega

theorem exists_first {α : Type} {P : α → Prop} {l : List α} {x : α} (hx : x ∈ l) (hP : P x) :
    ∃ front y rest, l = front ++ y :: rest ∧ P y ∧ ∀ z ∈ front, ¬P z := by
  classical
  have hfound := List.find?_isSome (p := fun a => decide (P a)).2 ⟨x, hx, decide_eq_true hP⟩
  obtain ⟨y, hy⟩ := Option.isSome_iff_exists.1 hfound
  obtain ⟨hyP, front, rest, hl, hfront⟩ := List.find?_eq_some_iff_append.1 hy
  exact ⟨front, y, rest, hl, of_decide_eq_true hyP, fun z hz => by simpa using hfront z hz⟩

/-- Every rotation of a listed word stands in the sequence: from within the word where what follows repeats it far
enough, else across the beginning of the first word with the same beginning. -/
theorem ListsLyndonWords.shift_standsAt (h : ListsLyndonWords k n ws) (hn : 0 < n) (hk : 2 ≤ k) (hx : x ∈ ws) {s : Nat}
    (hs : s < x.1) : ∃ c, StandsAt (spell ws) n c (shift s x.2) := by
  by_cases hlow : ∃ i, x.2 i < k - 1
  · obtain ⟨d, hdn, hdp, hd, hafter⟩ := h.exists_last_low hn hx hlow
    obtain ⟨front, rest, hws⟩ := List.append_of_mem hx
    by_cases hfit : s + n ≤ x.1 + d
    · refine ⟨(spell front).length + s, standsAt_of_getElem? fun y hy => ?_⟩
      rw [Nat.add_assoc, hws, spell_append_add, h.spell_repeats hn hws hdn hd (by omega), Nat.add_comm]
      rfl
    · have hpn := Nat.le_of_dvd hn (h.divides x hx)
      have hperiodic := (h.lyndon x hx).periodic
      obtain ⟨e, he⟩ : ∃ e, n = e + (x.1 - s) := ⟨n - (x.1 - s), by omega⟩
      obtain ⟨front', z, rest', hws', hz, hfirst⟩ :=
        exists_first (P := fun a : Repeated => ∀ i < e, a.2 i = x.2 i) hx fun _ _ => rfl
      have hzmem : z ∈ ws := by simp [hws']
      obtain ⟨c, htop, hfrom⟩ := h.top_before hn hk (e := e) (by omega) hws' fun a ha hagree =>
        hfirst a ha fun i hi => (hagree i hi).trans (hz i hi)
      obtain ⟨d', hdn', hdp', hd', -⟩ := h.exists_last_low hn hzmem ⟨d, by rwa [hz d (by omega)]⟩
      refine ⟨c, fun y hy => ?_⟩
      rcases Nat.lt_or_ge y (n - e) with hye | hye
      · rw [htop y hye, shift, ← periodic_of_dvd hperiodic (Nat.dvd_sub (h.divides x hx) dvd_rfl),
          hafter _ (by omega) (by omega)]
      · obtain ⟨i, rfl⟩ := Nat.exists_eq_add_of_le hye
        have hvalue : (spell ws)[(spell front').length + i]? = some (x.2 i) := by
          rw [hws', spell_append_add, h.spell_repeats hn hws' hdn' hd' (by omega), hz i (by omega)]
        rw [hfrom, Nat.mod_eq_of_lt (List.getElem?_eq_some_iff.1 hvalue).1, hvalue, shift,
          show n - e + i + s = i + x.1 by omega, hperiodic]
  · obtain ⟨-, htop⟩ := h.ends_at_top hn hk
    refine ⟨(spell ws).length - n, standsAt_of_getElem? fun y hy => ?_⟩
    rw [htop y hy, shift, le_antisymm (h.le_top hx (y + s)) (Nat.not_lt.1 fun hlt => hlow ⟨_, hlt⟩)]

theorem ListsLyndonWords.lt_of_mem_spell (h : ListsLyndonWords k n ws) {i : Nat} (hi : i ∈ spell ws) : i < k := by
  obtain ⟨x, hx, hmem⟩ := List.mem_flatMap.1 hi
  obtain ⟨j, -, rfl⟩ := List.mem_map.1 hmem
  exact h.below x hx j

theorem ListsLyndonWords.spell_ne_nil (h : ListsLyndonWords k n ws) (hk : 1 ≤ k) : spell ws ≠ [] := by
  obtain ⟨x, hx, -⟩ := h.complete _ (isLyndon_const 0).isNecklace (fun _ => rfl) fun _ => hk
  have hpos := (h.lyndon x hx).pos
  have hmem : x.2 0 ∈ spell ws :=
    List.mem_flatMap.2 ⟨x, hx, List.mem_map_of_mem (List.mem_range.2 hpos)⟩
  exact List.ne_nil_of_mem hmem

/-- Every word is a rotation of a listed one. -/
theorem ListsLyndonWords.exists_shift_eq (h : ListsLyndonWords k n ws) (hn : 0 < n) {w : Nat → Nat}
    (hw : Function.Periodic w n) (hbelow : ∀ i, w i < k) : ∃ x ∈ ws, ∃ s < x.1, shift s x.2 = w := by
  obtain ⟨s, hs⟩ := exists_isNecklace_shift hn hw
  obtain ⟨x, hx, hxs⟩ := h.complete _ hs (periodic_shift hw s) fun i => hbelow (i + s)
  refine ⟨x, hx, (n * s - s) % x.1, Nat.mod_lt _ (h.lyndon x hx).pos, ?_⟩
  rw [shift_mod (h.lyndon x hx).periodic, hxs, shift_mul_sub_shift hn hw]

/-- R146 (c), on indices: every word of length `n` stands somewhere. -/
theorem ListsLyndonWords.exists_standsAt (h : ListsLyndonWords k n ws) (hn : 0 < n) (hk : 1 ≤ k) {w : Nat → Nat}
    (hbelow : ∀ i < n, w i < k) : ∃ c < (spell ws).length, StandsAt (spell ws) n c w := by
  have hpos := List.length_pos_of_ne_nil (h.spell_ne_nil hk)
  have hsomewhere : ∃ c, StandsAt (spell ws) n c w := by
    rcases Nat.lt_or_ge 1 k with hk2 | hk1
    · obtain ⟨x, hx, s, hs, hxs⟩ := h.exists_shift_eq hn (periodic_repeatFirst n w) fun i =>
        hbelow (i % n) (Nat.mod_lt i hn)
      obtain ⟨c, hc⟩ := h.shift_standsAt hn hk2 hx hs
      exact ⟨c, fun y hy => by rw [hc y hy, hxs, repeatFirst_of_lt hy]⟩
    · refine ⟨0, fun y hy => ?_⟩
      have hlt := Nat.mod_lt (0 + y) hpos
      have hindex := h.lt_of_mem_spell (List.getElem_mem hlt)
      have hword := hbelow y hy
      rw [List.getElem?_eq_getElem hlt]
      congr 1
      omega
  obtain ⟨c, hc⟩ := hsomewhere
  exact ⟨c % (spell ws).length, Nat.mod_lt c hpos, fun y hy => by rw [Nat.mod_add_mod, hc y hy]⟩

end

/-! ### Counting (R146) -/

/-- The word of a sequence, as one of the k^n functions from its places. -/
def wordOf (n : Nat) (u : Nat → Nat) : Fin n → Nat := fun i => u i

theorem wordOf_inj {n : Nat} (hn : 0 < n) {u v : Nat → Nat} (hu : Function.Periodic u n) (hv : Function.Periodic v n)
    (h : wordOf n u = wordOf n v) : u = v :=
  eq_of_periodic hn hu hv fun i hi => congrFun h ⟨i, hi⟩

/-- The words of length `n` over {0, ..., k-1}. -/
def allWords (k n : Nat) : Finset (Fin n → Nat) := Fintype.piFinset fun _ => Finset.range k

theorem card_allWords (k n : Nat) : (allWords k n).card = k ^ n := by
  rw [allWords, Fintype.card_piFinset_const, Finset.card_range]

theorem mem_allWords {k n : Nat} {w : Fin n → Nat} : w ∈ allWords k n ↔ ∀ i, w i < k := by
  simp [allWords, Fintype.mem_piFinset]

/-- All rotations of the words of a list, one for each symbol of the words. -/
def rotations (n : Nat) (ws : List Repeated) : List (Fin n → Nat) :=
  ws.flatMap fun x => (List.range x.1).map fun s => wordOf n (shift s x.2)

theorem length_rotations (n : Nat) (ws : List Repeated) : (rotations n ws).length = (spell ws).length := by
  simp [rotations, spell, List.length_flatMap]

section
variable {k n : Nat} {ws : List Repeated} {x : Repeated}

theorem ListsLyndonWords.periodic_rotation (h : ListsLyndonWords k n ws) (hx : x ∈ ws) (s : Nat) :
    Function.Periodic (shift s x.2) n :=
  periodic_shift (periodic_of_dvd (h.lyndon x hx).periodic (h.divides x hx)) s

theorem ListsLyndonWords.nodup_rotations (h : ListsLyndonWords k n ws) (hn : 0 < n) : (rotations n ws).Nodup := by
  refine List.pairwise_flatMap.2 ⟨fun x hx => ?_, h.rising.imp_of_mem fun {x y} hx hy hxy => ?_⟩
  · refine List.Nodup.map_on (fun s hs t ht hst => ?_) List.nodup_range
    exact (h.lyndon x hx).shift_inj (List.mem_range.1 hs) (List.mem_range.1 ht)
      (wordOf_inj hn (h.periodic_rotation hx s) (h.periodic_rotation hx t) hst)
  · simp only [List.mem_map, List.mem_range]
    rintro _ ⟨s, -, rfl⟩ _ ⟨t, -, rfl⟩ hst
    have hxy' := (h.lyndon x hx).eq_of_shift_eq (h.lyndon y hy) (h.divides x hx) (h.divides y hy) hn
      (wordOf_inj hn (h.periodic_rotation hx s) (h.periodic_rotation hy t) hst)
    exact absurd hxy (by rw [hxy']; exact lt_irrefl _)

theorem ListsLyndonWords.length_le (h : ListsLyndonWords k n ws) (hn : 0 < n) : (spell ws).length ≤ k ^ n := by
  classical
  rw [← length_rotations n, ← List.toFinset_card_of_nodup (h.nodup_rotations hn), ← card_allWords]
  refine Finset.card_le_card fun w hw => ?_
  obtain ⟨x, hx, hmem⟩ := List.mem_flatMap.1 (List.mem_toFinset.1 hw)
  obtain ⟨s, -, rfl⟩ := List.mem_map.1 hmem
  exact mem_allWords.2 fun i => h.below x hx _

/-- The window of length `n` at place `x` of the cyclic sequence `S`. -/
def windowAt (S : List Nat) (n x : Nat) : Fin n → Nat := fun y => S.getD ((x + y) % S.length) 0

theorem StandsAt.windowAt_eq {S : List Nat} {c : Nat} {w : Nat → Nat} (h : StandsAt S n c w) :
    windowAt S n c = wordOf n w :=
  funext fun y => by rw [windowAt, List.getD_eq_getElem?_getD, h y y.isLt]; rfl

/-- Every word is a window, so the k^n words leave no two of at most k^n windows equal. -/
theorem ListsLyndonWords.windows_surjOn (h : ListsLyndonWords k n ws) (hn : 0 < n) (hk : 1 ≤ k) :
    Set.SurjOn (windowAt (spell ws) n) (Finset.range (spell ws).length) (allWords k n) := by
  intro w hw
  have hbelow := mem_allWords.1 (Finset.mem_coe.1 hw)
  obtain ⟨c, hc, hstands⟩ := h.exists_standsAt hn hk (w := fun i => if hi : i < n then w ⟨i, hi⟩ else 0)
    fun i hi => by rw [dif_pos hi]; exact hbelow _
  refine ⟨c, Finset.mem_coe.2 (Finset.mem_range.2 hc), hstands.windowAt_eq.trans (funext fun i => ?_)⟩
  exact dif_pos i.isLt

/-- R146 (a), on indices. -/
theorem ListsLyndonWords.length_eq (h : ListsLyndonWords k n ws) (hn : 0 < n) (hk : 1 ≤ k) :
    (spell ws).length = k ^ n := by
  refine le_antisymm (h.length_le hn) ?_
  have hcard := Finset.card_le_card_of_surjOn _ (h.windows_surjOn hn hk)
  rwa [card_allWords, Finset.card_range] at hcard

/-- R146 (b), on indices. -/
theorem ListsLyndonWords.windows_injOn (h : ListsLyndonWords k n ws) (hn : 0 < n) (hk : 1 ≤ k) :
    Set.InjOn (windowAt (spell ws) n) (Finset.range (spell ws).length) := by
  refine Finset.injOn_of_surjOn_of_card_le _ (t := allWords k n) (fun c hc => ?_) (h.windows_surjOn hn hk) ?_
  · refine Finset.mem_coe.2 (mem_allWords.2 fun y => ?_)
    have hlt := Nat.mod_lt (c + y) (List.length_pos_of_ne_nil (h.spell_ne_nil hk))
    rw [windowAt, List.getD_eq_getElem _ _ hlt]
    exact h.lt_of_mem_spell (List.getElem_mem hlt)
  · rw [card_allWords, Finset.card_range, h.length_eq hn hk]

end

end Sys2Proof.Machine

/-! The recursion of 43_debruijn.md R143 as a walk over repeated words: an activation at position t = d + 1 stands for
the Lyndon word of length p whose repetition the cells `a[1 .. d]` begin, and its calls for the ways to go on. So what
it appends is the list of R150. -/

namespace Sys2Proof.Machine

/-! ### The walk -/

/-- The word `u[0 .. d)` followed by `j`, repeated. -/
def extendBy (d j : Nat) (u : Nat → Nat) : Repeated := (d + 1, repeatFirst (d + 1) (Function.update u d j))

/-- What the calls of an activation stand for (R143): the same period first, then each greater symbol at place `d`. -/
def children (k d : Nat) (x : Repeated) : List Repeated :=
  x :: (List.range' (x.2 d + 1) (k - (x.2 d + 1))).map fun j => extendBy d j x.2

/-- What the activations at t = n + 1 stand for, below one that has `left` positions to fill. -/
def branches (k : Nat) : (left d : Nat) → Repeated → List Repeated
  | 0, _, x => [x]
  | left + 1, d, x => (children k d x).flatMap (branches k left (d + 1))

/-- What holds of the period and the word of an activation with `d` places filled; only the root has none filled. -/
structure IsBranch (k d : Nat) (x : Repeated) : Prop where
  lyndon : IsLyndon x.1 x.2
  below : ∀ i, x.2 i < k
  period_le : x.1 ≤ d ∨ d = 0 ∧ x.1 = 1 ∧ x.2 0 = 0

theorem isBranch_root {k : Nat} (hk : 1 ≤ k) : IsBranch k 0 (1, fun _ => 0) :=
  ⟨isLyndon_const 0, fun _ => hk, .inr ⟨rfl, rfl, rfl⟩⟩

section
variable {k n d left : Nat} {x y : Repeated} {u : Nat → Nat}

theorem extendBy_of_lt {i : Nat} (hi : i < d) (j : Nat) (u : Nat → Nat) : (extendBy d j u).2 i = u i :=
  (repeatFirst_of_lt (by omega) _).trans (Function.update_of_ne hi.ne _ _)

@[simp] theorem extendBy_self (d j : Nat) (u : Nat → Nat) : (extendBy d j u).2 d = j :=
  (repeatFirst_of_lt (Nat.lt_succ_self d) _).trans (Function.update_self _ _ _)

theorem isLyndon_extendBy {j : Nat} (hu : IsNecklace u) (hj : u d < j) :
    IsLyndon (extendBy d j u).1 (extendBy d j u).2 where
  pos := Nat.succ_pos d
  periodic := periodic_repeatFirst (d + 1) (Function.update u d j)
  lt_shift := fun _ hs hsd =>
    hu.lt_shift_of_raise (fun _ hi => extendBy_of_lt hi j u) (by rwa [extendBy_self]) hs (Nat.le_of_lt_succ hsd)

theorem mem_children : y ∈ children k d x ↔ y = x ∨ ∃ j, x.2 d < j ∧ j < k ∧ y = extendBy d j x.2 := by
  have hrange : ∀ j, x.2 d + 1 ≤ j ∧ j < x.2 d + 1 + (k - (x.2 d + 1)) ↔ x.2 d < j ∧ j < k := by omega
  simp only [children, List.mem_cons, List.mem_map, List.mem_range'_1, hrange, and_assoc, eq_comm (b := y)]

theorem IsBranch.of_mem_children (hx : IsBranch k d x) (hy : y ∈ children k d x) : IsBranch k (d + 1) y := by
  rcases mem_children.1 hy with rfl | ⟨j, hj, hjk, rfl⟩
  · refine ⟨hx.lyndon, hx.below, .inl ?_⟩
    rcases hx.period_le with hle | ⟨rfl, hone, -⟩
    · exact hle.trans (Nat.le_succ d)
    · exact hone.le
  · refine ⟨isLyndon_extendBy hx.lyndon.isNecklace hj, fun i => ?_, .inl le_rfl⟩
    simp only [extendBy, repeatFirst, Function.update_apply]
    split
    · exact hjk
    · exact hx.below _

theorem children_agree (hy : y ∈ children k d x) : ∀ i < d, y.2 i = x.2 i := by
  intro i hi
  rcases mem_children.1 hy with rfl | ⟨j, -, -, rfl⟩
  · rfl
  · exact extendBy_of_lt hi j x.2

/-- The calls go through the symbols at place `d` in ascending order (R148). -/
theorem children_rising (k d : Nat) (x : Repeated) : (children k d x).Pairwise fun y z => y.2 d < z.2 d := by
  refine List.pairwise_cons.2 ⟨fun y hy => ?_, ?_⟩
  · obtain ⟨j, hj, rfl⟩ := List.mem_map.1 hy
    rw [extendBy_self]
    exact (List.mem_range'_1.1 hj).1
  · simpa only [List.pairwise_map, extendBy_self] using List.pairwise_lt_range'

theorem exists_mem_children {c : Nat} (hc : x.2 d ≤ c) (hck : c < k) : ∃ y ∈ children k d x, y.2 d = c := by
  rcases hc.eq_or_lt with rfl | hlt
  · exact ⟨x, mem_children.2 (.inl rfl), rfl⟩
  · exact ⟨_, mem_children.2 (.inr ⟨c, hlt, hck, rfl⟩), extendBy_self d c x.2⟩

theorem IsBranch.of_mem_branches : ∀ {left d : Nat} {x y : Repeated}, IsBranch k d x → y ∈ branches k left d x →
    IsBranch k (d + left) y ∧ ∀ i < d, y.2 i = x.2 i := by
  intro left
  induction left with
  | zero =>
    intro d x y hx hy
    obtain rfl := List.mem_singleton.1 hy
    exact ⟨hx, fun _ _ => rfl⟩
  | succ left ih =>
    intro d x y hx hy
    obtain ⟨z, hz, hyz⟩ := List.mem_flatMap.1 hy
    obtain ⟨hbranch, hagree⟩ := ih (hx.of_mem_children hz) hyz
    rw [Nat.add_assoc, Nat.add_comm 1] at hbranch
    exact ⟨hbranch, fun i hi => (hagree i (by omega)).trans (children_agree hz i hi)⟩

/-- The walk goes through its words in increasing order. -/
theorem IsBranch.branches_rising : ∀ {left d : Nat} {x : Repeated}, IsBranch k d x →
    (branches k left d x).Pairwise fun y z => toLex y.2 < toLex z.2 := by
  intro left
  induction left with
  | zero => exact fun _ => List.pairwise_singleton _ _
  | succ left ih =>
    intro d x hx
    refine List.pairwise_flatMap.2 ⟨fun y hy => ih (hx.of_mem_children hy), ?_⟩
    refine (children_rising k d x).imp_of_mem fun {y z} hy hz hyz y' hy' z' hz' => ?_
    obtain ⟨-, hyagree⟩ := (hx.of_mem_children hy).of_mem_branches hy'
    obtain ⟨-, hzagree⟩ := (hx.of_mem_children hz).of_mem_branches hz'
    refine lex_lt_iff.2 ⟨d, fun i hi => ?_, ?_⟩
    · rw [hyagree i (by omega), hzagree i (by omega), children_agree hy i hi, children_agree hz i hi]
    · rwa [hyagree d (by omega), hzagree d (by omega)]

/-- Where a necklace begins as an activation's word does, its next symbol is among those that the calls try: one below
`a[t - p]` would make the rotation by p smaller. -/
theorem IsBranch.le_of_agrees {w : Nat → Nat} (hx : IsBranch k d x) (hw : IsNecklace w)
    (hagree : ∀ i < d, w i = x.2 i) : x.2 d ≤ w d := by
  rcases hx.period_le with hle | ⟨rfl, -, hzero⟩
  · obtain ⟨e, rfl⟩ := Nat.exists_eq_add_of_le' hle
    have hpos := hx.lyndon.pos
    have hnext := le_at_of_lex_le (e := e) (hw x.1) fun i hi => by
      rw [shift, hagree i (by omega), hagree (i + x.1) (by omega), hx.lyndon.periodic]
    rwa [hagree e (by omega), ← hx.lyndon.periodic] at hnext
  · rw [hzero]
    exact Nat.zero_le _

/-- The walk comes to every necklace. -/
theorem IsBranch.branches_complete {w : Nat → Nat} (hw : IsNecklace w) (hbelow : ∀ i, w i < k) :
    ∀ {left d : Nat} {x : Repeated}, IsBranch k d x → (∀ i < d, w i = x.2 i) →
      ∃ y ∈ branches k left d x, ∀ i < d + left, w i = y.2 i := by
  intro left
  induction left with
  | zero => exact fun {d x} _ hagree => ⟨x, List.mem_singleton.2 rfl, hagree⟩
  | succ left ih =>
    intro d x hx hagree
    obtain ⟨y, hy, hyd⟩ := exists_mem_children (hx.le_of_agrees hw hagree) (hbelow d)
    obtain ⟨z, hz, hzagree⟩ := ih (hx.of_mem_children hy) fun i hi => by
      rcases Nat.lt_succ_iff_lt_or_eq.1 hi with hlt | rfl
      · rw [hagree i hlt, children_agree hy i hlt]
      · exact hyd.symm
    exact ⟨z, List.mem_flatMap.2 ⟨y, hy, hz⟩, fun i hi => hzagree i (by omega)⟩

/-- A necklace of length `n` that begins a repeated Lyndon word is that repetition: were n no multiple of the period,
the rotation by the greatest multiple below n would be smaller. -/
theorem IsLyndon.eq_of_necklace {p : Nat} {w : Nat → Nat} (hu : IsLyndon p u) (hpn : p ≤ n) (hw : IsNecklace w)
    (hperiodic : Function.Periodic w n) (hagree : ∀ i < n, w i = u i) : p ∣ n ∧ w = u := by
  have hp := hu.pos
  have hdvd : p ∣ n := by
    by_contra hndvd
    have hr : 0 < n % p := Nat.pos_of_ne_zero fun h0 => hndvd (Nat.dvd_of_mod_eq_zero h0)
    have hrp := Nat.mod_lt n hp
    have hsplit := Nat.mod_add_div n p
    have hle : p ≤ p * (n / p) := Nat.le_mul_of_pos_right p (Nat.div_pos hpn hp)
    have hrot : ∀ i < n % p, w i = shift (p * (n / p)) w i := fun i hi => by
      rw [shift, hagree i (by omega), hagree _ (by omega), ← hu.periodic.map_mod_nat (i + _), Nat.add_mul_mod_self_left,
        hu.periodic.map_mod_nat]
    have hle' : toLex (shift (n % p) w) ≤ toLex w := by
      have hshift := shift_lex_le_shift (hw _) hrot
      rwa [shift_shift, hsplit, shift_self hperiodic] at hshift
    have hfixed : shift (n % p) w = w := toLex.injective (le_antisymm hle' (hw _))
    have hself : shift (n % p) u = u := eq_of_periodic hp (periodic_shift hu.periodic _) hu.periodic fun i hi => by
      rw [shift, ← hagree (i + n % p) (by omega), ← hagree i (by omega)]
      exact congrFun hfixed i
    exact absurd (congrArg toLex hself).symm (hu.lt_shift _ hr hrp).ne
  exact ⟨hdvd, eq_of_periodic (hp.trans_le hpn) hperiodic (periodic_of_dvd hu.periodic hdvd) hagree⟩

/-- The words of the walk whose period divides `n`, which are the ones DEBRUIJN appends (R143). -/
def appended (k n : Nat) : List Repeated := (branches k n 0 (1, fun _ => 0)).filter fun x => n % x.1 = 0

/-- R150: DEBRUIJN goes through the Lyndon words whose length divides `n`. -/
theorem listsLyndonWords_appended (hk : 1 ≤ k) (hn : 1 ≤ n) : ListsLyndonWords k n (appended k n) := by
  have hroot := isBranch_root hk
  have hmem : ∀ x ∈ appended k n, x ∈ branches k n 0 (1, fun _ => 0) ∧ n % x.1 = 0 := fun x hx => by
    simpa using List.mem_filter.1 hx
  have hbranch : ∀ x ∈ branches k n 0 (1, fun _ => 0), IsBranch k n x := fun x hx => by
    simpa using (hroot.of_mem_branches hx).1
  refine ⟨hroot.branches_rising.filter _, fun x hx => (hbranch x (hmem x hx).1).lyndon,
    fun x hx => Nat.dvd_of_mod_eq_zero (hmem x hx).2, fun x hx => (hbranch x (hmem x hx).1).below,
    fun w hw hperiodic hbelow => ?_⟩
  obtain ⟨x, hx, hagree⟩ := hroot.branches_complete hw hbelow (left := n) fun i hi => absurd hi (Nat.not_lt_zero i)
  rw [Nat.zero_add] at hagree
  have hxn : x.1 ≤ n := (hbranch x hx).period_le.elim id fun ⟨hn0, _, _⟩ => absurd hn0 (by omega)
  obtain ⟨hdvd, rfl⟩ := (hbranch x hx).lyndon.eq_of_necklace hxn hw hperiodic hagree
  exact ⟨x, List.mem_filter.2 ⟨hx, by simpa using Nat.mod_eq_zero_of_dvd hdvd⟩, rfl⟩

/-! ### `db` makes the walk -/

/-- The work array holds the first `d` symbols of `u` in `a[1 .. d]`, and 0 in `a[0]` (R142, R147). -/
structure Covering.Holds (n d : Nat) (u : Nat → Nat) (r : Covering) : Prop where
  length : r.cells.length = n + 1
  zero : workCell r.cells 0 = 0
  cells : ∀ i < d, workCell r.cells (i + 1) = u i

theorem Covering.Holds.of_agree {r : Covering} {e : Nat} {v : Nat → Nat} (h : r.Holds n e v) (hde : d ≤ e)
    (hagree : ∀ i < d, v i = u i) : r.Holds n d u :=
  { h with cells := fun i hi => (h.cells i (hi.trans_le hde)).trans (hagree i hi) }

theorem Covering.Holds.set {r : Covering} (h : r.Holds n d x.2) (hd : d < n) (hy : y ∈ children k d x) :
    (r.set (d + 1) (y.2 d)).Holds n (d + 1) y.2 where
  length := by rw [Covering.set_cells, List.length_set, h.length]
  zero := by rw [Covering.set_cells, workCell_set, if_neg (by omega), h.zero]
  cells := fun i hi => by
    rw [Covering.set_cells, workCell_set, h.length]
    rcases Nat.lt_succ_iff_lt_or_eq.1 hi with hlt | rfl
    · rw [if_neg (by omega), h.cells i hlt, children_agree hy i hlt]
    · rw [if_pos (by omega)]

/-- The cell `a[t - p]` holds the next symbol of the repetition. -/
theorem Covering.Holds.workCell_period {r : Covering} (h : r.Holds n d x.2) (hx : IsBranch k d x) :
    workCell r.cells (d + 1 - x.1) = x.2 d := by
  rcases hx.period_le with hle | ⟨rfl, hone, hzero⟩
  · obtain ⟨e, rfl⟩ := Nat.exists_eq_add_of_le' hle
    have hpos := hx.lyndon.pos
    rw [show e + x.1 + 1 - x.1 = e + 1 by omega, h.cells e (by omega), hx.lyndon.periodic]
  · rw [hone, hzero]
    exact h.zero

theorem Covering.Holds.emission_eq {r : Covering} (h : r.Holds n d x.2) (hx : x.1 ≤ d) :
    emission r.cells x.1 = (List.range x.1).map x.2 :=
  List.map_congr_left fun i hi => h.cells i ((List.mem_range.1 hi).trans_le hx)

/-- An activation's calls, in their order, are its children (R143). -/
theorem db_succ_eq_foldl_children {r : Covering} (h : r.Holds n d x.2) (hx : IsBranch k d x) :
    db k n (left + 1) (d + 1) x.1 r =
      (children k d x).foldl (fun r y => db k n left (d + 2) y.1 (r.set (d + 1) (y.2 d))) r := by
  simp only [db, h.workCell_period hx, children, List.foldl_cons, List.foldl_map, extendBy_self]
  rfl

/-- From `r` to `r'` the recursion appends the words of `ys` whose length divides n; `a[1 .. d]` is as it was. -/
structure Covering.Appends (n d : Nat) (u : Nat → Nat) (ys : List Repeated) (r r' : Covering) : Prop where
  holds : r'.Holds n d u
  indices : r'.indices = r.indices ++ spell (ys.filter fun y => n % y.1 = 0)

/-- An activation at t = n + 1 appends its word, where the length divides n (R143). -/
theorem Covering.Holds.appends_emit {r : Covering} (h : r.Holds n d x.2) (hx : x.1 ≤ d) :
    r.Appends n d x.2 [x] (r.emit n x.1) where
  holds :=
    { length := by rw [Covering.emit_cells, h.length]
      zero := by rw [Covering.emit_cells, h.zero]
      cells := by rw [Covering.emit_cells]; exact h.cells }
  indices := by
    by_cases hdiv : n % x.1 = 0
    · simp [Covering.emit, hdiv, h.emission_eq hx]
    · simp [Covering.emit, hdiv]

/-- Where each call appends its words, calls in a row append theirs in a row. -/
theorem Covering.Holds.appends_foldl (hd : d < n)
    (hcalls : ∀ y ∈ children k d x, ∀ r : Covering, r.Holds n (d + 1) y.2 →
      r.Appends n (d + 1) y.2 (branches k left (d + 1) y) (db k n left (d + 2) y.1 r)) :
    ∀ (ys : List Repeated) {r : Covering}, (∀ y ∈ ys, y ∈ children k d x) → r.Holds n d x.2 →
      r.Appends n d x.2 (ys.flatMap (branches k left (d + 1)))
        (ys.foldl (fun r y => db k n left (d + 2) y.1 (r.set (d + 1) (y.2 d))) r) := by
  intro ys
  induction ys with
  | nil => exact fun _ h => ⟨h, (List.append_nil _).symm⟩
  | cons y ys ih =>
    intro r hys h
    have hy := hys y List.mem_cons_self
    have hfirst := hcalls y hy _ (h.set hd hy)
    have hrest := ih (fun z hz => hys z (List.mem_cons_of_mem y hz))
      (hfirst.holds.of_agree (Nat.le_succ d) (children_agree hy))
    refine ⟨hrest.holds, hrest.indices.trans ?_⟩
    rw [hfirst.indices, Covering.set_indices, List.flatMap_cons, List.filter_append, spell_append, List.append_assoc]

/-- `db(d + 1, p)` appends the words of its walk whose length divides n (R143, R147). -/
theorem Covering.Holds.appends_db (hn : 1 ≤ n) : ∀ {left d : Nat} {x : Repeated} {r : Covering}, IsBranch k d x →
    d + left = n → r.Holds n d x.2 → r.Appends n d x.2 (branches k left d x) (db k n left (d + 1) x.1 r) := by
  intro left
  induction left with
  | zero =>
    intro d x r hx hd h
    exact h.appends_emit (hx.period_le.elim id fun ⟨hd0, _, _⟩ => absurd hd0 (by omega))
  | succ left ih =>
    intro d x r hx hd h
    rw [db_succ_eq_foldl_children h hx]
    exact Covering.Holds.appends_foldl (by omega)
      (fun y hy _ hset => ih (hx.of_mem_children hy) (by omega) hset) _ (fun _ hy => hy) h

theorem coveringRun_indices (hk : 1 ≤ k) (hn : 1 ≤ n) : (coveringRun k n).indices = spell (appended k n) := by
  have hwork := workInRange_replicate hk n
  have hholds : Covering.Holds n 0 (fun _ => 0) { cells := List.replicate (n + 1) 0, indices := [] } :=
    ⟨hwork.length, hwork.zero, fun i hi => absurd hi (Nat.not_lt_zero i)⟩
  exact (Covering.Holds.appends_db hn (isBranch_root hk) (Nat.zero_add n) hholds).indices

end

end Sys2Proof.Machine

/-! DEBRUIJN of 43_debruijn.md: when it fails and what it then leaves (R141, R155), what it writes (R140, R144), the
properties of the covering sequence (R146, R151), and its stack form (R149, R37). -/

namespace Sys2Proof.Machine

/-! ### A DEBRUIJN that fails -/

/-- R141: an operand holds no value or is 0. -/
def State.DebruijnFails (s : State) : Prop := s.dbK = none ∨ s.dbN = none ∨ s.dbK = some 0 ∨ s.dbN = some 0

theorem execDebruijn_of_fails {s : State} (h : s.DebruijnFails) : execDebruijn s = .next s.raiseInvalidParameter := by
  unfold execDebruijn
  split
  case h_1 k n hk hn =>
    have hkn : k < 1 ∨ n < 1 := by
      rw [State.DebruijnFails, hk, hn] at h
      simpa using h
    rw [if_pos hkn]
  case h_2 => rfl

/-- Settles O32: both tests come before any write. -/
theorem debruijnFailureChangesOnlyStatus : Obligations.DebruijnFailureChangesOnlyStatus := fun _ hidle hfails =>
  (execDebruijn_of_fails hfails).trans (congrArg _ (State.raiseInvalidParameter_of_idle hidle))

/-! ### Reading the alphabet -/

theorem Memory.read_of_readAll {α : Type} {m : Memory α} {is : List Nat} {vs : List α} (h : m.readAll is = some vs)
    {x i : Nat} (hx : is[x]? = some i) : m.read i = vs[x]? := by
  have hget := congrArg (fun l => l[x]?) (Memory.readAll_some.1 h)
  simp only [List.getElem?_map, hx, Option.map_some] at hget
  cases hv : vs[x]? with
  | none => rw [hv] at hget; cases hget
  | some v => rw [hv] at hget; exact Option.some.inj hget

theorem Memory.readAll_append {α : Type} {m : Memory α} {is js : List Nat} {vs ws : List α}
    (his : m.readAll is = some vs) (hjs : m.readAll js = some ws) : m.readAll (is ++ js) = some (vs ++ ws) := by
  rw [Memory.readAll_some] at his hjs ⊢
  rw [List.map_append, List.map_append, his, hjs]

/-- ALPHA gives a symbol for each index below k (R144). -/
theorem State.ReadyToCover.readAll_isSome {s : State} {k n : Nat} (h : s.ReadyToCover k n) {is : List Nat}
    (his : ∀ i ∈ is, i < k) : ∃ vs, (s.alpha.below k).readAll is = some vs := by
  refine Memory.readAll_isSome fun i hi => ?_
  obtain ⟨v, hv, -⟩ := h.alphabet i (his i hi)
  rw [Memory.read_below, if_pos (his i hi), hv]
  rfl

/-! ### DEBRUIJN at work -/

/-- `s` inside DEBRUIJN: the work array, the symbols in SEQ and the stack. -/
def State.coveringAt (s : State) (a : List Nat) (vs : List Byte) (fs : List Frame) : State :=
  { s with
    workArray := a
    seq := Memory.cells 0 vs
    seqLen := vs.length
    stack := fs
    engine := .covering }

theorem Memory.write_nil {α : Type} (vs : List α) : Memory.write [] 0 vs = Memory.cells 0 vs :=
  List.append_nil (Memory.cells 0 vs)

theorem Memory.mem_cells_lt {α : Type} {base : Nat} {vs : List α} {c : Nat × α} (hc : c ∈ Memory.cells base vs) :
    c.1 < base + vs.length := by
  have hindex : c.1 ∈ (Memory.cells base vs).map Prod.fst := List.mem_map_of_mem hc
  rw [Memory.cells_indices] at hindex
  exact (List.mem_range'_1.1 hindex).2

/-- An append to a sequence that stands in a space by itself (00_scope.md R13). -/
theorem Memory.write_cells {α : Type} (vs ws : List α) :
    Memory.write (Memory.cells 0 vs) vs.length ws = Memory.cells 0 (vs ++ ws) := by
  have hlt : ∀ c ∈ Memory.cells 0 vs, c.1 < vs.length := fun c hc => by simpa using Memory.mem_cells_lt hc
  have hbelow : Memory.below (Memory.cells 0 vs) vs.length = Memory.cells 0 vs :=
    List.filter_eq_self.2 fun c hc => decide_eq_true (hlt c hc)
  have hfrom : Memory.from (Memory.cells 0 vs) (vs.length + ws.length) = [] :=
    List.filter_eq_nil_iff.2 fun c hc => by
      have := hlt c hc
      simp only [decide_eq_true_eq]
      omega
  rw [Memory.write, hbelow, hfrom, List.append_nil, Memory.cells_append, Nat.zero_add]

section
variable {s : State} {k n : Nat} {a : List Nat} {vs : List Byte} {fs : List Frame}

theorem State.beginDebruijn_eq_coveringAt (s : State) (n : Nat) :
    s.beginDebruijn n = s.coveringAt (List.replicate (n + 1) 0) [] [{ t := 1, p := 1, j := none }] := rfl

@[simp] theorem State.coveringAt_stack : (s.coveringAt a vs fs).stack = fs := rfl
@[simp] theorem State.coveringAt_engine : (s.coveringAt a vs fs).engine = .covering := rfl
@[simp] theorem State.coveringAt_dbK : (s.coveringAt a vs fs).dbK = s.dbK := rfl
@[simp] theorem State.coveringAt_dbN : (s.coveringAt a vs fs).dbN = s.dbN := rfl

@[simp] theorem State.coveringAt_withStack (fs' : List Frame) :
    (s.coveringAt a vs fs).withStack fs' = s.coveringAt a vs fs' := rfl

@[simp] theorem State.coveringAt_appendSeq (ws : List Byte) :
    (s.coveringAt a vs fs).appendSeq ws = s.coveringAt a (vs ++ ws) fs := by
  rw [State.coveringAt, State.appendSeq, Memory.write_cells, ← List.length_append]
  rfl

/-- The recursion's work done is the last state of the loop. -/
theorem State.appendSeq_withWork_beginDebruijn (s : State) (n : Nat) (a : List Nat) (vs : List Byte) :
    ((s.beginDebruijn n).withWork a).appendSeq vs = s.coveringAt a vs [] := by
  simp only [State.beginDebruijn, State.withWork, State.appendSeq, Memory.write_nil, Nat.zero_add]
  rfl

/-! ### The result of DEBRUIJN -/

theorem coveringRun_indices_lt (hk : 1 ≤ k) (hn : 1 ≤ n) {i : Nat} (hi : i ∈ (coveringRun k n).indices) : i < k :=
  (listsLyndonWords_appended hk hn).lt_of_mem_spell (coveringRun_indices hk hn ▸ hi)

/-- DEBRUIJN on a ready state ends with the recursion's work done and its indices, mapped, in SEQ (R140, R144). -/
theorem State.ReadyToCover.exec_debruijn (h : s.ReadyToCover k n) :
    ∃ vs, (s.alpha.below k).readAll (coveringRun k n).indices = some vs ∧
      exec .debruijn s = .next (s.coveringAt (coveringRun k n).cells vs []).finishDebruijn := by
  obtain ⟨vs, hvs⟩ := h.readAll_isSome fun i hi => coveringRun_indices_lt h.size_pos h.length_pos hi
  have hkn : ¬(k < 1 ∨ n < 1) := not_or.2 ⟨Nat.not_lt.2 h.size_pos, Nat.not_lt.2 h.length_pos⟩
  refine ⟨vs, hvs, ?_⟩
  simp only [exec, execDebruijn, h.alphabetSize, h.wordLength, if_neg hkn, hvs,
    State.appendSeq_withWork_beginDebruijn]

/-- Settles O33: each index is below k, so ALPHA read below k is ALPHA. -/
theorem debruijnWritesMappedIndices : Obligations.DebruijnWritesMappedIndices := by
  intro s k n hready
  obtain ⟨vs, hvs, hexec⟩ := hready.exec_debruijn
  have hlength := Memory.readAll_length hvs
  have hread : ∀ x, (Memory.cells 0 vs).read x = vs[x]? := fun x => by
    rw [Memory.read_cells, if_pos (Nat.zero_le x), Nat.sub_zero]
  refine ⟨_, hexec, fun x i hx => ?_, fun x hx => ?_, ?_⟩
  · have hi := coveringRun_indices_lt hready.size_pos hready.length_pos (List.mem_of_getElem? hx)
    have hcell := Memory.read_of_readAll hvs hx
    rw [Memory.read_below, if_pos hi] at hcell
    exact ⟨hi, (hread x).trans hcell.symm⟩
  · exact (hread x).trans (List.getElem?_eq_none (by omega))
  · rw [← hlength]
    rfl

/-- Where the answer of DEBRUIJN is known, SEQ_LEN and the cells of SEQ, index by index. -/
theorem State.ReadyToCover.exec_debruijn_seq (h : s.ReadyToCover k n) :
    ∃ t, exec .debruijn s = .next t ∧ t.seqLen = (coveringRun k n).indices.length ∧
      ∀ x i, (coveringRun k n).indices[x]? = some i → t.seq.read x = s.alpha.read i := by
  obtain ⟨t, ht, hseq, -, hframe⟩ := debruijnWritesMappedIndices s k n h
  exact ⟨t, ht, congrArg State.seqLen hframe, fun x i hx => (hseq x i hx).2⟩

/-- Settles O36: the words appended are the Lyndon words of R150, whose rotations are the k^n words. -/
theorem coveringSequenceHasLengthKToN : Obligations.CoveringSequenceHasLengthKToN := by
  intro s k n hready
  obtain ⟨t, ht, hlen, -⟩ := hready.exec_debruijn_seq
  refine ⟨t, ht, hlen.trans ?_⟩
  rw [coveringRun_indices hready.size_pos hready.length_pos]
  exact (listsLyndonWords_appended hready.size_pos hready.length_pos).length_eq hready.length_pos hready.size_pos

/-- For words of length 1 each turn of the root's loop appends its symbol (R151). -/
theorem coveringRun_one_indices (hk : 1 ≤ k) : (coveringRun k 1).indices = List.range k := by
  have hfold : ∀ (js : List Nat) (r : Covering), r.cells.length = 2 →
      (js.foldl (fun r j => db k 1 0 2 1 (r.set 1 j)) r).indices = r.indices ++ js := by
    intro js
    induction js with
    | nil => exact fun r _ => (List.append_nil _).symm
    | cons j js ih =>
      intro r hr
      have hemit : (db k 1 0 2 1 (r.set 1 j)).indices = r.indices ++ [j] := by
        simp [db, Covering.emit, emission, workCell_set, hr]
      have hlength : (db k 1 0 2 1 (r.set 1 j)).cells.length = 2 := by
        rw [db_cells_length, Covering.set_cells, List.length_set, hr]
      rw [List.foldl_cons, ih _ hlength, hemit, List.append_assoc]
      rfl
  rw [coveringRun_succ hk 0, hfold _ _ List.length_replicate]
  rfl

/-- Settles O38: over one symbol, SEQ has the length 1^n and its one index is below 1. -/
theorem coveringSequenceCornerCases : Obligations.CoveringSequenceCornerCases := by
  constructor
  · intro s n hready
    obtain ⟨t, ht, hlen, hseq⟩ := hready.exec_debruijn_seq
    obtain ⟨t', ht', hlen'⟩ := coveringSequenceHasLengthKToN s 1 n hready
    obtain rfl : t = t' := Host.Outcome.next.inj (ht.symm.trans ht')
    rw [Nat.one_pow] at hlen'
    refine ⟨t, ht, hlen', hseq 0 0 ?_⟩
    have hpos : 0 < (coveringRun 1 n).indices.length := by omega
    have hzero := coveringRun_indices_lt hready.size_pos hready.length_pos (List.getElem_mem hpos)
    rw [List.getElem?_eq_getElem hpos, Nat.lt_one_iff.1 hzero]
  · intro s k hready
    obtain ⟨t, ht, hlen, hseq⟩ := hready.exec_debruijn_seq
    rw [coveringRun_one_indices hready.size_pos] at hlen hseq
    exact ⟨t, ht, hlen.trans List.length_range, fun i hi => hseq i i (List.getElem?_range hi)⟩

/-! ### The windows of the covering sequence -/

theorem windowAt_eq_of_cyclicWindow_eq {S : List Nat} {x y : Nat} (h : cyclicWindow S n x = cyclicWindow S n y) :
    windowAt S n x = windowAt S n y := by
  funext i
  have hcell := congrArg (fun l => l[(i : Nat)]?) h
  simp only [cyclicWindow, List.getElem?_map, List.getElem?_range i.isLt, Option.map_some, Option.some.injEq] at hcell
  rw [windowAt, windowAt, List.getD_eq_getElem?_getD, List.getD_eq_getElem?_getD, hcell]

/-- The windows of the index sequence are distinct (R146 b). -/
theorem coveringRun_windowAt_inj (hk : 1 ≤ k) (hn : 1 ≤ n) {x y : Nat} (hx : x < (coveringRun k n).indices.length)
    (hy : y < (coveringRun k n).indices.length)
    (h : windowAt (coveringRun k n).indices n x = windowAt (coveringRun k n).indices n y) : x = y := by
  rw [coveringRun_indices hk hn] at hx hy h
  exact (listsLyndonWords_appended hk hn).windows_injOn hn hk (Finset.mem_coe.2 (Finset.mem_range.2 hx))
    (Finset.mem_coe.2 (Finset.mem_range.2 hy)) h

/-- Every word of indices stands among them (R146 c). -/
theorem coveringRun_exists_standsAt (hk : 1 ≤ k) (hn : 1 ≤ n) {w : Nat → Nat} (hw : ∀ i < n, w i < k) :
    ∃ x < (coveringRun k n).indices.length, StandsAt (coveringRun k n).indices n x w := by
  rw [coveringRun_indices hk hn]
  exact (listsLyndonWords_appended hk hn).exists_standsAt hn hk hw

/-- Settles O42: a word over ALPHA is a word of indices, which stands in the index sequence; where the symbols are
distinct, two places of the word are two places of its indices. -/
theorem coveringSequenceHoldsEveryWordOnce : Obligations.CoveringSequenceHoldsEveryWordOnce := by
  intro s k n hready
  have hk := hready.size_pos
  have hn := hready.length_pos
  refine ⟨fun x hx y hy h => coveringRun_windowAt_inj hk hn hx hy (windowAt_eq_of_cyclicWindow_eq h),
    fun hdistinct => ?_⟩
  obtain ⟨t, ht, hlen, hseq⟩ := hready.exec_debruijn_seq
  refine ⟨t, ht, fun w hwn hw => ?_⟩
  have hindex : ∀ i, ∃ c, i < n → c < k ∧ s.alpha.read c = w[i]? := fun i => by
    by_cases hi : i < w.length
    · obtain ⟨c, hc, hread⟩ := hw w[i] (List.getElem_mem hi)
      exact ⟨c, fun _ => ⟨hc, hread.trans (List.getElem?_eq_getElem hi).symm⟩⟩
    · exact ⟨0, fun hin => absurd hin (hwn ▸ hi)⟩
  choose v hv using hindex
  obtain ⟨x, hx, hstands⟩ := coveringRun_exists_standsAt hk hn fun i hi => (hv i hi).1
  rw [hlen]
  refine ⟨x, ⟨hx, fun y hy => (hseq _ _ (hstands y hy)).trans (hv y hy).2⟩, fun x' ⟨hx', hword⟩ => ?_⟩
  have hstands' : StandsAt (coveringRun k n).indices n x' v := fun y hy => by
    have hplace := Nat.mod_lt (x' + y) (Nat.zero_lt_of_lt hx)
    have hget := List.getElem?_eq_getElem hplace
    have hlt := coveringRun_indices_lt hk hn (List.getElem_mem hplace)
    obtain ⟨hvk, hvw⟩ := hv y hy
    rw [hget, hdistinct _ hlt _ hvk (((hseq _ _ hget).symm.trans (hword y hy)).trans hvw.symm)]
  exact coveringRun_windowAt_inj hk hn hx' hx (hstands'.windowAt_eq.trans hstands.windowAt_eq.symm)

/-! ### The turns of the stack loop (R149) -/

theorem coveringTurn_of_end {u : State} (h : u.stack = []) : coveringTurn k n u = .next u.finishDebruijn := by
  simp only [coveringTurn, h]

theorem coveringTurn_of_emit {u : State} {f : Frame} {ws : List Byte} (h : u.stack = f :: fs) (ht : n < f.t)
    (hp : n % f.p = 0) (hws : (u.alpha.below k).readAll (emission u.workArray f.p) = some ws) :
    coveringTurn k n u = .next ((u.appendSeq ws).withStack fs) := by
  simp only [coveringTurn, h, if_pos ht, if_pos hp, hws]

theorem coveringTurn_of_skip {u : State} {f : Frame} (h : u.stack = f :: fs) (ht : n < f.t) (hp : n % f.p ≠ 0) :
    coveringTurn k n u = .next (u.withStack fs) := by
  simp only [coveringTurn, h, if_pos ht, if_neg hp]

theorem coveringTurn_of_start {u : State} {t p : Nat} (h : u.stack = ⟨t, p, none⟩ :: fs) (ht : t ≤ n) :
    coveringTurn k n u = .next ((u.setWork t (workCell u.workArray (t - p))).withStack
      (⟨t + 1, p, none⟩ :: ⟨t, p, some (workCell u.workArray (t - p) + 1)⟩ :: fs)) := by
  simp only [coveringTurn, h, if_neg (Nat.not_lt.2 ht)]

theorem coveringTurn_of_loop {u : State} {t p j : Nat} (h : u.stack = ⟨t, p, some j⟩ :: fs) (ht : t ≤ n) (hj : j < k) :
    coveringTurn k n u = .next ((u.setWork t j).withStack (⟨t + 1, t, none⟩ :: ⟨t, p, some (j + 1)⟩ :: fs)) := by
  simp only [coveringTurn, h, if_neg (Nat.not_lt.2 ht), if_pos hj]

theorem coveringTurn_of_pop {u : State} {t p j : Nat} (h : u.stack = ⟨t, p, some j⟩ :: fs) (ht : t ≤ n) (hj : k ≤ j) :
    coveringTurn k n u = .next (u.withStack fs) := by
  simp only [coveringTurn, h, if_neg (Nat.not_lt.2 ht), if_neg (Nat.not_lt.2 hj)]

/-! ### Runs of inner steps -/

theorem innerSteps_add (m m' : Nat) :
    ∀ u : State, innerSteps (m + m') u = andThen (innerSteps m u) (innerSteps m') := by
  induction m with
  | zero => exact fun u => by rw [Nat.zero_add]; rfl
  | succ m ih =>
    intro u
    rw [Nat.add_right_comm]
    by_cases hidle : u.engine = .idle
    · rw [innerSteps_of_idle hidle, innerSteps_of_idle hidle, andThen_next, innerSteps_of_idle hidle]
    · simp only [innerSteps, if_neg hidle]
      cases step u with
      | next v => exact ih v
      | fault r => rfl
      | refused r => rfl

/-- Some number of inner steps leads from `u` to `v` (R17). -/
def State.RunsTo (u v : State) : Prop := ∃ m, innerSteps m u = .next v

theorem State.RunsTo.trans {u v w : State} (huv : u.RunsTo v) (hvw : v.RunsTo w) : u.RunsTo w := by
  obtain ⟨m, hm⟩ := huv
  obtain ⟨m', hm'⟩ := hvw
  exact ⟨m + m', by rw [innerSteps_add, hm, andThen_next, hm']⟩

/-- One turn of the loop is one inner step. -/
theorem State.ReadyToCover.runsTo_of_turn (h : s.ReadyToCover k n) {v : State}
    (hturn : coveringTurn k n (s.coveringAt a vs fs) = .next v) : (s.coveringAt a vs fs).RunsTo v := by
  refine ⟨1, ?_⟩
  simp only [innerSteps, State.coveringAt_engine, step_of_covering State.coveringAt_engine, coveringStep,
    State.coveringAt_dbK, State.coveringAt_dbN, h.alphabetSize, h.wordLength, hturn]
  rfl

/-! ### The stack form does what the recursion does -/

/-- `u` is `s` inside DEBRUIJN with the stack `fs`, as far as the recursion with `r` (R149). -/
def State.CoversAs (s : State) (k n : Nat) (r : Covering) (fs : List Frame) (u : State) : Prop :=
  WorkInRange k n r.cells ∧
    ∃ vs, (s.alpha.below k).readAll r.indices = some vs ∧ u = s.coveringAt r.cells vs fs

/-- The frame on top is worked off, with the outcome `r'`. -/
def State.WorksOff (s : State) (k n : Nat) (r : Covering) (f : Frame) (r' : Covering) : Prop :=
  ∀ fs u, s.CoversAs k n r (f :: fs) u → ∃ v, u.RunsTo v ∧ s.CoversAs k n r' fs v

/-- A frame at t = n + 1 (R143: the emission). -/
theorem State.ReadyToCover.worksOff_emit (h : s.ReadyToCover k n) (r : Covering) {t : Nat} (ht : n < t) (p : Nat) :
    s.WorksOff k n r ⟨t, p, none⟩ (r.emit n p) := by
  rintro fs _ ⟨hwork, vs, hvs, rfl⟩
  by_cases hp : n % p = 0
  · obtain ⟨ws, hws⟩ := h.readAll_isSome (is := emission r.cells p) fun i hi => by
      obtain ⟨x, -, rfl⟩ := List.mem_map.1 hi
      exact hwork.below (x + 1)
    refine ⟨_, h.runsTo_of_turn (coveringTurn_of_emit State.coveringAt_stack ht hp hws), ?_⟩
    rw [Covering.emit, if_pos hp]
    exact ⟨hwork, _, Memory.readAll_append hvs hws, by simp⟩
  · refine ⟨_, h.runsTo_of_turn (coveringTurn_of_skip State.coveringAt_stack ht hp), ?_⟩
    rw [Covering.emit, if_neg hp]
    exact ⟨hwork, vs, hvs, rfl⟩

/-- A frame in its loop (R143: `for j`), where the frames above it are worked off as the recursion does. -/
theorem State.ReadyToCover.worksOff_loop (h : s.ReadyToCover k n) {left t : Nat} (ht : 1 ≤ t) (htn : t ≤ n)
    (hcalls : ∀ r p, s.WorksOff k n r ⟨t + 1, p, none⟩ (db k n left (t + 1) p r)) (p : Nat) :
    ∀ (c j : Nat) (r : Covering), k - j = c → s.WorksOff k n r ⟨t, p, some j⟩
      ((List.range' j c).foldl (fun r j => db k n left (t + 1) t (r.set t j)) r) := by
  intro c
  induction c with
  | zero =>
    rintro j r hc fs _ ⟨hwork, vs, hvs, rfl⟩
    have hturn := coveringTurn_of_pop (u := s.coveringAt r.cells vs (⟨t, p, some j⟩ :: fs))
      State.coveringAt_stack htn (Nat.sub_eq_zero_iff_le.1 hc)
    exact ⟨_, h.runsTo_of_turn hturn, hwork, vs, hvs, rfl⟩
  | succ c ih =>
    rintro j r hc fs _ ⟨hwork, vs, hvs, rfl⟩
    have hj : j < k := by omega
    have hturn := coveringTurn_of_loop (u := s.coveringAt r.cells vs (⟨t, p, some j⟩ :: fs))
      State.coveringAt_stack htn hj
    obtain ⟨v, hv, hcovers⟩ := hcalls (r.set t j) t (⟨t, p, some (j + 1)⟩ :: fs) _ ⟨hwork.set ht hj, vs, hvs, rfl⟩
    obtain ⟨w, hw, hcovers'⟩ := ih (j + 1) _ (by omega) fs v hcovers
    exact ⟨w, (h.runsTo_of_turn hturn).trans (hv.trans hw), by rwa [List.range'_succ, List.foldl_cons]⟩

/-- A new frame is worked off with the outcome of its activation of `db`. -/
theorem State.ReadyToCover.worksOff_db (h : s.ReadyToCover k n) : ∀ {left t : Nat}, 1 ≤ t → t + left = n + 1 →
    ∀ r p, s.WorksOff k n r ⟨t, p, none⟩ (db k n left t p r) := by
  intro left
  induction left with
  | zero => exact fun _ hsum r p => h.worksOff_emit r (by omega) p
  | succ left ih =>
    rintro t ht hsum r p fs _ ⟨hwork, vs, hvs, rfl⟩
    have hcalls := fun r p => ih (t := t + 1) (by omega) (by omega) r p
    have htn : t ≤ n := by omega
    have hturn := coveringTurn_of_start (k := k) (u := s.coveringAt r.cells vs (⟨t, p, none⟩ :: fs))
      State.coveringAt_stack htn
    obtain ⟨v, hv, hcovers⟩ := hcalls (r.set t (workCell r.cells (t - p))) p _ _
      ⟨hwork.set ht (hwork.below _), vs, hvs, rfl⟩
    obtain ⟨w, hw, hcovers'⟩ := h.worksOff_loop ht htn hcalls p _ _ _ rfl fs v hcovers
    exact ⟨w, (h.runsTo_of_turn hturn).trans (hv.trans hw), hcovers'⟩

/-- Settles O34: the frame (1, 1) is worked off as `db(1, 1)`, and the empty stack ends the command. -/
theorem debruijnStackFormAgrees : Obligations.DebruijnStackFormAgrees := by
  intro s k n hready
  obtain ⟨vs, hvs, hexec⟩ := hready.exec_debruijn
  obtain ⟨_, hrun, -, vs', hvs', rfl⟩ := hready.worksOff_db (left := n) le_rfl (Nat.add_comm 1 n)
    { cells := List.replicate (n + 1) 0, indices := [] } 1 [] _
    ⟨workInRange_replicate hready.size_pos n, [], rfl, s.beginDebruijn_eq_coveringAt n⟩
  obtain rfl : vs' = vs := Option.some.inj (hvs'.symm.trans hvs)
  obtain ⟨m, hm⟩ := hrun.trans (hready.runsTo_of_turn (coveringTurn_of_end State.coveringAt_stack))
  exact ⟨m, hm.trans hexec.symm⟩

/-! ### The bound of the stack (R37) -/

/-- The frames of a stack stand at t = 1, 2, ... from its bottom up. -/
def StandInOrder : List Frame → Prop
  | [] => True
  | f :: fs => f.t = fs.length + 1 ∧ StandInOrder fs

/-- What every turn keeps of the stack of DEBRUIJN with word length `n`. -/
def State.StackInRange (n : Nat) (u : State) : Prop := StandInOrder u.stack ∧ u.stack.length ≤ n + 1

/-- A frame is pushed only onto one at t <= n. -/
theorem CoveringEffect.stackInRange {u v : State} (hu : u.StackInRange n) (h : CoveringEffect k n u v) :
    v.StackInRange n := by
  obtain ⟨horder, hlength⟩ := hu
  have hpop : ∀ {f : Frame} {rest : List Frame}, u.stack = f :: rest → StandInOrder rest ∧ rest.length ≤ n + 1 :=
    fun {f rest} hstack => by
      rw [hstack] at horder hlength
      exact ⟨horder.2, (Nat.le_succ _).trans hlength⟩
  have hpush : ∀ {f g : Frame} {rest : List Frame} (p : Nat), u.stack = f :: rest → f.t ≤ n → g.t = f.t →
      StandInOrder (⟨f.t + 1, p, none⟩ :: g :: rest) ∧ (rest.length + 1) + 1 ≤ n + 1 :=
    fun {f g rest} p hstack ht hg => by
      rw [hstack] at horder
      obtain ⟨hf, hrest⟩ := horder
      exact ⟨⟨by rw [hf]; rfl, hg.trans hf, hrest⟩, by omega⟩
  cases h with
  | finished _ => exact ⟨horder, hlength⟩
  | emitted hstack _ _ _ => exact hpop hstack
  | skipped hstack _ _ => exact hpop hstack
  | ended hstack _ _ _ => exact hpop hstack
  | started hstack ht _ => exact hpush _ hstack ht rfl
  | looped hstack ht _ _ => exact hpush _ hstack ht rfl

theorem step_stackInRange {u v : State} (hcovers : u.CoversInRange k n) (hu : u.StackInRange n)
    (hbusy : u.engine ≠ .idle) (h : step u = .next v) : v.StackInRange n := by
  have hcov : u.engine = .covering := by
    cases hengine : u.engine with
    | idle => exact absurd hengine hbusy
    | generating => exact absurd hengine hcovers.engine
    | covering => rfl
  rw [step_of_covering hcov] at h
  obtain rfl | ⟨k', n', -, hn, heffect⟩ := coveringStep_cases h
  · exact hu
  · obtain rfl : n = n' := Option.some.inj (hcovers.wordLength.symm.trans hn)
    exact heffect.stackInRange hu

/-- Settles O35, by induction on the number of inner steps. -/
theorem debruijnStackIsBounded : Obligations.DebruijnStackIsBounded := by
  intro s t k n m hready h
  have hkeeps : ∀ u v : State, u.CoversInRange k n ∧ u.StackInRange n → u.engine ≠ .idle → step u = .next v →
      v.CoversInRange k n ∧ v.StackInRange n := fun _ _ ⟨hcovers, hstack⟩ hbusy hstep =>
    ⟨step_coversInRange hcovers hbusy hstep, step_stackInRange hcovers hstack hbusy hstep⟩
  have hbegin : (s.beginDebruijn n).StackInRange n := ⟨⟨rfl, trivial⟩, Nat.le_add_left 1 n⟩
  obtain ⟨-, -, hlength⟩ := innerSteps_induction hkeeps m ⟨hready.beginDebruijn_coversInRange, hbegin⟩ h
  exact hlength

end

end Sys2Proof.Machine

/-! Host reads of cells of 60_exceptions.md: which cells the host can read and what it gets (R181, R41), and that under the
invariant every cell of a result holds a value (R59). -/

namespace Sys2Proof.Machine

section

variable {s : State} {rest : List HostAction} {sp : OutputSpace} {i l : Nat} {α : Type} {m : Memory α} {ok : α → Prop}
  {kind : α → HostValue}

/-- The host's own fields have no part in what a cell gives. -/
theorem cellValue_withPending (sp : OutputSpace) (i : Nat) (s : State) (rest : List HostAction) :
    cellValue sp i (s.withPending rest) = cellValue sp i s := by
  cases sp <;> rfl

theorem step_readCell_of_value {v : HostValue} (hnext : s.hostNext (.readCell sp i) rest)
    (hv : cellValue sp i s = some v) : step s = .next ((s.withPending rest).hostHas v) :=
  (step_eq_hostStep hnext).trans (hostReadCell_of_value ((cellValue_withPending ..).trans hv))

theorem step_readCell_of_none (hnext : s.hostNext (.readCell sp i) rest) (hv : cellValue sp i s = none) :
    step s = .refused .cellNotReadable :=
  (step_eq_hostStep hnext).trans (hostReadCell_of_none ((cellValue_withPending ..).trans hv))

/-- A space that is readable below `l` and filled there: the host gets the cell's own content. -/
theorem step_readCell_below (hnext : s.hostNext (.readCell sp i) rest)
    (hcell : cellValue sp i s = if i < l then (m.read i).map kind else none) (hfilled : m.Filled l ok) (hi : i < l) :
    ∃ c, m.read i = some c ∧ step s = .next ((s.withPending rest).hostHas (kind c)) := by
  obtain ⟨c, hread, -⟩ := hfilled i hi
  rw [if_pos hi, hread] at hcell
  exact ⟨c, hread, step_readCell_of_value hnext hcell⟩

/-- A space that is readable below `l` only, whatever its cells hold (R41, U7). -/
theorem step_readCell_atOrAbove (hnext : s.hostNext (.readCell sp i) rest)
    (hcell : cellValue sp i s = if i < l then (m.read i).map kind else none) (hi : l ≤ i) :
    step s = .refused .cellNotReadable :=
  step_readCell_of_none hnext (hcell.trans (if_neg (Nat.not_lt.2 hi)))

end

/-- Settles O51: each space is readable below its length, where the invariant fills it, and nowhere else. -/
theorem resultsBelowTheirLengthsAreReadable : Obligations.ResultsBelowTheirLengthsAreReadable := by
  intro s i sp rest hnext
  refine ⟨fun hinv => ⟨?lut, ?out, ?evt, ?seq⟩, ?refused⟩
  case lut =>
    rintro rfl hvalid ⟨n, hn, hi⟩
    obtain ⟨n', htable⟩ := hinv.tableWritten hvalid
    obtain rfl : n = n' := Option.some.inj (hn.symm.trans htable.pairs)
    exact step_readCell_below hnext (cellValue_lut hvalid hn i) htable.cells hi
  case out =>
    rintro rfl hi
    exact step_readCell_below hnext (cellValue_out i s) hinv.out_samples hi
  case evt =>
    rintro rfl hi
    exact step_readCell_below hnext (cellValue_evt i s) hinv.evt_records hi
  case seq =>
    rintro rfl hi
    exact step_readCell_below hnext (cellValue_seq i s) hinv.seq_symbols hi
  case refused =>
    rintro (⟨rfl, hinvalid | ⟨n, hn, hi⟩⟩ | ⟨rfl, hi⟩ | ⟨rfl, hi⟩ | ⟨rfl, hi⟩)
    · exact step_readCell_of_none hnext (cellValue_lut_of_invalid hinvalid i)
    · cases hvalid : s.status.lutValid with
      | false => exact step_readCell_of_none hnext (cellValue_lut_of_invalid hvalid i)
      | true => exact step_readCell_atOrAbove hnext (cellValue_lut hvalid hn i) hi
    · exact step_readCell_atOrAbove hnext (cellValue_out i s) hi
    · exact step_readCell_atOrAbove hnext (cellValue_evt i s) hi
    · exact step_readCell_atOrAbove hnext (cellValue_seq i s) hi

end Sys2Proof.Machine

/-! Reset of 70_reset_and_hazards.md: what a reset gives (R190), and that apart from it no valid flag goes back to 0 but
OUT_VALID at the strict-mode abort (R191). -/

namespace Sys2Proof.Machine

/-! ### The reset action -/

/-- Settles O52: the host's oldest action is taken from its own fields, which the reset leaves alone (log 20). -/
theorem resetActionResets : Obligations.ResetActionResets := by
  intro s rest hnext
  calc step s = .next (s.withPending rest).afterReset := step_eq_hostStep hnext
    _ = .next { State.reset with host := { s.host with pending := rest } } := rfl

/-! ### The valid flags from one state to the next -/

/-- No valid flag that is 1 in `s` is 0 in `t`, except OUT_VALID where the strict-mode abort ended GENERATE (R191, R173). -/
structure State.KeepsValidFlags (s t : State) : Prop where
  lut : s.status.lutValid = true → t.status.lutValid = true
  seq : s.status.seqValid = true → t.status.seqValid = true
  out : s.status.outValid = true → t.status.outValid = true ∨ s.strict = true ∧ t.status.err = .malformedSymbol

/-- The valid flags are part of the results. -/
theorem State.KeepsValidFlags.of_results_eq {s t : State} (h : t.results = s.results) : s.KeepsValidFlags t := by
  obtain ⟨htable, hwaveform, hcovering⟩ := State.results_eq_iff.1 h
  obtain ⟨-, -, hlut⟩ := State.tableResult_eq_iff.1 htable
  obtain ⟨-, -, hseq⟩ := State.coveringResult_eq_iff.1 hcovering
  obtain ⟨-, -, -, -, hout, -⟩ := State.waveformResult_eq_iff.1 hwaveform
  exact ⟨hlut.trans, hseq.trans, fun hs => .inl (hout.trans hs)⟩

theorem State.keepsValidFlags_raiseInvalidParameter (s : State) : s.KeepsValidFlags s.raiseInvalidParameter :=
  .of_results_eq rfl

theorem State.keepsValidFlags_finishGenerate (s : State) : s.KeepsValidFlags s.finishGenerate :=
  ⟨id, id, fun _ => .inl rfl⟩

/-! ### GENERATE and its symbols -/

theorem SymbolEffect.strict_eq {s t : State} {x : Symbol} (h : SymbolEffect s x t) : t.strict = s.strict := by
  cases h <;> rfl

/-- OUT_VALID is as in `s`, or the strict-mode abort has ended GENERATE (R128, R173). -/
def State.KeepsOutValidOrAborts (s t : State) : Prop :=
  t.status.outValid = s.status.outValid ∨
    s.strict = true ∧ t.engine = .idle ∧ t.status.err = .malformedSymbol

theorem State.KeepsOutValidOrAborts.outValid {s t : State} (h : s.KeepsOutValidOrAborts t)
    (hs : s.status.outValid = true) : t.status.outValid = true ∨ s.strict = true ∧ t.status.err = .malformedSymbol := by
  obtain hsame | ⟨hstrict, -, herr⟩ := h
  · exact .inl (hsame.trans hs)
  · exact .inr ⟨hstrict, herr⟩

theorem SymbolEffect.keepsOutValidOrAborts {s t : State} {x : Symbol} (h : SymbolEffect s x t) :
    s.KeepsOutValidOrAborts t := by
  cases h with
  | active | inactive | pause | malformed | noOperand => exact .inl rfl
  | abort hstrict => exact .inr ⟨hstrict, rfl, rfl⟩

theorem SymbolEffect.keepsValidFlags {s t : State} {x : Symbol} (h : SymbolEffect s x t) : s.KeepsValidFlags t := by
  obtain ⟨-, -, hlut⟩ := State.tableResult_eq_iff.1 h.tableResult_eq
  obtain ⟨-, -, hseq⟩ := State.coveringResult_eq_iff.1 h.coveringResult_eq
  exact ⟨hlut.trans, hseq.trans, h.keepsOutValidOrAborts.outValid⟩

/-- GENERATE's loop goes on only from states that have not aborted, so that the abort of its last symbol is the one way to
lose OUT_VALID. -/
theorem generateLoop_outValid {n : Nat} {s t : State} (hgen : s.engine = .generating) (h : generateLoop n s = .next t)
    (hs : s.status.outValid = true) : t.status.outValid = true ∨ s.strict = true ∧ t.status.err = .malformedSymbol := by
  have hsymbol : ∀ u c v, u.strict = s.strict ∧ s.KeepsOutValidOrAborts u → u.engine = .generating →
      u.sym.read u.spc = some c → symbolStep (decodeSymbol c) u = .next v →
      v.strict = s.strict ∧ s.KeepsOutValidOrAborts v := by
    rintro u c v ⟨hstrict, hsame | ⟨-, hidle, -⟩⟩ hgen - hstep
    · have heffect := symbolStep_effect hstep
      refine ⟨heffect.strict_eq.trans hstrict, ?_⟩
      obtain hv | ⟨hu, hends⟩ := heffect.keepsOutValidOrAborts
      · exact .inl (hv.trans hsame)
      · exact .inr ⟨hstrict.symm.trans hu, hends⟩
    · rw [hidle] at hgen
      cases hgen
  obtain ⟨u, ⟨-, hu⟩, ⟨-, rfl⟩ | ⟨-, rfl⟩⟩ := generateLoop_induction n hsymbol ⟨rfl, .inl rfl⟩ hgen h
  · exact .inl rfl
  · exact hu.outValid hs

theorem execGenerate_keepsValidFlags {s t : State} (h : execGenerate s = .next t) : s.KeepsValidFlags t := by
  obtain rfl | ⟨_, _, _, -, -, -, -, hloop⟩ := execGenerate_cases h
  · exact s.keepsValidFlags_raiseInvalidParameter
  · obtain ⟨-, -, hlut⟩ := State.tableResult_eq_iff.1 (keptByGenerate_tableResult.execGenerate_eq h)
    obtain ⟨-, -, hseq⟩ := State.coveringResult_eq_iff.1 (keptByGenerate_coveringResult.execGenerate_eq h)
    exact ⟨hlut.trans, hseq.trans, generateLoop_outValid (s := s.beginGenerate) s.beginGenerate_engine hloop⟩

/-! ### BUILD and DEBRUIJN -/

theorem execBuild_keepsValidFlags {s t : State} (h : execBuild s = .next t) : s.KeepsValidFlags t := by
  obtain rfl | ⟨_, _, _, -, -, -, -, -, rfl⟩ := execBuild_cases h
  · exact s.keepsValidFlags_raiseInvalidParameter
  · exact ⟨fun _ => rfl, id, .inl⟩

theorem execDebruijn_keepsValidFlags {s t : State} (h : execDebruijn s = .next t) : s.KeepsValidFlags t := by
  obtain rfl | ⟨_, _, _, -, -, -, -, -, rfl⟩ := execDebruijn_cases h
  · exact s.keepsValidFlags_raiseInvalidParameter
  · exact ⟨id, fun _ => rfl, .inl⟩

/-- A turn of the stack loop that ends DEBRUIJN sets SEQ_VALID; the others leave STATUS alone (R149). -/
theorem CoveringEffect.keepsValidFlags {k n : Nat} {s t : State} (h : CoveringEffect k n s t) : s.KeepsValidFlags t := by
  cases h with
  | finished => exact ⟨id, fun _ => rfl, .inl⟩
  | emitted | skipped | started | looped | ended => exact ⟨id, id, .inl⟩

/-! ### Every step -/

/-- The three commands; a reserved code answers no next state (R77). -/
theorem exec_command_keepsValidFlags {x : Command} {s t : State} (h : exec x.toInstr s = .next t) :
    s.KeepsValidFlags t := by
  cases x with
  | build => exact execBuild_keepsValidFlags h
  | generate => exact execGenerate_keepsValidFlags h
  | debruijn => exact execDebruijn_keepsValidFlags h
  | reserved c => cases h

/-- A step that runs a command runs it on a state that has the same STATUS and the same CTRL.STRICT. -/
theorem State.runsCommand.step_eq_exec {s : State} {c : Byte} (h : s.runsCommand c) :
    ∃ u : State, u.status = s.status ∧ u.strict = s.strict ∧ step s = exec (decodeByte .cmd8 c) u := by
  obtain ⟨hidle, hcmd | ⟨hcmd, rest, hpending⟩⟩ := h
  · exact ⟨{ s with cmd := none }, rfl, rfl, stepRunsCommandInCmd s c hidle hcmd⟩
  · exact ⟨s.withPending rest, rfl, rfl, stepRunsCommandTheHostWrites s c rest ⟨hidle, hcmd, hpending⟩⟩

theorem State.runsCommand.keepsValidFlags {s t : State} {c : Byte} (h : s.runsCommand c) (hstep : step s = .next t) :
    s.KeepsValidFlags t := by
  obtain ⟨u, hstatus, hstrict, hexec⟩ := h.step_eq_exec
  obtain ⟨hlut, hseq, hout⟩ := exec_command_keepsValidFlags (x := decodeCommand c) (hexec.symm.trans hstep)
  rw [hstatus] at hlut hseq hout
  rw [hstrict] at hout
  exact ⟨hlut, hseq, hout⟩

theorem idle_step_keepsValidFlags {s t : State} (hidle : s.engine = .idle) (h : step s = .next t)
    (hreset : ¬s.isReset) : s.KeepsValidFlags t := by
  obtain hsame | hno | ⟨c, _, hruns, -, -⟩ := idle_step_results hidle h
  · exact .of_results_eq hsame
  · exact absurd hno hreset
  · exact hruns.keepsValidFlags h

theorem symbolFetch_keepsValidFlags {s t : State} (h : symbolFetch s = .next t) : s.KeepsValidFlags t := by
  obtain ⟨-, rfl⟩ | ⟨_, -, -, rfl⟩ | ⟨_, _, -, -, -, hsymbol⟩ := symbolFetch_cases h
  · exact s.keepsValidFlags_raiseInvalidParameter
  · exact s.keepsValidFlags_finishGenerate
  · exact (symbolStep_effect hsymbol).keepsValidFlags

theorem coveringStep_keepsValidFlags {s t : State} (h : coveringStep s = .next t) : s.KeepsValidFlags t := by
  obtain rfl | ⟨_, _, -, -, heffect⟩ := coveringStep_cases h
  · exact s.keepsValidFlags_raiseInvalidParameter
  · exact heffect.keepsValidFlags

/-- Settles O57, by the place of the step: between commands, inside GENERATE, inside DEBRUIJN. -/
theorem validFlagsAreClearedOnlyByReset : Obligations.ValidFlagsAreClearedOnlyByReset := by
  intro s t h hreset
  have hkeeps : s.KeepsValidFlags t := by
    cases hengine : s.engine with
    | idle => exact idle_step_keepsValidFlags hengine h hreset
    | generating => exact symbolFetch_keepsValidFlags ((step_of_generating hengine).symm.trans h)
    | covering => exact coveringStep_keepsValidFlags ((step_of_covering hengine).symm.trans h)
  exact ⟨hkeeps.lut, hkeeps.seq, hkeeps.out⟩

end Sys2Proof.Machine
